-- ==== Sys2Proof/Word.lean ====
section
/-! DEFINITION. The widths of the block (00_scope.md R5) and the node record (10_state.md R35). -/

namespace Sys2Proof

/-- A control register, a command word, a 32-bit element: R23, R50, R71. -/
abbrev Word := BitVec 32

/-- A Symbol or any other 8-bit element: `SYM_W`, R5. -/
abbrev Byte := BitVec 8

/-- One FrequencyTable count: `FREQ_W`, R5. -/
abbrev Count := BitVec 24

/-- A node handle: `HANDLE_W`, R5. -/
abbrev Handle := BitVec 9

/-- `NIL`, the handle that means no node: R5. -/
abbrev nilHandle : Handle := 511#9

/-- One record of the node arena: R35. -/
structure Node where
  /-- true in a leaf, false in an internal node -/
  leaf : Bool
  /-- the leaf's Symbol, 0 in an internal node -/
  sym : Byte
  freq : Word
  left : Handle
  right : Handle
  deriving DecidableEq, Repr, Inhabited

end Sys2Proof
end

