-- ==== Sys2Proof/Syntax.lean ====
section
/-! DEFINITION. The twelve commands (30_encoding.md R72) and the host's actions (20_memory.md R51). -/

namespace Sys2Proof

/-- One constructor per command of R72. No command has an operand (R71). -/
inductive Instr where
  | nop
  | analyze
  | build
  | assign
  | encode
  | pack
  | unpack
  | decode
  | compress
  | expand
  | clrerr
  | reset
  deriving DecidableEq, Repr

/-- The eleven index spaces of R50, in the order of their numbers. -/
inductive Space where
  | csr
  | inp
  | freq
  | nodeFreq
  | nodeLink
  | nodeSym
  | codeLen
  | codeBits
  | enc
  | pk
  | dec
  deriving DecidableEq, Repr

/-- What the outside world can do to the block: the two operations of R51, on a 4-bit space number and a 28-bit
index (R50), and the hardware reset of 70_reset_and_hazards.md R190. -/
inductive HostAction where
  | read (space : BitVec 4) (index : BitVec 28)
  | write (space : BitVec 4) (index : BitVec 28) (value : Word)
  | hardReset
  deriving DecidableEq, Repr

/-- One action of the host's stream. `early` says that it reaches the block while the command before it is still
pending; otherwise the core completes the command first. It matters only for the actions that can complete while
`BUSY = 1` (R53, R190), and holds the choice of which agent moves next (log 1). -/
structure HostEvent where
  early : Bool
  action : HostAction
  deriving DecidableEq, Repr

end Sys2Proof
end

