-- ==== Sys2Proof/Decode.lean ====
section
/-! DEFINITION. The command word (30_encoding.md R71 to R73): decoder and encoder. -/

namespace Sys2Proof

/-- Why a word is none of the twelve commands: R73. -/
inductive Illegal where
  /-- one of bits 31:8 is not zero (R71) -/
  | upperBitsNonzero
  /-- bits 31:8 are zero and the opcode byte is not in the map (R72) -/
  | reservedOpcode
  deriving DecidableEq, Repr

/-- `op = w[7:0]`: R71. -/
def opcodeField (w : Word) : Byte := w.extractLsb' 0 8

/-- Bits 31:8, which must be zero: R71. -/
def upperField (w : Word) : BitVec 24 := w.extractLsb' 8 24

/-- One row of the opcode map. -/
structure OpcodeRow where
  op : Byte
  instr : Instr
  deriving DecidableEq, Repr

/-- The opcode map of R72. -/
def opcodeMap : List OpcodeRow :=
  [⟨0x00#8, .nop⟩, ⟨0x01#8, .analyze⟩, ⟨0x02#8, .build⟩, ⟨0x03#8, .assign⟩, ⟨0x04#8, .encode⟩, ⟨0x05#8, .pack⟩,
   ⟨0x06#8, .unpack⟩, ⟨0x07#8, .decode⟩, ⟨0x08#8, .compress⟩, ⟨0x09#8, .expand⟩, ⟨0x0E#8, .clrerr⟩,
   ⟨0x0F#8, .reset⟩]

/-- The decoder of command words, total (R73). The illegal words are rejected by the reason of R71 or R73. -/
def decode (w : Word) : Except Illegal Instr :=
  if upperField w ≠ 0#24 then .error .upperBitsNonzero
  else
    match opcodeMap.find? (fun row => row.op == opcodeField w) with
    | some row => .ok row.instr
    | none => .error .reservedOpcode

/-- The command word of a command: column `word` of R72. -/
def encode : Instr → Word
  | .nop => 0x00000000#32
  | .analyze => 0x00000001#32
  | .build => 0x00000002#32
  | .assign => 0x00000003#32
  | .encode => 0x00000004#32
  | .pack => 0x00000005#32
  | .unpack => 0x00000006#32
  | .decode => 0x00000007#32
  | .compress => 0x00000008#32
  | .expand => 0x00000009#32
  | .clrerr => 0x0000000E#32
  | .reset => 0x0000000F#32

/-- What the decoder reads from an instruction whose bits are `w`, numbered as the opcode table numbers them. A command
word is moved whole (20_memory.md R54), so there is no byte order to apply; every bit above `nbits` is 0. -/
def decodeTableWord (nbits w : Nat) : Option Instr :=
  if nbits ≤ 32 ∧ w < 2 ^ nbits then
    match decode (BitVec.ofNat 32 w) with
    | .ok i => some i
    | .error _ => none
  else none

end Sys2Proof
end

