-- ==== Sys2Proof/Config.lean ====
section
/-! DEFINITION. The open parameter `IN_CAP` (00_scope.md R6) and the free values that stand for memory contents the
spec leaves unspecified (10_state.md R43). -/

namespace Sys2Proof

/-- The machine's parameter. `IN_CAP` has the constraint `1 <= IN_CAP <= 2^24 - 1` (R6): the upper bound is the
field's width, the lower one is `Config.wf` (WellFormed.lean). `BUS_MAP` (R57) is not represented (log 13). -/
structure Config where
  inCap : Count
  deriving DecidableEq, Repr

/-- `IN_CAP` as a number of symbols: R6. -/
def Config.inCapacity (c : Config) : Nat := c.inCap.toNat

/-- `DEC_CAP = IN_CAP`: R6. -/
def Config.decCapacity (c : Config) : Nat := c.inCap.toNat

/-- `ENC_CAP = 8 * IN_CAP`, in bits: R6. -/
def Config.encCapacity (c : Config) : Nat := 8 * c.inCap.toNat

/-- `PK_CAP = IN_CAP + 2`: R6. -/
def Config.pkCapacity (c : Config) : Nat := c.inCap.toNat + 2

/-- The reference configuration, `IN_CAP = 65535`: R6. -/
def Config.reference : Config := ⟨65535#24⟩

/-- The three byte memories whose contents a hardware reset leaves unspecified. -/
inductive ByteMemory where
  | inp
  | pk
  | dec
  deriving DecidableEq, Repr

/-- Contents of `IN`, `PK`, `DEC` that nothing has written since hardware reset number `epoch`: arbitrary, R43 (log 4). -/
opaque Config.freeByte : (epoch : Nat) → ByteMemory → (index : Nat) → Byte

/-- Contents of `ENC` that nothing has written since hardware reset number `epoch`: arbitrary, R43 (log 4). -/
opaque Config.freeBit : (epoch : Nat) → (position : Nat) → Bool

/-- Contents of `CODE_BITS` words that nothing has written since hardware reset number `epoch`: arbitrary, R43 (log 4). -/
opaque Config.freeWord : (epoch : Nat) → (index : Nat) → Word

/-- Contents of `NODE` records that nothing has written since hardware reset number `epoch`: arbitrary, R43 (log 4). -/
opaque Config.freeNode : (epoch : Nat) → (handle : Nat) → Node

end Sys2Proof
end

