-- ==== Sys2Proof/Machine/State.lean ====
section
/-! DEFINITION. The complete state of the block (10_state.md R20), its faults, and the state after hardware reset
(10_state.md R43). -/

namespace Sys2Proof.Machine

/-- The seven faults the block records (60_exceptions.md R170). Taking one is a next state, not a stop: see
`State.record` in Ops.lean. -/
inductive ErrorCode where
  | invalidPadding
  | truncatedStream
  | badHeader
  | capacity
  | noCode
  | badCommand
  | badAccess
  deriving DecidableEq, Repr

/-- Why the MODEL stops. The hardware never does (93_implementation_defined.md: no behaviour is stuck). -/
inductive Fault where
  /-- Raised by ASSIGN when `Walk` meets a path of more than `MAX_CODE` = 255 edges, whose code no `CODE_LEN` can hold.
  The tree invariant (R36) rules it out, so no run raises it (42_code_assigner.md R110 (b), R112). Safe (log 7). -/
  | codePathTooLong
  deriving DecidableEq, Repr

/-- Why the model has no meaning for a command. -/
inductive Refusal where
  /-- Raised by an arm of `exec` whose command is not modelled yet; no arm is left so. Safe. -/
  | notModelled (mnemonic : String)
  deriving DecidableEq, Repr

/-- A memory: (index, element) pairs with strictly rising indices (`Memory.wf` in Ops.lean). An index that is not listed
has not been written since the last hardware reset and reads as a free value (log 4). -/
abbrev Memory (α : Type) := List (Nat × α)

/-- Everything the spec gives the block (R20), and the model's own `cfg`, `epoch`, `hostIn` and `hostOut`. -/
structure State where
  /-- the parameter `IN_CAP`, which `CFG_IN_CAP` (CSR 10) shows: R6, R32 -/
  cfg : Config
  /-- `STATUS.BUSY`: R25 -/
  busy : Bool
  /-- `STATUS.EMPTY`: R25 -/
  empty : Bool
  /-- `PENDING`, the accepted command word: R41 -/
  pending : Word
  /-- `ERR_CODE` (CSR 2), `none` is 0: R26 -/
  errCode : Option ErrorCode
  /-- `ERR_INFO` (CSR 3): R26 -/
  errInfo : Word
  /-- `IN_LEN` (CSR 4): R27 -/
  inLen : Word
  /-- `N_NODES` (CSR 5): R28 -/
  nNodes : Word
  /-- `ROOT` (CSR 6), its bits 8:0; the rest read 0: R28 -/
  root : Handle
  /-- `ENC_LEN` (CSR 7), in bits: R29 -/
  encLen : Word
  /-- `PK_LEN` (CSR 8), in bytes: R30 -/
  pkLen : Word
  /-- `DEC_LEN` (CSR 9), in symbols: R31 -/
  decLen : Word
  /-- `IN`: R33 -/
  inMem : Memory Byte
  /-- `FREQ`: R34 -/
  freq : Vector Count 256
  /-- `NODE`: R35 -/
  node : Memory Node
  /-- `CODE_LEN`: R37 -/
  codeLen : Vector Byte 256
  /-- `CODE_BITS`, as the words of R78: index `8*s + w` -/
  codeBits : Memory Word
  /-- `ENC`, by bit position: R38 -/
  enc : Memory Bool
  /-- `PK`: R39 -/
  pk : Memory Byte
  /-- `DEC`: R40 -/
  dec : Memory Byte
  /-- the model's own: how many hardware resets there have been (log 4) -/
  epoch : Nat
  /-- the model's own: what the outside world still has to do, oldest first (log 1) -/
  hostIn : List HostEvent
  /-- the model's own: what the host's reads have returned, newest first (log 8) -/
  hostOut : List Word
  deriving DecidableEq, Repr

/-- The state after a hardware reset of a machine with parameter `cfg`: R43. The six bulk memories list nothing, so
their contents are unspecified. -/
def State.resetOf (cfg : Config) : State where
  cfg := cfg
  busy := false
  empty := false
  pending := 0#32
  errCode := none
  errInfo := 0#32
  inLen := 0#32
  nNodes := 0#32
  root := nilHandle
  encLen := 0#32
  pkLen := 0#32
  decLen := 0#32
  inMem := []
  freq := Vector.replicate 256 0#24
  node := []
  codeLen := Vector.replicate 256 0#8
  codeBits := []
  enc := []
  pk := []
  dec := []
  epoch := 0
  hostIn := []
  hostOut := []

/-- The machine of the reference configuration right after hardware reset: R43, R6 (log 3). -/
def State.reset : State := State.resetOf Config.reference

/-- How a stage of a command ends: by running to its end, by a `raise` (60_exceptions.md R171), or stuck. -/
inductive Stage where
  | done (s : State)
  | raised (s : State)
  | stuck (r : Fault)

end Sys2Proof.Machine
end

