-- ==== Sys2Proof/Machine/Ops.lean ====
section
/-! DEFINITION. The shared operations: memories, their elements, recording a fault and returning from one, and the
frame of a command (45_control.md R138). -/

namespace Sys2Proof.Machine

/-! ### Memories -/

/-- The element listed at index `i`, if any. -/
def Memory.get {α : Type} : Memory α → Nat → Option α
  | [], _ => none
  | (k, v) :: rest, i => if k = i then some v else Memory.get rest i

/-- Writes one element, keeping the indices strictly rising. -/
def Memory.put {α : Type} : Memory α → Nat → α → Memory α
  | [], i, v => [(i, v)]
  | (k, w) :: rest, i, v =>
    if i < k then (i, v) :: (k, w) :: rest
    else if i = k then (i, v) :: rest
    else (k, w) :: Memory.put rest i v

/-- `MemWrite(SPACE:i, n, v)`: writes the sequence `v` to consecutive elements from `i` (00_scope.md R10). -/
def Memory.putList {α : Type} : Memory α → Nat → List α → Memory α
  | m, _, [] => m
  | m, i, v :: vs => Memory.putList (m.put i v) (i + 1) vs

/-- The indices are at least `lo` and strictly rising. -/
def Memory.risingFrom {α : Type} : Nat → Memory α → Bool
  | _, [] => true
  | lo, (k, _) :: rest => decide (lo ≤ k) && Memory.risingFrom (k + 1) rest

/-- The canonical form of a memory of `cap` elements: indices strictly rising and below `cap`. An unlisted element reads
as a free value, so no entry can equal it and nothing is ever removed (log 4). -/
def Memory.wf {α : Type} (cap : Nat) (m : Memory α) : Bool :=
  Memory.risingFrom 0 m && m.all (fun cell => decide (cell.1 < cap))

/-! ### Elements of the seven memories (10_state.md R33 to R40) -/

/-- All symbols in ascending value, `for s in 0..255`. -/
def symbols : List Byte := (List.range 256).map (BitVec.ofNat 8)

/-- `IN[i]`: R33. -/
def State.inAt (s : State) (i : Nat) : Byte := (s.inMem.get i).getD (Config.freeByte s.epoch .inp i)

/-- `FREQ[x]`: R34. -/
def State.freqAt (s : State) (x : Byte) : Count := s.freq[x.toNat]'x.isLt

/-- `NODE[k]`: R35. -/
def State.nodeAt (s : State) (k : Nat) : Node := (s.node.get k).getD (Config.freeNode s.epoch k)

/-- `CODE_LEN[x]`: R37. -/
def State.codeLenAt (s : State) (x : Byte) : Byte := s.codeLen[x.toNat]'x.isLt

/-- `CODE_BITS` as the host's word `i` of R78. -/
def State.codeWordAt (s : State) (i : Nat) : Word := (s.codeBits.get i).getD (Config.freeWord s.epoch i)

/-- Bit `p` of `ENC`: R38. -/
def State.encAt (s : State) (p : Nat) : Bool := (s.enc.get p).getD (Config.freeBit s.epoch p)

/-- `PK[i]`: R39. -/
def State.pkAt (s : State) (i : Nat) : Byte := (s.pk.get i).getD (Config.freeByte s.epoch .pk i)

/-- `DEC[i]`: R40. -/
def State.decAt (s : State) (i : Nat) : Byte := (s.dec.get i).getD (Config.freeByte s.epoch .dec i)

/-- `NODE[k] <- n`: R35. -/
def State.putNode (s : State) (k : Nat) (n : Node) : State := { s with node := s.node.put k n }

/-- `ENC[p..] <- bits`, in bit-string order: R38. -/
def State.putEnc (s : State) (p : Nat) (bits : List Bool) : State := { s with enc := s.enc.putList p bits }

/-- `PK[i..] <- bytes`: R39. -/
def State.putPk (s : State) (i : Nat) (bytes : List Byte) : State := { s with pk := s.pk.putList i bytes }

/-- `DEC[i] <- x`: R40. -/
def State.putDec (s : State) (i : Nat) (x : Byte) : State := { s with dec := s.dec.put i x }

/-! ### Faults (60_exceptions.md R170 to R173) -/

/-- The code of a fault, the value of `ERR_CODE`: the table of R170. -/
def ErrorCode.number : ErrorCode → Nat
  | .invalidPadding => 1
  | .truncatedStream => 2
  | .badHeader => 3
  | .capacity => 4
  | .noCode => 5
  | .badCommand => 6
  | .badAccess => 7

/-- Taking an exception. What a `raise` records: the fault and its information word when no fault is recorded, nothing
otherwise (R171, R172). -/
def State.record (s : State) (e : ErrorCode) (info : Word) : State :=
  if s.errCode = none then { s with errCode := some e, errInfo := info } else s

/-- The return from an exception, `CLRERR`: R144, R184. -/
def State.clearError (s : State) : State := { s with errCode := none, errInfo := 0#32 }

/-- `raise F(info)` inside a command: the fault is recorded and the command ends at that point (R171). -/
def raise (e : ErrorCode) (info : Nat) (s : State) : Stage := .raised (s.record e (BitVec.ofNat 32 info))

/-- Runs a further stage when the one before it did not raise: 45_control.md R143. -/
def Stage.andThen : Stage → (State → Stage) → Stage
  | .done s, f => f s
  | .raised s, _ => .raised s
  | .stuck r, _ => .stuck r

/-! ### The frame of a command (45_control.md R138) -/

/-- Every step of the core ends with `STATUS.BUSY <- 0`: R138. -/
def State.complete (s : State) : State := { s with busy := false }

/-- The end of a command, by its last statement or by a `raise`: R138, R171. -/
def Stage.finish : Stage → Host.Outcome State Fault Refusal
  | .done s => .next s.complete
  | .raised s => .next s.complete
  | .stuck r => .fault r

/-- Executes a command that a recorded fault refuses: R138 (3) and (4), R173. -/
def runCommand (body : State → Stage) (s : State) : Host.Outcome State Fault Refusal :=
  if s.errCode = none then (body s).finish else .next s.complete

/-- Executes a command that a recorded fault does not refuse (`RESET`, `CLRERR`): R138 (1) and (2). -/
def runAlways (body : State → State) (s : State) : Host.Outcome State Fault Refusal := .next (body s).complete

/-- Executes a pending word that is none of the twelve commands: R138 (3) and (5), R146. -/
def execIllegal (w : Word) (s : State) : Host.Outcome State Fault Refusal := runCommand (raise .badCommand w.toNat) s

/-! ### Reset (10_state.md R43, 45_control.md R145, 70_reset_and_hazards.md R190) -/

/-- What the `RESET` command assigns: every register of R43, `PENDING` among them, `FREQ` and `CODE_LEN`; the six bulk
memories keep their contents. `BUSY` is cleared by the frame of the command. -/
def State.softReset (s : State) : State :=
  { s with
    empty := false
    pending := 0#32
    errCode := none
    errInfo := 0#32
    inLen := 0#32
    nNodes := 0#32
    root := nilHandle
    encLen := 0#32
    pkLen := 0#32
    decLen := 0#32
    freq := Vector.replicate 256 0#24
    codeLen := Vector.replicate 256 0#8 }

/-- A hardware reset: the state of R43 with the bulk memories unspecified anew, so under the next `epoch`; a pending
command is abandoned (R190). What the outside world does next is untouched. -/
def State.hardReset (s : State) : State :=
  { State.resetOf s.cfg with epoch := s.epoch + 1, hostIn := s.hostIn, hostOut := s.hostOut }

end Sys2Proof.Machine
end

