-- ==== Sys2Proof/Machine/Flags.lean ====
section
/-! DEFINITION. The status word and the error registers as the host reads them (10_state.md R25, R26). `BUSY`, `ERR` and
`EMPTY` are the only flags; no command computes any other. -/

namespace Sys2Proof.Machine

/-- `STATUS.ERR`, not stored: 1 exactly when `ERR_CODE != 0` (R25). -/
def State.errFlag (s : State) : Bool := s.errCode.isSome

/-- `STATUS`: bit 0 `BUSY`, bit 1 `ERR`, bit 2 `EMPTY`, bits 31:3 zero (R25). -/
def State.statusWord (s : State) : Word :=
  BitVec.ofNat 32 (s.busy.toNat + 2 * s.errFlag.toNat + 4 * s.empty.toNat)

/-- `ERR_CODE` as a word: 0 when no fault is recorded, else its code (R26). -/
def State.errCodeWord (s : State) : Word :=
  match s.errCode with
  | none => 0#32
  | some e => BitVec.ofNat 32 e.number

/-- `STATUS.EMPTY <- b`, which only `COMPRESS` does: R25, 45_control.md R140. -/
def State.setEmpty (s : State) (b : Bool) : State := { s with empty := b }

end Sys2Proof.Machine
end

