-- ==== Sys2Proof/Machine/Operands.lean ====
section
/-! DEFINITION. The forms data takes: bit strings and bytes (00_scope.md R9), the logical contents the length registers
select (10_state.md R42), the code of a symbol (R37) and its inverse (44_decoder.md R130), the artifact
(30_encoding.md R79, R80) and the host's words (R74 to R78). Commands have no other operands (R21, R71, R82). -/

namespace Sys2Proof.Machine

/-! ### Bit strings: most significant bit first, R9, 20_memory.md R54 -/

/-- The number a bit string spells, most significant bit first. -/
def bitsToNat (b : List Bool) : Nat := b.foldl (fun acc bit => 2 * acc + bit.toNat) 0

/-- `Byte8(b)`, for a bit string of length 8: R9. -/
def byte8 (b : List Bool) : Byte := BitVec.ofNat 8 (bitsToNat b)

/-- `Bits8(v)`, the inverse of `Byte8`: bit `k` is `v[7-k]`, R9. -/
def bits8 (v : Byte) : List Bool := (List.range 8).map (fun k => v.getLsbD (7 - k))

/-- A 32-bit word from 32 positions of a bit string, position `k` in bit `31-k`: R78. -/
def word32 (b : List Bool) : Word := BitVec.ofNat 32 (bitsToNat b)

/-! ### Logical contents: R42 -/

/-- The input sequence `IN[0..IN_LEN)`: R27. -/
def State.input (s : State) : List Byte := (List.range s.inLen.toNat).map s.inAt

/-- The encoded bit string `ENC[0..ENC_LEN)`: R29. -/
def State.encoded (s : State) : List Bool := (List.range s.encLen.toNat).map s.encAt

/-- The packed byte sequence `PK[0..PK_LEN)`: R30. -/
def State.packedBytes (s : State) : List Byte := (List.range s.pkLen.toNat).map s.pkAt

/-- The reconstructed symbol sequence `DEC[0..DEC_LEN)`: R31. -/
def State.decoded (s : State) : List Byte := (List.range s.decLen.toNat).map s.decAt

/-! ### The code table: R37, R78 -/

/-- Position `k` of `CODE_BITS[x]`: bit `31 - k mod 32` of word `8*x + k/32`, R78. -/
def State.codeBitAt (s : State) (x : Byte) (k : Nat) : Bool :=
  (s.codeWordAt (8 * x.toNat + k / 32)).getLsbD (31 - k % 32)

/-- `code(x)`: the first `CODE_LEN[x]` positions of `CODE_BITS[x]`, empty when `x` has no code (R37, R82 (c)). -/
def State.code (s : State) (x : Byte) : List Bool := (List.range (s.codeLenAt x).toNat).map (s.codeBitAt x)

/-- The eight words that hold the bit string `p` from position 0 with every later position 0: R78. -/
def codeWords (p : List Bool) : List Word :=
  (List.range 8).map (fun w => word32 ((List.range 32).map (fun k => p.getD (32 * w + k) false)))

/-- Every word of `CODE_BITS` written with 0. Irreducible, so that a proof does not unroll the 2048 entries. -/
@[irreducible] def zeroCodeWords : Memory Word := (List.range 2048).map (fun i => (i, 0#32))

/-- Removes every code and zeroes every position: 42_code_assigner.md R105. -/
def State.clearCodes (s : State) : State :=
  { s with codeLen := Vector.replicate 256 0#8, codeBits := zeroCodeWords }

/-- `SetCode(x, p)`: R105. -/
def State.setCode (s : State) (x : Byte) (p : List Bool) : State :=
  { s with
    codeLen := s.codeLen.set x.toNat (BitVec.ofNat 8 p.length) x.isLt
    codeBits := s.codeBits.putList (8 * x.toNat) (codeWords p) }

/-- `Match(c)`, the inverse mapping: the smallest symbol whose code is `c`, R130. -/
def State.matchCode (s : State) (c : List Bool) : Option Byte :=
  symbols.find? (fun x => (s.codeLenAt x).toNat == c.length && s.code x == c)

/-! ### The padded bit string: R79, R80 -/

/-- `extra(E) = 8 - (E mod 8)`, in 1..8: R79. -/
def extraBits (e : Nat) : Nat := 8 - e % 8

/-- `pad[p]`: the encoded bit, or 0 at and beyond `ENC_LEN`, 43_bit_packer.md R117. -/
def State.padBit (s : State) (p : Nat) : Bool := if p < s.encLen.toNat then s.encAt p else false

/-- Payload byte `j` of the artifact, `Byte8(pad[8j .. 8j+8))`: R117. -/
def State.payloadByte (s : State) (j : Nat) : Byte := byte8 ((List.range 8).map (fun k => s.padBit (8 * j + k)))

/-- Payload bit `p` of an artifact, bit `7 - (p mod 8)` of `PK[1 + p/8]`: 44_decoder.md R125. -/
def State.payloadBit (s : State) (p : Nat) : Bool := (s.pkAt (1 + p / 8)).getLsbD (7 - p % 8)

/-! ### The host's words: R74 to R78 -/

/-- `NODE_LINK[k]`: `left` in bits 8:0, `right` in bits 24:16, R75. -/
def nodeLinkWord (n : Node) : Word := n.right.setWidth 32 <<< 16 ||| n.left.setWidth 32

/-- `NODE_SYM[k]`: `sym` in bits 7:0, `leaf` in bit 8, R76. -/
def nodeSymWord (n : Node) : Word := (BitVec.ofBool n.leaf).setWidth 32 <<< 8 ||| n.sym.setWidth 32

/-- Host byte `j` of `ENC`, `Byte8(ENC[8j..8j+8))`: R77. -/
def State.encByteAt (s : State) (j : Nat) : Byte := byte8 ((List.range 8).map (fun k => s.encAt (8 * j + k)))

end Sys2Proof.Machine
end

