-- ==== Sys2Proof/Machine/Analyzer.lean ====
section
/-! DEFINITION. The Frequency Analyzer, command `ANALYZE` (40_frequency_analyzer.md). -/

namespace Sys2Proof.Machine

/-- `FREQ[x] <- FREQ[x] + 1`: R90. The sum fits the element (R92). -/
def bumpCount (freq : Vector Count 256) (x : Byte) : Vector Count 256 :=
  freq.set x.toNat (freq[x.toNat]'x.isLt + 1#24) x.isLt

/-- Adds one to the count of each symbol, in order. -/
def countSymbols : List Byte → Vector Count 256 → Vector Count 256
  | [], freq => freq
  | x :: rest, freq => countSymbols rest (bumpCount freq x)

/-- The pseudocode of `ANALYZE`: R90. -/
def analyzeStage (s : State) : Stage :=
  .done { s with freq := countSymbols s.input (Vector.replicate 256 0#24) }

/-- `ANALYZE`: R90 to R94. -/
def execAnalyze (s : State) : Host.Outcome State Fault Refusal := runCommand analyzeStage s

end Sys2Proof.Machine
end

