-- ==== Sys2Proof/Machine/BitPacker.lean ====
section
/-! DEFINITION. The Bit Packer, commands `ENCODE` and `PACK` (43_bit_packer.md). -/

namespace Sys2Proof.Machine

/-- `ENC_LEN <- e`. -/
def State.setEncLen (s : State) (e : Nat) : State := { s with encLen := BitVec.ofNat 32 e }

/-- The loop of `ENCODE` over the input indices, with `e` bits written so far: R113, the checks R114 and R115. -/
def encodeLoop : (indices : List Nat) → (e : Nat) → State → Stage
  | [], e, s => .done (s.setEncLen e)
  | i :: rest, e, s =>
    let x := s.inAt i
    let len := (s.codeLenAt x).toNat
    if len = 0 then raise .noCode i (s.setEncLen e)
    else if e + len > s.cfg.encCapacity then raise .capacity i (s.setEncLen e)
    else encodeLoop rest (e + len) (s.putEnc e (s.code x))

/-- The pseudocode of `ENCODE`: R113. -/
def encodeStage (s : State) : Stage := encodeLoop (List.range s.inLen.toNat) 0 s

/-- `ENCODE`: R113 to R116, R122. -/
def execEncode (s : State) : Host.Outcome State Fault Refusal := runCommand encodeStage s

/-- `T`, the length of the padded bit string of `e` encoded bits: R117. -/
def paddedLength (e : Nat) : Nat := 8 + e + extraBits e

/-- The pseudocode of `PACK`, the check of R119 made before anything is written: R117. -/
def packStage (s : State) : Stage :=
  let e := s.encLen.toNat
  let t := paddedLength e
  if t % 8 ≠ 0 then raise .invalidPadding t s
  else
    let n := t / 8
    let s1 := s.putPk 0 (BitVec.ofNat 8 (extraBits e) :: (List.range (n - 1)).map s.payloadByte)
    .done { s1 with pkLen := BitVec.ofNat 32 n }

/-- `PACK`: R117 to R121. -/
def execPack (s : State) : Host.Outcome State Fault Refusal := runCommand packStage s

end Sys2Proof.Machine
end

