-- ==== Sys2Proof/Machine/CodeAssigner.lean ====
section
/-! DEFINITION. The Code Assigner, command `ASSIGN` (42_code_assigner.md). -/

namespace Sys2Proof.Machine

/-- `Walk(k, p)`: R105, R107. The fuel is 256 less the length of `p`; it ends only on a path of more than 255 edges,
whose code `CODE_LEN` cannot hold and which the tree invariant rules out (R110 (b), log 7). -/
def walk : (fuel : Nat) → (k : Handle) → (p : List Bool) → State → Option State
  | 0, k, _, s => if k = nilHandle then some s else none
  | fuel + 1, k, p, s =>
    if k = nilHandle then some s
    else if (s.nodeAt k.toNat).leaf then some (s.setCode (s.nodeAt k.toNat).sym p)
    else
      match walk fuel (s.nodeAt k.toNat).left (p ++ [false]) s with
      | none => none
      | some s1 => walk fuel (s.nodeAt k.toNat).right (p ++ [true]) s1

/-- `Walk(ROOT, "")` as the rest of the command. -/
def walkStage (s : State) : Stage :=
  match walk 256 s.root [] s with
  | some t => .done t
  | none => .stuck .codePathTooLong

/-- The pseudocode of `ASSIGN`: R105; no tree is R108, a lone leaf is R106. -/
def assignStage (s : State) : Stage :=
  let s1 := s.clearCodes
  if s1.root = nilHandle then .done s1
  else if (s1.nodeAt s1.root.toNat).leaf then .done (s1.setCode (s1.nodeAt s1.root.toNat).sym [false])
  else walkStage s1

/-- `ASSIGN`: R105 to R112. -/
def execAssign (s : State) : Host.Outcome State Fault Refusal := runCommand assignStage s

end Sys2Proof.Machine
end

