-- ==== Sys2Proof/Machine/Decoder.lean ====
section
/-! DEFINITION. The Decoder, commands `UNPACK` and `DECODE` (44_decoder.md). -/

namespace Sys2Proof.Machine

/-- The pseudocode of `UNPACK`: R125, with R126 (`BAD_HEADER`), R127 (empty artifact) and R128 (`CAPACITY`). -/
def unpackStage (s : State) : Stage :=
  if s.pkLen.toNat = 0 then .done { s with encLen := 0#32 }
  else
    let x := (s.pkAt 0).toNat
    let p := 8 * (s.pkLen.toNat - 1)
    if x < 1 ∨ x > 8 ∨ x > p then raise .badHeader x s
    else
      let e := p - x
      if e > s.cfg.encCapacity then raise .capacity e s
      else
        let s1 := s.putEnc 0 ((List.range e).map s.payloadBit)
        .done { s1 with encLen := BitVec.ofNat 32 e }

/-- `UNPACK`: R125 to R128. -/
def execUnpack (s : State) : Host.Outcome State Fault Refusal := runCommand unpackStage s

/-- `DEC_LEN <- d`. -/
def State.setDecLen (s : State) (d : Nat) : State := { s with decLen := BitVec.ofNat 32 d }

/-- The scan of `DECODE` over the bit positions, with `d` symbols emitted and the candidate `cand`: R129, the checks
R131 and R132. -/
def decodeLoop : (positions : List Nat) → (d : Nat) → (cand : List Bool) → State → Stage
  | [], d, cand, s =>
    if cand.length > 0 then raise .truncatedStream cand.length (s.setDecLen d) else .done (s.setDecLen d)
  | p :: rest, d, cand, s =>
    let cand1 := cand ++ [s.encAt p]
    match s.matchCode cand1 with
    | none => decodeLoop rest d cand1 s
    | some x =>
      if d = s.cfg.decCapacity then raise .capacity p (s.setDecLen d)
      else decodeLoop rest (d + 1) [] (s.putDec d x)

/-- The pseudocode of `DECODE`: R129. -/
def decodeStage (s : State) : Stage := decodeLoop (List.range s.encLen.toNat) 0 [] s

/-- `DECODE`: R129 to R135. -/
def execDecode (s : State) : Host.Outcome State Fault Refusal := runCommand decodeStage s

end Sys2Proof.Machine
end

