-- ==== Sys2Proof/Machine/TreeBuilder.lean ====
section
/-! DEFINITION. The Tree Builder, command `BUILD` (41_tree_builder.md). Handles are numbers here; a record's `left` and
`right` hold them in 9 bits (10_state.md R35). -/

namespace Sys2Proof.Machine

/-- The record of a leaf: R95. -/
def leafNode (x : Byte) (count : Count) : Node :=
  { leaf := true, sym := x, freq := count.setWidth 32, left := nilHandle, right := nilHandle }

/-- The record of the internal node over the handles `a` (first popped) and `b` (second popped): R95, R97. -/
def innerNode (s : State) (a b : Nat) : Node :=
  { leaf := false
    sym := 0#8
    freq := (s.nodeAt a).freq + (s.nodeAt b).freq
    left := BitVec.ofNat 9 a
    right := BitVec.ofNat 9 b }

/-- Creates the leaves of the symbols with a non-zero count, from handle `n` on; answers the number of leaves: R95. -/
def buildLeaves : List Byte → Nat → State → Nat × State
  | [], n, s => (n, s)
  | x :: rest, n, s =>
    if s.freqAt x = 0#24 then buildLeaves rest n s
    else buildLeaves rest (n + 1) (s.putNode n (leafNode x (s.freqAt x)))

/-- The order of the queue: first by `freq`, for equal `freq` by handle (R96). -/
def popsBefore (s : State) (a b : Nat) : Bool :=
  let fa := (s.nodeAt a).freq.toNat
  let fb := (s.nodeAt b).freq.toNat
  decide (fa < fb) || (decide (fa = fb) && decide (a < b))

/-- The smallest of `best` and the handles of the list, in the order of R96. -/
def smallest (s : State) : Nat → List Nat → Nat
  | best, [] => best
  | best, k :: rest => smallest s (if popsBefore s k best then k else best) rest

/-- `PopMin(Q)`: the smallest handle of a non-empty queue and the queue without it, R95, R96. -/
def popMin (s : State) : List Nat → Option (Nat × List Nat)
  | [] => none
  | k :: rest =>
    let least := smallest s k rest
    some (least, (k :: rest).erase least)

/-- `while |Q| > 1`: pops two, creates their parent at the next free handle `m` and pushes it. The fuel is the number of
handles in the queue, one more than the iterations there are (R100, R104). Answers the queue, the next free handle and
the state. -/
def mergeLoop : (fuel : Nat) → (queue : List Nat) → (m : Nat) → State → List Nat × Nat × State
  | 0, queue, m, s => (queue, m, s)
  | fuel + 1, queue, m, s =>
    if queue.length ≤ 1 then (queue, m, s)
    else
      match popMin s queue with
      | none => (queue, m, s)
      | some (a, queue1) =>
        match popMin s queue1 with
        | none => (queue, m, s)
        | some (b, queue2) => mergeLoop fuel (queue2 ++ [m]) (m + 1) (s.putNode m (innerNode s a b))

/-- `N_NODES <- m`, and `ROOT <-` the one element of the queue, or `NIL` when there is no leaf: R95, R99. -/
def setTree (queue : List Nat) (m : Nat) (s : State) : State :=
  { s with
    nNodes := BitVec.ofNat 32 m
    root := match queue with
      | [] => nilHandle
      | k :: _ => BitVec.ofNat 9 k }

/-- The pseudocode of `BUILD`: R95. -/
def buildStage (s : State) : Stage :=
  let leaves := buildLeaves symbols 0 s
  let merged := mergeLoop leaves.1 (List.range leaves.1) leaves.1 leaves.2
  .done (setTree merged.1 merged.2.1 merged.2.2)

/-- `BUILD`: R95 to R104. -/
def execBuild (s : State) : Host.Outcome State Fault Refusal := runCommand buildStage s

end Sys2Proof.Machine
end

