-- ==== Sys2Proof/Machine/Control.lean ====
section
/-! DEFINITION. The composite commands `COMPRESS` and `EXPAND` and the control commands `NOP`, `CLRERR`, `RESET`
(45_control.md). -/

namespace Sys2Proof.Machine

/-- `NOP`: R139. -/
def execNop (s : State) : Host.Outcome State Fault Refusal := runCommand .done s

/-- The empty-input short circuit of `COMPRESS`: R140, R141. -/
def shortCircuit (s : State) : State :=
  { s.clearCodes.setEmpty true with
    freq := Vector.replicate 256 0#24
    nNodes := 0#32
    root := nilHandle
    encLen := 0#32
    pkLen := 0#32 }

/-- The five stages of the encoder in order: R140, R143. -/
def encoderStages (s : State) : Stage :=
  ((((analyzeStage s).andThen buildStage).andThen assignStage).andThen encodeStage).andThen packStage

/-- The pseudocode of `COMPRESS`: R140. -/
def compressStage (s : State) : Stage :=
  if s.inLen = 0#32 then .done (shortCircuit s) else encoderStages (s.setEmpty false)

/-- `COMPRESS`: R140, R141, R143. -/
def execCompress (s : State) : Host.Outcome State Fault Refusal := runCommand compressStage s

/-- The pseudocode of `EXPAND`: R142, R143. -/
def expandStage (s : State) : Stage := (unpackStage s).andThen decodeStage

/-- `EXPAND`: R142, R143. -/
def execExpand (s : State) : Host.Outcome State Fault Refusal := runCommand expandStage s

/-- `CLRERR`: R144. -/
def execClrerr (s : State) : Host.Outcome State Fault Refusal := runAlways State.clearError s

/-- `RESET`: R145. -/
def execReset (s : State) : Host.Outcome State Fault Refusal := runAlways State.softReset s

end Sys2Proof.Machine
end

