-- ==== Sys2Proof/WellFormed.lean ====
section
/-! DEFINITION. Well-formedness of the terms a reader can write: the parameter (00_scope.md R6) and the host's actions
(20_memory.md R50). A command has no operands (30_encoding.md R71), so every `Instr` is well-formed. -/

namespace Sys2Proof

/-- `1 <= IN_CAP <= 2^24 - 1`: R6. -/
def Config.wf (c : Config) : Bool := 1 ≤ c.inCap.toNat && c.inCap.toNat ≤ 2 ^ 24 - 1

/-- Commands take no operands and no immediates (R71), so there is nothing to check. -/
def Instr.wf : Instr → Bool
  | .nop => true
  | .analyze => true
  | .build => true
  | .assign => true
  | .encode => true
  | .pack => true
  | .unpack => true
  | .decode => true
  | .compress => true
  | .expand => true
  | .clrerr => true
  | .reset => true

/-- The width in bits of one element of the space with this number: R50. A number that names no space gives 32, the
width of the value the host offers. -/
def elementWidth (space : BitVec 4) : Nat :=
  if space = 1#4 ∨ space = 6#4 ∨ space = 8#4 ∨ space = 9#4 ∨ space = 10#4 then 8 else 32

/-- `HostWrite` stores "one element `v` of the space's width" (R51): a value that does not fit that width is no
well-formed access. The model refuses it as it refuses every too-large value (log 6). -/
def HostAction.wf : HostAction → Bool
  | .read _ _ => true
  | .write space _ value => value.toNat < 2 ^ elementWidth space
  | .hardReset => true

end Sys2Proof
end

