-- ==== Sys2Proof/Machine/HostPort.lean ====
section
/-! DEFINITION. The host port: the eleven index spaces and what a host access does (20_memory.md R50 to R53,
60_exceptions.md R180). -/

namespace Sys2Proof.Machine

/-- The space a number names, 0..10; the numbers 11..15 name none (R50, R52 (a)). -/
def spaceOf (number : BitVec 4) : Option Space :=
  match number.toNat with
  | 0 => some .csr
  | 1 => some .inp
  | 2 => some .freq
  | 3 => some .nodeFreq
  | 4 => some .nodeLink
  | 5 => some .nodeSym
  | 6 => some .codeLen
  | 7 => some .codeBits
  | 8 => some .enc
  | 9 => some .pk
  | 10 => some .dec
  | _ => none

/-- How many indices a space accepts, from 0: the table of R50. -/
def indexCount (cfg : Config) : Space → Nat
  | .csr => 11
  | .inp => cfg.inCapacity
  | .freq => 256
  | .nodeFreq => 511
  | .nodeLink => 511
  | .nodeSym => 511
  | .codeLen => 256
  | .codeBits => 2048
  | .enc => cfg.inCapacity
  | .pk => cfg.pkCapacity
  | .dec => cfg.decCapacity

/-- What a read of control register `i` returns: the table of 10_state.md R23. `CMD` reads 0 (R24). -/
def State.csrAt (s : State) (i : Nat) : Word :=
  match i with
  | 1 => s.statusWord
  | 2 => s.errCodeWord
  | 3 => s.errInfo
  | 4 => s.inLen
  | 5 => s.nNodes
  | 6 => s.root.setWidth 32
  | 7 => s.encLen
  | 8 => s.pkLen
  | 9 => s.decLen
  | 10 => s.cfg.inCap.setWidth 32
  | _ => 0#32

/-- The current value of element `i` of a space, in the low bits of a word: R51, 30_encoding.md R74 to R78. -/
def State.elementAt (s : State) (space : Space) (i : Nat) : Word :=
  match space with
  | .csr => s.csrAt i
  | .inp => (s.inAt i).setWidth 32
  | .freq => (s.freqAt (BitVec.ofNat 8 i)).setWidth 32
  | .nodeFreq => (s.nodeAt i).freq
  | .nodeLink => nodeLinkWord (s.nodeAt i)
  | .nodeSym => nodeSymWord (s.nodeAt i)
  | .codeLen => (s.codeLenAt (BitVec.ofNat 8 i)).setWidth 32
  | .codeBits => s.codeWordAt i
  | .enc => (s.encByteAt i).setWidth 32
  | .pk => (s.pkAt i).setWidth 32
  | .dec => (s.decAt i).setWidth 32

/-- The space of a legal read: the number names a space and the index is in its range (R52 (a), (b)). -/
def readTarget (cfg : Config) (number : BitVec 4) (index : BitVec 28) : Option Space :=
  match spaceOf number with
  | none => none
  | some space => if index.toNat < indexCount cfg space then some space else none

/-- What a legal read returns, `none` for an illegal one: R51, R52. -/
def hostRead (s : State) (number : BitVec 4) (index : BitVec 28) : Option Word :=
  (readTarget s.cfg number index).map (fun space => s.elementAt space index.toNat)

/-- Acceptance of a command: 45_control.md R137. -/
def acceptCommand (s : State) (w : Word) : State := { s with pending := w, busy := true }

/-- A write of control register `i`, `none` where it is illegal: the table of 10_state.md R23, R52 (c), (d). -/
def writeCsr (s : State) (i : Nat) (v : Word) : Option State :=
  match i with
  | 0 => some (acceptCommand s v)
  | 4 => if v.toNat ≤ s.cfg.inCapacity then some { s with inLen := v } else none
  | 7 => if v.toNat ≤ s.cfg.encCapacity then some { s with encLen := v } else none
  | 8 => if v.toNat ≤ s.cfg.pkCapacity then some { s with pkLen := v } else none
  | _ => none

/-- A write of element `i` of a space, `none` where it is illegal: read-only spaces (R52 (c)), a `FREQ` value above
`2^24 - 1` (R52 (d)), and a value wider than an 8-bit element (log 6). -/
def writeElement (s : State) (space : Space) (i : Nat) (v : Word) : Option State :=
  match space with
  | .csr => writeCsr s i v
  | .inp => if v.toNat < 256 then some { s with inMem := s.inMem.put i (v.setWidth 8) } else none
  | .freq =>
    if v.toNat ≤ 2 ^ 24 - 1 then
      some { s with freq := s.freq.set (BitVec.ofNat 8 i).toNat (v.setWidth 24) (BitVec.ofNat 8 i).isLt }
    else none
  | .nodeFreq => none
  | .nodeLink => none
  | .nodeSym => none
  | .codeLen =>
    if v.toNat < 256 then
      some { s with codeLen := s.codeLen.set (BitVec.ofNat 8 i).toNat (v.setWidth 8) (BitVec.ofNat 8 i).isLt }
    else none
  | .codeBits => some { s with codeBits := s.codeBits.put i v }
  | .enc => if v.toNat < 256 then some (s.putEnc (8 * i) (bits8 (v.setWidth 8))) else none
  | .pk => if v.toNat < 256 then some { s with pk := s.pk.put i (v.setWidth 8) } else none
  | .dec => none

/-- A host write, `none` where it is illegal: R51, R52. -/
def hostWrite (s : State) (number : BitVec 4) (index : BitVec 28) (v : Word) : Option State :=
  match readTarget s.cfg number index with
  | none => none
  | some space => writeElement s space index.toNat v

/-- The information word of `BAD_ACCESS`: space number in bits 31:28, index in bits 27:0 (R180). -/
def accessInfo (number : BitVec 4) (index : BitVec 28) : Word :=
  BitVec.ofNat 32 (number.toNat * 2 ^ 28 + index.toNat)

/-- What the host's read returned goes to the host. -/
def State.answer (s : State) (v : Word) : State := { s with hostOut := v :: s.hostOut }

/-- One action of the outside world takes effect: R51, R52, R190. An illegal read returns 0. -/
def act (a : HostAction) (s : State) : State :=
  match a with
  | .read number index =>
    match hostRead s number index with
    | some v => s.answer v
    | none => (s.record .badAccess (accessInfo number index)).answer 0#32
  | .write number index v =>
    match hostWrite s number index v with
    | some t => t
    | none => s.record .badAccess (accessInfo number index)
  | .hardReset => s.hardReset

/-- The actions that take effect while a command is pending: a read of `STATUS` (R53) and a hardware reset (R190). -/
def completesWhileBusy : HostAction → Bool
  | .read number index => number == 0#4 && index == 1#28
  | .write _ _ _ => false
  | .hardReset => true

/-- With a command pending, whether the next thing to happen is an action of the host: R53, R190 (log 1). -/
def State.hostGoesFirst (s : State) : Bool :=
  match s.hostIn with
  | [] => false
  | ev :: _ => ev.early && completesWhileBusy ev.action

/-- The next action of the host's stream takes effect. With none left the block stays as it is: idle, it has no step of
its own (10_state.md R22, 70_reset_and_hazards.md R190; log 2). -/
def hostStep (s : State) : State :=
  match s.hostIn with
  | [] => s
  | ev :: rest => act ev.action { s with hostIn := rest }

/-- The host's next action waits until the pending command is complete. -/
def holdNext : List HostEvent → List HostEvent
  | [] => []
  | ev :: rest => { ev with early := false } :: rest

end Sys2Proof.Machine
end

