-- ==== Sys2Proof/Machine/Step.lean ====
section
/-! DEFINITION. One step of the block and its outside world (45_control.md R137, R138, 20_memory.md R53). -/

namespace Sys2Proof.Machine

/-- The core's only step: executes the pending word (R138). -/
def coreStep (s : State) : Host.Outcome State Fault Refusal :=
  match decode s.pending with
  | .ok i => exec i s
  | .error _ => execIllegal s.pending s

/-- One step. With a command pending the core executes it, unless the host's next action is one that takes effect
before; otherwise the host's next action takes effect. -/
def step (s : State) : Host.Outcome State Fault Refusal :=
  if s.busy && !s.hostGoesFirst then coreStep s else .next (hostStep s)

/-- The state in which the command word `w` has been accepted and is what the next step executes. The block fetches
nothing (10_state.md R22): a command comes from a `CMD` write (R137), which this stands for, and a host action that
would come before the core's step is made to wait (log 11). -/
def State.withFetchWord (s : State) (nbits w : Nat) : State :=
  { acceptCommand s (BitVec.ofNat 32 (w % 2 ^ nbits)) with hostIn := holdNext s.hostIn }

end Sys2Proof.Machine
end

