-- ==== Sys2Proof/Safety.lean ====
section
/-! DEFINITION. The terms claims are made in: the invariant of every state (10_state.md R36 and the legal values of
R23), the artifact as a function of a bit string (30_encoding.md R79, R80), the laws' own notions (46_laws.md), and
sequences of commands. Nothing here is used by the machine. -/

namespace Sys2Proof.Machine

/-! ### States and runs of commands -/

/-- A quiet state: 46_laws.md, introduction. -/
def State.quiet (s : State) : Prop := s.busy = false ∧ s.errCode = none

/-- `CMD X`: the host writes X's word to `CMD` and the core completes it (46_laws.md, introduction). -/
def issue (i : Instr) (s : State) : Host.Outcome State Fault Refusal := coreStep (acceptCommand s (encode i))

/-- Consecutive commands with no other host access in between. -/
def issueAll : List Instr → State → Host.Outcome State Fault Refusal
  | [], s => .next s
  | i :: rest, s =>
    match issue i s with
    | .next t => issueAll rest t
    | .fault r => .fault r
    | .refused r => .refused r

/-- The meanings of commands one after the other, without the acceptance of R137 in between. -/
def execAll : List Instr → State → Host.Outcome State Fault Refusal
  | [], s => .next s
  | i :: rest, s =>
    match exec i s with
    | .next t => execAll rest t
    | .fault r => .fault r
    | .refused r => .refused r

/-! ### The tree: R36 -/

/-- The symbols with a non-zero count, in ascending value: the keys of the FrequencyTable (R34). -/
def State.present (s : State) : List Byte := symbols.filter (fun x => s.freqAt x != 0#24)

/-- The `left` and `right` handles of the internal records of a tree with `n` leaves. -/
def State.childHandles (s : State) (n : Nat) : List Nat :=
  ((List.range (2 * n - 1)).drop n).flatMap (fun k => [(s.nodeAt k).left.toNat, (s.nodeAt k).right.toNat])

/-- Case (b) of the tree invariant, for a tree with `n` leaves: R36. -/
structure TreeShape (s : State) (n : Nat) : Prop where
  pos : 1 ≤ n
  le : n ≤ 256
  nNodes : s.nNodes.toNat = 2 * n - 1
  root : s.root.toNat = 2 * n - 2
  leaves : ∀ k, k < n → (s.nodeAt k).leaf = true ∧ (s.nodeAt k).left = nilHandle ∧
    (s.nodeAt k).right = nilHandle ∧ 1 ≤ (s.nodeAt k).freq.toNat
  ascending : ∀ j k, j < k → k < n → (s.nodeAt j).sym.toNat < (s.nodeAt k).sym.toNat
  inner : ∀ k, n ≤ k → k < 2 * n - 1 → (s.nodeAt k).leaf = false ∧ (s.nodeAt k).sym = 0#8 ∧
    (s.nodeAt k).left.toNat < k ∧ (s.nodeAt k).right.toNat < k ∧ (s.nodeAt k).left ≠ (s.nodeAt k).right ∧
    (s.nodeAt k).freq.toNat =
      (s.nodeAt (s.nodeAt k).left.toNat).freq.toNat + (s.nodeAt (s.nodeAt k).right.toNat).freq.toNat
  oneParent : ∀ h, h < 2 * n - 2 → (s.childHandles n).count h = 1
  rootNoChild : (s.childHandles n).count (2 * n - 2) = 0

/-- `TreeOK`: no tree, or a tree of some number of leaves (R36). -/
def TreeOK (s : State) : Prop := (s.nNodes = 0#32 ∧ s.root = nilHandle) ∨ ∃ n, TreeShape s n

/-- The node reached from `k` along the edges `p`, 0 for `left` and 1 for `right`: 42_code_assigner.md R109. -/
def descend (s : State) : Handle → List Bool → Handle
  | k, [] => k
  | k, b :: p => descend s (if b then (s.nodeAt k.toNat).right else (s.nodeAt k.toNat).left) p

/-! ### The invariant -/

/-- What holds of the state at every moment: the parameter's constraint (R6), the legal values of the registers (R23),
the error registers (R26), the unreachable fault (R160), the tree (R36), and the canonical form of every memory. -/
structure Inv (s : State) : Prop where
  cfg : s.cfg.wf = true
  inLen : s.inLen.toNat ≤ s.cfg.inCapacity
  encLen : s.encLen.toNat ≤ s.cfg.encCapacity
  pkLen : s.pkLen.toNat ≤ s.cfg.pkCapacity
  decLen : s.decLen.toNat ≤ s.cfg.decCapacity
  errInfo : s.errCode = none → s.errInfo = 0#32
  padding : s.errCode ≠ some .invalidPadding
  tree : TreeOK s
  inMem : s.inMem.wf s.cfg.inCapacity = true
  node : s.node.wf 511 = true
  codeBits : s.codeBits.wf 2048 = true
  enc : s.enc.wf s.cfg.encCapacity = true
  pk : s.pk.wf s.cfg.pkCapacity = true
  dec : s.dec.wf s.cfg.decCapacity = true

/-! ### The artifact: R79, R80 -/

/-- `Padded(e)`: R79. -/
def padded (e : List Bool) : List Bool :=
  bits8 (BitVec.ofNat 8 (extraBits e.length)) ++ e ++ List.replicate (extraBits e.length) false

/-- `Packed(e)`: byte `j` is `Byte8(Padded(e)[8j..8j+8))`, R80. -/
def packed (e : List Bool) : List Byte :=
  (List.range ((padded e).length / 8)).map (fun j => byte8 (((padded e).drop (8 * j)).take 8))

/-! ### The code table -/

/-- The symbol has a code: R37. -/
def State.hasCode (s : State) (x : Byte) : Prop := s.codeLenAt x ≠ 0#8

/-- No code is a prefix of another symbol's: 46_laws.md R151. -/
def PrefixFree (s : State) : Prop := ∀ a b, a ≠ b → s.hasCode a → s.hasCode b → ¬ s.code a <+: s.code b

/-- `sum of FREQ[x] * len(x)` over all symbols: 46_laws.md R152. -/
def State.weightedLength (s : State) (len : Byte → Nat) : Nat :=
  (symbols.map (fun x => (s.freqAt x).toNat * len x)).sum

/-- The scan of 44_decoder.md R129 as a function of the bit string alone: the symbols emitted and the candidate left
over, starting from the candidate `cand`. -/
def scan (lookup : List Bool → Option Byte) : (cand : List Bool) → List Bool → List Byte × List Bool
  | cand, [] => ([], cand)
  | cand, b :: rest =>
    match lookup (cand ++ [b]) with
    | some x => (x :: (scan lookup [] rest).1, (scan lookup [] rest).2)
    | none => scan lookup (cand ++ [b]) rest

/-- The payload bits of the packed byte sequence, most significant bit first: everything after the header byte
(30_encoding.md R82 (e)). -/
def State.payload (s : State) : List Bool := (s.packedBytes.drop 1).flatMap bits8

/-- The reference distribution A5 B9 C12 D13 E16 F45, all other counts 0: R152. -/
def referenceCounts : Vector Count 256 :=
  [(0x41#8, 5#24), (0x42#8, 9#24), (0x43#8, 12#24), (0x44#8, 13#24), (0x45#8, 16#24), (0x46#8, 45#24)].foldl
    (fun freq row => freq.set row.1.toNat row.2 row.1.isLt) (Vector.replicate 256 0#24)

/-! ### What the source alone guarantees of the Tree Builder: 46_laws.md R161 -/

/-- An execution of the merge loop of 41_tree_builder.md R95 in which each `PopMin` returns any element of minimal
frequency: from queue `q`, next handle `m` and state `s` to the ones where it ends. -/
inductive SourceMerge : List Nat → Nat → State → List Nat → Nat → State → Prop where
  | stop (q : List Nat) (m : Nat) (s : State) : q.length ≤ 1 → SourceMerge q m s q m s
  | merge (q : List Nat) (m : Nat) (s : State) (a b : Nat) (q' : List Nat) (m' : Nat) (s' : State) :
      a ∈ q → (∀ k ∈ q, (s.nodeAt a).freq.toNat ≤ (s.nodeAt k).freq.toNat) →
      b ∈ q.erase a → (∀ k ∈ q.erase a, (s.nodeAt b).freq.toNat ≤ (s.nodeAt k).freq.toNat) →
      SourceMerge ((q.erase a).erase b ++ [m]) (m + 1) (s.putNode m (innerNode s a b)) q' m' s' →
      SourceMerge q m s q' m' s'

/-! ### Illegal host accesses: the list of 20_memory.md R52 -/

/-- How many indices the space with this number accepts: the table of R50. -/
def legalIndexCount (cfg : Config) (space : Nat) : Nat :=
  if space = 0 then 11
  else if space = 1 ∨ space = 8 ∨ space = 10 then cfg.inCap.toNat
  else if space = 2 ∨ space = 6 then 256
  else if space = 3 ∨ space = 4 ∨ space = 5 then 511
  else if space = 7 then 2048
  else if space = 9 then cfg.inCap.toNat + 2
  else 0

/-- R52 (a) and (b): the space does not exist or the index is out of its range. -/
def illegalTarget (cfg : Config) (space index : Nat) : Prop := 10 < space ∨ legalIndexCount cfg space ≤ index

/-- R52 (c): the location is read-only. -/
def readOnly (space index : Nat) : Prop :=
  (space = 0 ∧ (index = 1 ∨ index = 2 ∨ index = 3 ∨ index = 5 ∨ index = 6 ∨ index = 9 ∨ index = 10)) ∨
  space = 3 ∨ space = 4 ∨ space = 5 ∨ space = 10

/-- R52 (d): the value is outside the location's legal range. -/
def illegalValue (cfg : Config) (space index value : Nat) : Prop :=
  (space = 0 ∧ index = 4 ∧ cfg.inCap.toNat < value) ∨
  (space = 0 ∧ index = 7 ∧ 8 * cfg.inCap.toNat < value) ∨
  (space = 0 ∧ index = 8 ∧ cfg.inCap.toNat + 2 < value) ∨
  (space = 2 ∧ 2 ^ 24 - 1 < value)

end Sys2Proof.Machine
end

