-- ==== Sys2Proof/Certificates/Slice0/Obligations.lean ====
section
/-! DEFINITION. The statements for the provers, in the order of OBLIGATIONS.json. Each docstring names the rule of spec/
it formalises; a statement that rests on a choice of the model's names its log entry. -/

open Sys2Proof Sys2Proof.Machine

/-! ### Command words -/

/-- 30_encoding.md R72: the twelve legal command words. -/
def Obligations.CommandWordsDecode : Prop :=
  decode 0x00000000#32 = .ok .nop ∧ decode 0x00000001#32 = .ok .analyze ∧ decode 0x00000002#32 = .ok .build ∧
  decode 0x00000003#32 = .ok .assign ∧ decode 0x00000004#32 = .ok .encode ∧ decode 0x00000005#32 = .ok .pack ∧
  decode 0x00000006#32 = .ok .unpack ∧ decode 0x00000007#32 = .ok .decode ∧ decode 0x00000008#32 = .ok .compress ∧
  decode 0x00000009#32 = .ok .expand ∧ decode 0x0000000E#32 = .ok .clrerr ∧ decode 0x0000000F#32 = .ok .reset

/-- 30_encoding.md R71 to R73: a word decodes to a command exactly when it is that command's encoding, and is rejected
exactly when it is one of the reserved values of R73. -/
def Obligations.DecodeAcceptsExactlyTheEncodings : Prop :=
  (∀ (w : Word) (i : Instr), decode w = .ok i ↔ w = encode i) ∧
  (∀ w : Word, (∃ r, decode w = .error r) ↔
    (0x0A ≤ w.toNat ∧ w.toNat ≤ 0x0D) ∨ (0x10 ≤ w.toNat ∧ w.toNat ≤ 0xFF) ∨ w.toNat / 256 ≠ 0)

/-! ### Steps -/

/-- 45_control.md R138: with a command pending and no host action that comes first, a step is the meaning of the decoded
command. With none pending and nothing for the outside world to do, the block stays as it is (the model's reading of
"the core has no step", log 2). -/
def Obligations.StepRunsPendingCommand : Prop :=
  (∀ (s : State) (i : Instr), s.busy = true → s.hostGoesFirst = false → decode s.pending = .ok i →
    step s = exec i s) ∧
  (∀ s : State, s.busy = false → s.hostIn = [] → step s = .next s)

/-- 45_control.md R146: an illegal word. -/
def Obligations.IllegalWordRecordsBadCommand : Prop :=
  ∀ (s : State) (r : Illegal), s.busy = true → s.hostGoesFirst = false → decode s.pending = .error r →
    (s.errCode = none →
      step s = .next { s with errCode := some .badCommand, errInfo := s.pending, busy := false }) ∧
    (s.errCode ≠ none → step s = .next { s with busy := false })

/-- 45_control.md R137: acceptance of any word, in any fault state, and the holding of a further `CMD` write. -/
def Obligations.CommandAcceptance : Prop :=
  ∀ (s : State) (early : Bool) (w : Word) (rest : List HostEvent),
    s.hostIn = ⟨early, .write 0#4 0#28 w⟩ :: rest →
    (s.busy = false → step s = .next { s with pending := w, busy := true, hostIn := rest }) ∧
    (s.busy = true → step s = coreStep s ∧ ∀ t, step s = .next t → t.hostIn = s.hostIn)

/-- 20_memory.md R53: while a command is pending a `STATUS` read that arrives before its completion returns the current
`STATUS`, with `BUSY` = 1, and every other access is held. That the stream says which comes first is the model's choice
(log 1). -/
def Obligations.PendingCommandHoldsAccesses : Prop :=
  ∀ (s : State) (early : Bool) (a : HostAction) (rest : List HostEvent), s.busy = true →
    s.hostIn = ⟨early, a⟩ :: rest →
    (a = .read 0#4 1#28 → early = true →
      step s = .next { s with hostIn := rest, hostOut := s.statusWord :: s.hostOut } ∧
        s.statusWord.getLsbD 0 = true) ∧
    (a ≠ .read 0#4 1#28 → a ≠ .hardReset → step s = coreStep s ∧
      ∀ t, step s = .next t → t.busy = false ∧ t.hostIn = s.hostIn ∧ t.hostOut = s.hostOut)

/-- 70_reset_and_hazards.md R199, R190: after a bounded number of steps, at most one for each action of the host's stream
(the model's own, log 1), in which only that stream moves on, a pending command is executed, or abandoned by a hardware
reset that lands before. Either way `BUSY` is 0 again. -/
def Obligations.PendingCommandEndsInBoundedSteps : Prop :=
  ∀ s : State, Inv s → s.busy = true →
    ∃ (n : Nat) (u t : State), n ≤ s.hostIn.length ∧ Host.Core.run Sys2Proof.core n s = .next u ∧
      u = { s with hostIn := u.hostIn, hostOut := u.hostOut } ∧ step u = .next t ∧ t.busy = false ∧
      ((u.hostGoesFirst = false ∧ coreStep u = .next t) ∨ ∃ rest, u.hostIn = ⟨true, .hardReset⟩ :: rest)

/-! ### Status and faults -/

/-- 10_state.md R25, R26, 60_exceptions.md R170: the bits of `STATUS`, the value `ERR_CODE` shows for each fault, and who
writes the stored bits of `STATUS`. -/
def Obligations.StatusBitsAndWriters : Prop :=
  (∀ s : State, s.statusWord.getLsbD 0 = s.busy ∧ (s.statusWord.getLsbD 1 = true ↔ s.errCodeWord ≠ 0#32) ∧
    s.statusWord.getLsbD 2 = s.empty ∧ ∀ i, 3 ≤ i → s.statusWord.getLsbD i = false) ∧
  (∀ s : State, (s.errCode = none → s.errCodeWord = 0#32) ∧ (s.errCode = some .invalidPadding → s.errCodeWord = 1#32) ∧
    (s.errCode = some .truncatedStream → s.errCodeWord = 2#32) ∧
    (s.errCode = some .badHeader → s.errCodeWord = 3#32) ∧ (s.errCode = some .capacity → s.errCodeWord = 4#32) ∧
    (s.errCode = some .noCode → s.errCodeWord = 5#32) ∧ (s.errCode = some .badCommand → s.errCodeWord = 6#32) ∧
    (s.errCode = some .badAccess → s.errCodeWord = 7#32)) ∧
  (∀ (i : Instr) (s t : State), exec i s = .next t →
    t.busy = false ∧
    (i ≠ .compress → i ≠ .reset → t.empty = s.empty) ∧
    (i = .compress → s.errCode = none → (t.empty = true ↔ s.inLen = 0#32)) ∧
    (i = .reset → t.empty = false))

/-- 45_control.md R138 (3): while a fault is recorded every command but `CLRERR` and `RESET` is refused. -/
def Obligations.RecordedFaultRefusesCommands : Prop :=
  ∀ (i : Instr) (s : State), s.errCode ≠ none → i ≠ .clrerr → i ≠ .reset → exec i s = .next { s with busy := false }

/-- 60_exceptions.md R171: what a `raise` does, alone and inside a composite command. -/
def Obligations.RaiseRecordsAndEnds : Prop :=
  ∀ (e : ErrorCode) (info : Nat) (s : State),
    (s.errCode = none → (raise e info s).finish =
      .next { s with errCode := some e, errInfo := BitVec.ofNat 32 info, busy := false }) ∧
    (s.errCode ≠ none → (raise e info s).finish = .next { s with busy := false }) ∧
    (∀ f : State → Stage, (raise e info s).andThen f = raise e info s)

/-- 60_exceptions.md R172: the first fault wins and stays until `CLRERR`, `RESET` or a hardware reset, each as what this step does. -/
def Obligations.FirstFaultStays : Prop :=
  ∀ s t : State, s.errCode ≠ none → step s = .next t →
    (t.errCode = s.errCode ∧ t.errInfo = s.errInfo) ∨
    (t.errCode = none ∧ t.errInfo = 0#32 ∧
      ((s.busy = true ∧ s.hostGoesFirst = false ∧ (s.pending = encode .clrerr ∨ s.pending = encode .reset)) ∨
       ∃ early rest, s.hostIn = ⟨early, .hardReset⟩ :: rest ∧ (s.busy = false ∨ early = true)))

/-- 46_laws.md R160: no step records `INVALID_PADDING`. -/
def Obligations.InvalidPaddingNeverRecorded : Prop :=
  ∀ s t : State, s.errCode ≠ some .invalidPadding → step s = .next t → t.errCode ≠ some .invalidPadding

/-! ### Control commands and reset -/

/-- 45_control.md R139. -/
def Obligations.NopChangesNothing : Prop := ∀ s : State, exec .nop s = .next { s with busy := false }

/-- 45_control.md R144. -/
def Obligations.ClrerrClearsOnlyTheFault : Prop :=
  ∀ s : State, ∃ t, exec .clrerr s = .next t ∧ t = { s with errCode := none, errInfo := 0#32, busy := false } ∧
    t.errFlag = false

/-- 45_control.md R145 with 10_state.md R43: every register, `PENDING` among them, gets its reset value. -/
def Obligations.ResetCommandRestoresRegisters : Prop :=
  ∀ s : State, ∃ t, exec .reset s = .next t ∧
    t = { s with
      busy := false, empty := false, pending := 0#32, errCode := none, errInfo := 0#32, inLen := 0#32,
      nNodes := 0#32, root := 511#9, encLen := 0#32, pkLen := 0#32, decLen := 0#32, freq := t.freq, codeLen := t.codeLen } ∧
    ∀ x, t.freqAt x = 0#24 ∧ t.codeLenAt x = 0#8

/-- 70_reset_and_hazards.md R190 and 10_state.md R43: a hardware reset, also with a command pending. The unspecified
contents are free values (log 4). -/
def Obligations.HardwareResetState : Prop :=
  ∀ (s : State) (early : Bool) (rest : List HostEvent), s.hostIn = ⟨early, .hardReset⟩ :: rest →
    (s.busy = true → early = true) →
    ∃ t, step s = .next t ∧ t.hostIn = rest ∧ t.hostOut = s.hostOut ∧ t.cfg = s.cfg ∧ t.statusWord = 0#32 ∧
      t.pending = 0#32 ∧ t.errCode = none ∧ t.errInfo = 0#32 ∧ t.inLen = 0#32 ∧ t.nNodes = 0#32 ∧ t.root = 511#9 ∧
      t.encLen = 0#32 ∧ t.pkLen = 0#32 ∧ t.decLen = 0#32 ∧ (∀ x, t.freqAt x = 0#24 ∧ t.codeLenAt x = 0#8) ∧
      (∀ i, t.inAt i = Config.freeByte (s.epoch + 1) .inp i) ∧ (∀ i, t.pkAt i = Config.freeByte (s.epoch + 1) .pk i) ∧
      (∀ i, t.decAt i = Config.freeByte (s.epoch + 1) .dec i) ∧ (∀ p, t.encAt p = Config.freeBit (s.epoch + 1) p) ∧
      (∀ k, t.nodeAt k = Config.freeNode (s.epoch + 1) k) ∧ (∀ i, t.codeWordAt i = Config.freeWord (s.epoch + 1) i)

/-! ### ANALYZE -/

/-- 40_frequency_analyzer.md R90, R91: after `ANALYZE` each count is the number of occurrences, the counts sum to the
input length, the keys are the symbols present, and nothing else changes. -/
def Obligations.AnalyzeCountsInput : Prop :=
  ∀ s : State, s.errCode = none → s.inLen.toNat ≤ s.cfg.inCapacity →
    ∃ t, exec .analyze s = .next t ∧ t = { s with freq := t.freq, busy := false } ∧
      (∀ x, (t.freqAt x).toNat = s.input.count x) ∧
      (symbols.map (fun x => (t.freqAt x).toNat)).sum = s.inLen.toNat ∧
      (∀ x, t.freqAt x ≠ 0#24 ↔ x ∈ s.input)

/-! ### BUILD -/

/-- 41_tree_builder.md R95, R100: the leaves are the symbols present in ascending value, the tree invariant holds, the
root's frequency is the sum of the counts, records beyond the tree keep their contents, and nothing but `NODE`,
`N_NODES` and `ROOT` changes. -/
def Obligations.BuildMakesTree : Prop :=
  ∀ s : State, s.errCode = none → s.present ≠ [] →
    ∃ t, exec .build s = .next t ∧
      t = { s with node := t.node, nNodes := t.nNodes, root := t.root, busy := false } ∧
      TreeShape t s.present.length ∧
      (∀ k (h : k < s.present.length), t.nodeAt k =
        { leaf := true, sym := s.present[k], freq := (s.freqAt s.present[k]).setWidth 32, left := 511#9,
          right := 511#9 }) ∧
      (t.nodeAt t.root.toNat).freq.toNat = (symbols.map (fun x => (s.freqAt x).toNat)).sum ∧
      (∀ k, 2 * s.present.length - 1 ≤ k → t.nodeAt k = s.nodeAt k)

/-- 41_tree_builder.md R96: `PopMin` takes out the handle with the smallest pair of frequency and handle. -/
def Obligations.PopMinPicksLeastPair : Prop :=
  ∀ (s : State) (q : List Nat),
    (popMin s q = none ↔ q = []) ∧
    ∀ k q', popMin s q = some (k, q') → k ∈ q ∧ q' = q.erase k ∧
      ∀ j ∈ q, (s.nodeAt k).freq.toNat < (s.nodeAt j).freq.toNat ∨
        ((s.nodeAt k).freq.toNat = (s.nodeAt j).freq.toNat ∧ k ≤ j)

/-- 46_laws.md R161: the merge loop is an execution of the source's algorithm, with some element of minimal frequency
popped each time, and runs until at most one node remains. -/
def Obligations.BuildRefinesSourceAlgorithm : Prop :=
  ∀ (fuel : Nat) (q : List Nat) (m : Nat) (s : State), q.length ≤ fuel →
    SourceMerge q m s (mergeLoop fuel q m s).1 (mergeLoop fuel q m s).2.1 (mergeLoop fuel q m s).2.2 ∧
    (mergeLoop fuel q m s).1.length ≤ 1

/-- 41_tree_builder.md R97: the first popped node is the left child, the second the right child; hence the order of the
children's frequencies, and of their handles when these are equal. -/
def Obligations.BuildOrdersChildren : Prop :=
  (∀ (fuel : Nat) (q : List Nat) (m : Nat) (s : State) (a b : Nat) (q1 q2 : List Nat), 1 < q.length →
    popMin s q = some (a, q1) → popMin s q1 = some (b, q2) →
    ∃ n : Node, n.left = BitVec.ofNat 9 a ∧ n.right = BitVec.ofNat 9 b ∧
      mergeLoop (fuel + 1) q m s = mergeLoop fuel (q2 ++ [m]) (m + 1) (s.putNode m n)) ∧
  (∀ s : State, s.errCode = none → s.present ≠ [] →
    ∃ t, exec .build s = .next t ∧
      ∀ k, s.present.length ≤ k → k < 2 * s.present.length - 1 →
        (t.nodeAt (t.nodeAt k).left.toNat).freq.toNat ≤ (t.nodeAt (t.nodeAt k).right.toNat).freq.toNat ∧
        ((t.nodeAt (t.nodeAt k).left.toNat).freq = (t.nodeAt (t.nodeAt k).right.toNat).freq →
          (t.nodeAt k).left.toNat < (t.nodeAt k).right.toNat))

/-- 41_tree_builder.md R99: `BUILD` of an empty table. -/
def Obligations.BuildOfEmptyTable : Prop :=
  ∀ s : State, s.errCode = none → (∀ x, s.freqAt x = 0#24) →
    exec .build s = .next { s with nNodes := 0#32, root := 511#9, busy := false }

/-! ### ASSIGN -/

/-- 42_code_assigner.md R108: `ASSIGN` with no tree. -/
def Obligations.AssignWithoutTree : Prop :=
  ∀ s : State, s.errCode = none → s.root = 511#9 →
    ∃ t, exec .assign s = .next t ∧ t = { s with codeLen := t.codeLen, codeBits := t.codeBits, busy := false } ∧
      ∀ x, t.codeLenAt x = 0#8 ∧ ∀ k, k < 256 → t.codeBitAt x k = false

/-- 42_code_assigner.md R106: a root that is a leaf gets exactly the code "0". -/
def Obligations.AssignLoneLeaf : Prop :=
  ∀ s : State, s.errCode = none → s.root ≠ 511#9 → (s.nodeAt s.root.toNat).leaf = true →
    ∃ t, exec .assign s = .next t ∧ t = { s with codeLen := t.codeLen, codeBits := t.codeBits, busy := false } ∧
      t.codeLenAt (s.nodeAt s.root.toNat).sym = 1#8 ∧ t.code (s.nodeAt s.root.toNat).sym = [false] ∧
      ∀ y, y ≠ (s.nodeAt s.root.toNat).sym → t.codeLenAt y = 0#8

/-- 42_code_assigner.md R105: on a tree of two leaves or more every leaf's code is the path from the root to it through
internal records, 0 for left and 1 for right; every other symbol has no code, every position from the code's length on
is 0, and nothing but the code table changes. -/
def Obligations.AssignWritesPaths : Prop :=
  ∀ (s : State) (n : Nat), s.errCode = none → TreeShape s n → 2 ≤ n →
    ∃ t, exec .assign s = .next t ∧ t = { s with codeLen := t.codeLen, codeBits := t.codeBits, busy := false } ∧
      (∀ k, k < n → t.hasCode (s.nodeAt k).sym ∧
        (descend s s.root (t.code (s.nodeAt k).sym)).toNat = k ∧
        (∀ p b r, t.code (s.nodeAt k).sym = p ++ b :: r → (s.nodeAt (descend s s.root p).toNat).leaf = false)) ∧
      (∀ y, (∀ k, k < n → (s.nodeAt k).sym ≠ y) → t.codeLenAt y = 0#8) ∧
      (∀ y k, (t.codeLenAt y).toNat ≤ k → k < 256 → t.codeBitAt y k = false)

/-- 46_laws.md R151: after `ASSIGN` or `COMPRESS` from a quiet state no code is a prefix of another symbol's. The tree
invariant (10_state.md R36) holds of every reachable state. -/
def Obligations.AssignedCodesPrefixFree : Prop :=
  ∀ (s : State) (i : Instr), s.quiet → TreeOK s → i = .assign ∨ i = .compress →
    ∃ t, exec i s = .next t ∧ PrefixFree t

/-- 46_laws.md R158: code length bounds. -/
def Obligations.AssignedCodeLengthsBounded : Prop :=
  ∀ (s : State) (n : Nat), s.errCode = none → TreeShape s n →
    ∃ t, exec .assign s = .next t ∧ ∀ x, t.hasCode x →
      1 ≤ (t.codeLenAt x).toNat ∧ (t.codeLenAt x).toNat ≤ max 1 (n - 1) ∧ max 1 (n - 1) ≤ 255

/-- 46_laws.md R157: the code is complete. The sum is over symbols with a code, scaled by 2^255. -/
def Obligations.AssignedCodeComplete : Prop :=
  ∀ (s : State) (n : Nat), s.errCode = none → TreeShape s n → 2 ≤ n →
    ∃ t, exec .assign s = .next t ∧
      (symbols.map (fun x => if t.codeLenAt x = 0#8 then 0 else 2 ^ (255 - (t.codeLenAt x).toNat))).sum = 2 ^ 255

/-- 46_laws.md R152: after `BUILD; ASSIGN` the weighted code length is minimal over the prefix-free assignments of
non-empty strings to the symbols present; with one symbol it is that symbol's count; for the reference distribution it
is 224. -/
def Obligations.HuffmanCodeIsOptimal : Prop :=
  (∀ s : State, s.quiet → s.present ≠ [] →
    ∃ t, issueAll [.build, .assign] s = .next t ∧ t.errCode = none ∧
      ∀ c : Byte → List Bool, (∀ x ∈ s.present, c x ≠ []) →
        (∀ x ∈ s.present, ∀ y ∈ s.present, x ≠ y → ¬ c x <+: c y) →
        s.weightedLength (fun x => (t.codeLenAt x).toNat) ≤ s.weightedLength (fun x => (c x).length)) ∧
  (∀ (s : State) (x : Byte), s.quiet → s.present = [x] →
    ∃ t, issueAll [.build, .assign] s = .next t ∧
      s.weightedLength (fun y => (t.codeLenAt y).toNat) = (s.freqAt x).toNat) ∧
  (∃ t, issueAll [.build, .assign] { State.reset with freq := referenceCounts } = .next t ∧
    t.weightedLength (fun x => (t.codeLenAt x).toNat) = 224)

/-! ### ENCODE -/

/-- 43_bit_packer.md R113: the concatenation of the codes, in input order. -/
def Obligations.EncodeConcatenatesCodes : Prop :=
  ∀ s : State, s.errCode = none → (∀ x ∈ s.input, s.hasCode x) →
    (s.input.flatMap s.code).length ≤ s.cfg.encCapacity →
    ∃ t, exec .encode s = .next t ∧ t = { s with enc := t.enc, encLen := t.encLen, busy := false } ∧
      t.encoded = s.input.flatMap s.code ∧ t.encLen.toNat = (s.input.map (fun x => (s.codeLenAt x).toNat)).sum ∧
      ∀ p, t.encLen.toNat ≤ p → t.encAt p = s.encAt p

/-- 43_bit_packer.md R114, R122: the first input symbol without a code stops `ENCODE` with `NO_CODE` and its index. -/
def Obligations.EncodeStopsAtMissingCode : Prop :=
  ∀ (s : State) (i : Nat), s.errCode = none → i < s.inLen.toNat → (∀ j, j < i → s.hasCode (s.inAt j)) →
    ¬ s.hasCode (s.inAt i) → ((s.input.take i).flatMap s.code).length ≤ s.cfg.encCapacity →
    ∃ t, exec .encode s = .next t ∧
      t = { s with enc := t.enc, encLen := t.encLen, errCode := some .noCode, errInfo := BitVec.ofNat 32 i,
                   busy := false } ∧
      t.encoded = (s.input.take i).flatMap s.code ∧ ∀ p, t.encLen.toNat ≤ p → t.encAt p = s.encAt p

/-- 43_bit_packer.md R115, R122: the first code that would pass `ENC_CAP` stops `ENCODE` with `CAPACITY`, before any bit
of it is written. -/
def Obligations.EncodeStopsAtCapacity : Prop :=
  ∀ (s : State) (i : Nat), s.errCode = none → i < s.inLen.toNat → (∀ j, j ≤ i → s.hasCode (s.inAt j)) →
    ((s.input.take i).flatMap s.code).length ≤ s.cfg.encCapacity →
    s.cfg.encCapacity < ((s.input.take (i + 1)).flatMap s.code).length →
    ∃ t, exec .encode s = .next t ∧
      t = { s with enc := t.enc, encLen := t.encLen, errCode := some .capacity, errInfo := BitVec.ofNat 32 i,
                   busy := false } ∧
      t.encoded = (s.input.take i).flatMap s.code ∧ ∀ p, t.encLen.toNat ≤ p → t.encAt p = s.encAt p

/-! ### PACK -/

/-- 43_bit_packer.md R117: `PK[0..PK_LEN) <- Packed(e)`, and nothing else changes. -/
def Obligations.PackProducesArtifact : Prop :=
  ∀ s : State, s.errCode = none → s.encLen.toNat ≤ s.cfg.encCapacity →
    ∃ t, exec .pack s = .next t ∧ t = { s with pk := t.pk, pkLen := t.pkLen, busy := false } ∧
      t.packedBytes = packed s.encoded ∧ (padded s.encoded).length % 8 = 0 ∧
      ∀ i, t.pkLen.toNat ≤ i → t.pkAt i = s.pkAt i

/-- 43_bit_packer.md R118: the padding count is never 0, and an aligned string gets a whole zero byte; the last `extra`
bits are zero and the byte count is that of 46_laws.md R153. -/
def Obligations.PackAlwaysPads : Prop :=
  ∀ s : State, s.errCode = none → s.encLen.toNat ≤ s.cfg.encCapacity →
    ∃ t, exec .pack s = .next t ∧
      1 ≤ (t.pkAt 0).toNat ∧ (t.pkAt 0).toNat ≤ 8 ∧ (t.pkAt 0).toNat = 8 - s.encLen.toNat % 8 ∧
      t.pkLen.toNat = (8 + s.encLen.toNat + (t.pkAt 0).toNat) / 8 ∧ t.pkLen.toNat = s.encLen.toNat / 8 + 2 ∧
      (∀ j, j < (t.pkAt 0).toNat → (t.pkAt (t.pkLen.toNat - 1)).getLsbD j = false) ∧
      (s.encLen.toNat % 8 = 0 → t.pkAt 0 = 8#8 ∧ t.pkAt (t.pkLen.toNat - 1) = 0#8) ∧
      (s.encLen = 8#32 → t.packedBytes = [0x08#8, byte8 s.encoded, 0x00#8])

/-- 43_bit_packer.md R121: zero bits pack to 0x08 0x00, and `UNPACK` of that gives back the empty string. -/
def Obligations.PackOfZeroBits : Prop :=
  ∀ s : State, s.quiet → s.encLen = 0#32 →
    ∃ t, exec .pack s = .next t ∧ t = { s with pk := t.pk, pkLen := 2#32 } ∧ t.packedBytes = [0x08#8, 0x00#8] ∧
      exec .unpack t = .next t

/-! ### UNPACK -/

/-- 44_decoder.md R125: header and padding are stripped, and nothing but `ENC` and `ENC_LEN` changes; `UNPACK` of
`Packed(e)` yields `e`. -/
def Obligations.UnpackRecoversBits : Prop :=
  (∀ s : State, s.errCode = none → 1 ≤ s.pkLen.toNat → 1 ≤ (s.pkAt 0).toNat → (s.pkAt 0).toNat ≤ 8 →
    (s.pkAt 0).toNat ≤ 8 * (s.pkLen.toNat - 1) → 8 * (s.pkLen.toNat - 1) - (s.pkAt 0).toNat ≤ s.cfg.encCapacity →
    ∃ t, exec .unpack s = .next t ∧ t = { s with enc := t.enc, encLen := t.encLen, busy := false } ∧
      t.encLen.toNat = 8 * (s.pkLen.toNat - 1) - (s.pkAt 0).toNat ∧
      t.encoded = s.payload.take (8 * (s.pkLen.toNat - 1) - (s.pkAt 0).toNat) ∧
      ∀ p, t.encLen.toNat ≤ p → t.encAt p = s.encAt p) ∧
  (∀ (s : State) (e : List Bool), s.errCode = none → s.packedBytes = packed e → e.length ≤ s.cfg.encCapacity →
    ∃ t, exec .unpack s = .next t ∧ t.errCode = none ∧ t.encLen.toNat = e.length ∧ t.encoded = e)

/-- 44_decoder.md R126: `BAD_HEADER`, with nothing written. -/
def Obligations.UnpackRejectsBadHeader : Prop :=
  ∀ s : State, s.errCode = none → 1 ≤ s.pkLen.toNat →
    ((s.pkAt 0).toNat = 0 ∨ 9 ≤ (s.pkAt 0).toNat ∨ s.pkLen.toNat = 1) →
    exec .unpack s =
      .next { s with errCode := some .badHeader, errInfo := (s.pkAt 0).setWidth 32, busy := false }

/-- 44_decoder.md R127, R128: the empty artifact; padding bits are not inspected; a payload above `ENC_CAP` bits is
`CAPACITY`, possible only with `PK_LEN = PK_CAP` and a header below 8; a two-byte artifact with header 8 is empty. -/
def Obligations.UnpackCornerCases : Prop :=
  ∀ s : State, s.errCode = none →
    (s.pkLen = 0#32 → exec .unpack s = .next { s with encLen := 0#32, busy := false }) ∧
    (∀ s' t t' : State, s'.errCode = none → s'.cfg = s.cfg → s'.pkLen = s.pkLen → s'.pkAt 0 = s.pkAt 0 →
      s'.payload.take (8 * (s.pkLen.toNat - 1) - (s.pkAt 0).toNat) =
        s.payload.take (8 * (s.pkLen.toNat - 1) - (s.pkAt 0).toNat) →
      exec .unpack s = .next t → exec .unpack s' = .next t' → t.errCode = none →
      t'.errCode = none ∧ t'.encLen = t.encLen ∧ t'.encoded = t.encoded) ∧
    (s.pkLen.toNat ≤ s.cfg.pkCapacity → 1 ≤ s.pkLen.toNat → 1 ≤ (s.pkAt 0).toNat → (s.pkAt 0).toNat ≤ 8 →
      s.cfg.encCapacity < 8 * (s.pkLen.toNat - 1) - (s.pkAt 0).toNat →
      s.pkLen.toNat = s.cfg.pkCapacity ∧ (s.pkAt 0).toNat < 8 ∧
      exec .unpack s = .next { s with
        errCode := some .capacity, errInfo := BitVec.ofNat 32 (8 * (s.pkLen.toNat - 1) - (s.pkAt 0).toNat),
        busy := false }) ∧
    (s.pkLen = 2#32 → s.pkAt 0 = 8#8 → exec .unpack s = .next { s with encLen := 0#32, busy := false })

/-- 46_laws.md R150 (a): `UNPACK` inverts `PACK`. -/
def Obligations.UnpackInvertsPack : Prop :=
  ∀ s : State, s.quiet → s.encLen.toNat ≤ s.cfg.encCapacity →
    ∃ t, issueAll [.pack, .unpack] s = .next t ∧ t.errCode = none ∧ t.encLen = s.encLen ∧ t.encoded = s.encoded

/-! ### DECODE -/

/-- 44_decoder.md R130: `Match`. -/
def Obligations.MatchIsSmallestSymbol : Prop :=
  ∀ (s : State) (c : List Bool), c ≠ [] →
    (∀ x, s.matchCode c = some x ↔ ((s.codeLenAt x).toNat = c.length ∧ s.code x = c ∧
      ∀ y : Byte, y.toNat < x.toNat → ¬ ((s.codeLenAt y).toNat = c.length ∧ s.code y = c))) ∧
    (s.matchCode c = none ↔ ∀ x, ¬ ((s.codeLenAt x).toNat = c.length ∧ s.code x = c)) ∧
    (255 < c.length → s.matchCode c = none)

/-- 44_decoder.md R129, R131: the greedy scan, with left-over bits a `TRUNCATED_STREAM` after `DEC_LEN` is written. -/
def Obligations.DecodeScansGreedily : Prop :=
  ∀ s : State, s.errCode = none → (scan s.matchCode [] s.encoded).1.length ≤ s.cfg.decCapacity →
    ∃ t, exec .decode s = .next t ∧
      t = { s with dec := t.dec, decLen := t.decLen, errCode := t.errCode, errInfo := t.errInfo, busy := false } ∧
      t.decoded = (scan s.matchCode [] s.encoded).1 ∧
      (∀ i, t.decLen.toNat ≤ i → t.decAt i = s.decAt i) ∧
      ((scan s.matchCode [] s.encoded).2 = [] → t.errCode = none ∧ t.errInfo = s.errInfo) ∧
      ((scan s.matchCode [] s.encoded).2 ≠ [] → t.errCode = some .truncatedStream ∧
        t.errInfo.toNat = (scan s.matchCode [] s.encoded).2.length)

/-- 44_decoder.md R132: when `DEC_CAP` symbols have been emitted and bit `p` completes another code, `DECODE` stops with
`CAPACITY` and `p`. -/
def Obligations.DecodeStopsWhenFull : Prop :=
  ∀ (s : State) (p : Nat), s.errCode = none → p < s.encLen.toNat →
    (scan s.matchCode [] (s.encoded.take p)).1.length = s.cfg.decCapacity →
    (scan s.matchCode [] (s.encoded.take (p + 1))).1.length = s.cfg.decCapacity + 1 →
    ∃ t, exec .decode s = .next t ∧
      t = { s with dec := t.dec, decLen := t.decLen, errCode := some .capacity, errInfo := BitVec.ofNat 32 p,
                   busy := false } ∧
      t.decLen.toNat = s.cfg.decCapacity ∧ t.decoded = (scan s.matchCode [] (s.encoded.take p)).1 ∧
      ∀ i, t.decLen.toNat ≤ i → t.decAt i = s.decAt i

/-- 46_laws.md R163: under a prefix-free table `DECODE` gives back the symbols whose codes were concatenated. -/
def Obligations.DecodeInvertsEncode : Prop :=
  ∀ (s : State) (xs : List Byte), s.errCode = none → PrefixFree s → (∀ x ∈ xs, s.hasCode x) →
    s.encoded = xs.flatMap s.code → xs.length ≤ s.cfg.decCapacity →
    ∃ t, exec .decode s = .next t ∧ t = { s with dec := t.dec, decLen := t.decLen, busy := false } ∧
      t.decLen.toNat = xs.length ∧ t.decoded = xs

/-! ### COMPRESS and EXPAND -/

/-- 45_control.md R140, R141: the short circuit on an empty input, and otherwise the five stages in order, each as the
standalone command acts on the state the one before left, with a `raise` ending the whole. -/
def Obligations.CompressFollowsStages : Prop :=
  ∀ s : State, s.errCode = none →
    (s.inLen = 0#32 → ∃ t, exec .compress s = .next t ∧
      t = { s with
        busy := false, empty := true, freq := t.freq, nNodes := 0#32, root := 511#9, codeLen := t.codeLen,
        codeBits := t.codeBits, encLen := 0#32, pkLen := 0#32 } ∧
      ∀ x, t.freqAt x = 0#24 ∧ t.codeLenAt x = 0#8 ∧ ∀ k, k < 256 → t.codeBitAt x k = false) ∧
    (s.inLen ≠ 0#32 →
      exec .compress s = execAll [.analyze, .build, .assign, .encode, .pack] { s with empty := false })

/-- 45_control.md R140: on a non-empty input `COMPRESS` completes; the table, the tree and the codes are those of the
input, every input symbol has a code, `ENC` and `PK` are the encoding and its artifact if no fault is recorded, and the
input, `DEC` and the records beyond the tree are untouched. -/
def Obligations.CompressDescribesInput : Prop :=
  ∀ s : State, s.quiet → 1 ≤ s.inLen.toNat → s.inLen.toNat ≤ s.cfg.inCapacity →
    ∃ t, exec .compress s = .next t ∧
      t = { s with
        empty := false, errCode := t.errCode, errInfo := t.errInfo, freq := t.freq, node := t.node,
        nNodes := t.nNodes, root := t.root, codeLen := t.codeLen, codeBits := t.codeBits, enc := t.enc,
        encLen := t.encLen, pk := t.pk, pkLen := t.pkLen } ∧
      (∀ x, (t.freqAt x).toNat = s.input.count x) ∧ TreeShape t t.present.length ∧
      (∀ x, t.hasCode x ↔ x ∈ s.input) ∧
      (∀ k, t.nNodes.toNat ≤ k → t.nodeAt k = s.nodeAt k) ∧
      (t.errCode = none → t.encoded = s.input.flatMap t.code ∧ t.packedBytes = packed t.encoded)

/-- 45_control.md R147, 46_laws.md R159: `COMPRESS` never raises, and its encoded string has at most 8 bits a symbol. -/
def Obligations.CompressNeverFaults : Prop :=
  ∀ s : State, s.quiet → s.inLen.toNat ≤ s.cfg.inCapacity →
    ∃ t, exec .compress s = .next t ∧ t.errCode = none ∧ t.encLen.toNat ≤ 8 * s.inLen.toNat

/-- 46_laws.md R150: the round trip, by the composites and by the staged commands. -/
def Obligations.CompressExpandRoundTrip : Prop :=
  ∀ s : State, s.quiet → s.inLen.toNat ≤ s.cfg.inCapacity →
    ∀ cmds, cmds = [Instr.compress, .expand] ∨
        cmds = [Instr.analyze, .build, .assign, .encode, .pack, .unpack, .decode] →
      ∃ t, issueAll cmds s = .next t ∧ t.errCode = none ∧ t.decLen = s.inLen ∧
        ∀ i, i < s.inLen.toNat → t.decAt i = s.inAt i

/-- 46_laws.md R154: one distinct input symbol. -/
def Obligations.CompressSingleSymbol : Prop :=
  ∀ (s : State) (x : Byte), s.quiet → 1 ≤ s.inLen.toNat → s.inLen.toNat ≤ s.cfg.inCapacity →
    (∀ y ∈ s.input, y = x) →
    ∃ t, exec .compress s = .next t ∧ t.errCode = none ∧ t.codeLenAt x = 1#8 ∧ t.code x = [false] ∧
      (∀ y, y ≠ x → t.codeLenAt y = 0#8) ∧ t.nNodes = 1#32 ∧ t.root = 0#9 ∧ t.encLen = s.inLen ∧
      (∀ b ∈ t.encoded, b = false) ∧
      ∃ u, issueAll [.expand] t = .next u ∧ u.errCode = none ∧ u.decLen = s.inLen ∧ u.decoded = s.input

/-- 46_laws.md R156: two quiet states that agree on the input agree on what `COMPRESS` makes of it. -/
def Obligations.CompressIsDeterministic : Prop :=
  ∀ s1 s2 t1 t2 : State, s1.quiet → s2.quiet → s1.cfg = s2.cfg → s1.inLen = s2.inLen → s1.input = s2.input →
    exec .compress s1 = .next t1 → exec .compress s2 = .next t2 →
    t1.freq = t2.freq ∧ t1.nNodes = t2.nNodes ∧ t1.root = t2.root ∧
    (∀ k, k < t1.nNodes.toNat → t1.nodeAt k = t2.nodeAt k) ∧ t1.codeLen = t2.codeLen ∧
    (∀ x, t1.code x = t2.code x) ∧ t1.encLen = t2.encLen ∧ t1.encoded = t2.encoded ∧ t1.errCode = t2.errCode ∧
    (t1.errCode = none → t1.pkLen = t2.pkLen ∧ t1.packedBytes = t2.packedBytes)

/-- 45_control.md R142: `EXPAND` is `UNPACK` then `DECODE`, and stops where `UNPACK` raises. -/
def Obligations.ExpandFollowsStages : Prop :=
  ∀ s : State, s.errCode = none → exec .expand s = execAll [.unpack, .decode] s ∧
    (s.pkLen = 0#32 → exec .expand s = .next { s with encLen := 0#32, decLen := 0#32, busy := false })

/-- 45_control.md R142, 46_laws.md R163: `EXPAND` of the artifact of a concatenation of codes of a prefix-free table gives
the symbols, and changes nothing but `ENC`, `ENC_LEN`, `DEC` and `DEC_LEN`. -/
def Obligations.ExpandDecodesArtifact : Prop :=
  ∀ (s : State) (xs : List Byte), s.errCode = none → PrefixFree s → (∀ x ∈ xs, s.hasCode x) →
    s.packedBytes = packed (xs.flatMap s.code) → xs.length ≤ s.cfg.decCapacity →
    (xs.flatMap s.code).length ≤ s.cfg.encCapacity →
    ∃ t, exec .expand s = .next t ∧
      t = { s with enc := t.enc, encLen := t.encLen, dec := t.dec, decLen := t.decLen, busy := false } ∧
      t.encoded = xs.flatMap s.code ∧ t.decLen.toNat = xs.length ∧ t.decoded = xs

/-! ### The whole machine -/

/-- 20_memory.md R58: what each command may write; no command writes the input, the parameter or what belongs to the
host, and only `RESET` writes `PENDING`, a register of 10_state.md R43. That `PENDING`, not meaningful while `BUSY = 0`,
keeps its word after every other command is the model's reading (log 9). -/
def Obligations.CommandsWriteOnlyTheirOutputs : Prop :=
  ∀ (i : Instr) (s t : State), exec i s = .next t →
    (t.cfg = s.cfg ∧ t.inMem = s.inMem ∧ t.epoch = s.epoch ∧ t.hostIn = s.hostIn ∧ t.hostOut = s.hostOut ∧
      t.busy = false) ∧
    (i ≠ .reset → t.pending = s.pending ∧ t.inLen = s.inLen) ∧
    (i ∉ [Instr.compress, .reset] → t.empty = s.empty) ∧
    (i ∉ [Instr.analyze, .compress, .reset] → t.freq = s.freq) ∧
    (i ∉ [Instr.build, .compress] → t.node = s.node) ∧
    (i ∉ [Instr.build, .compress, .reset] → t.nNodes = s.nNodes ∧ t.root = s.root) ∧
    (i ∉ [Instr.assign, .compress, .reset] → t.codeLen = s.codeLen) ∧
    (i ∉ [Instr.assign, .compress] → t.codeBits = s.codeBits) ∧
    (i ∉ [Instr.encode, .unpack, .compress, .expand] → t.enc = s.enc) ∧
    (i ∉ [Instr.encode, .unpack, .compress, .expand, .reset] → t.encLen = s.encLen) ∧
    (i ∉ [Instr.pack, .compress] → t.pk = s.pk) ∧
    (i ∉ [Instr.pack, .compress, .reset] → t.pkLen = s.pkLen) ∧
    (i ∉ [Instr.decode, .expand] → t.dec = s.dec) ∧
    (i ∉ [Instr.decode, .expand, .reset] → t.decLen = s.decLen) ∧
    (i ∈ [Instr.nop, .analyze, .build, .assign] → t.errCode = s.errCode ∧ t.errInfo = s.errInfo)

/-- 10_state.md R36, R23: the invariant is kept by every step. -/
def Obligations.EveryStepKeepsInvariant : Prop := ∀ s t : State, Inv s → step s = .next t → Inv t

/-- 10_state.md R36, R43: the invariant holds right after a hardware reset, for every legal parameter; `State.reset` is
that state for the reference configuration (the model's choice, log 3). -/
def Obligations.ResetMeetsInvariant : Prop :=
  (∀ c : Config, c.wf = true → Inv (State.resetOf c)) ∧ Inv State.reset ∧ State.reset.cfg.inCapacity = 65535

/-! ### The host port -/

/-- 20_memory.md R52, 60_exceptions.md R180: an illegal access changes no location, records `BAD_ACCESS` with its space
and index if no fault is recorded, and an illegal read returns 0; a read of the write-only `CMD` is legal and returns 0. -/
def Obligations.IllegalAccessRecordsBadAccess : Prop :=
  ∀ (s : State) (early : Bool) (rest : List HostEvent) (space : BitVec 4) (index : BitVec 28),
    s.busy = false →
    (∀ v : Word, s.hostIn = ⟨early, .write space index v⟩ :: rest →
      illegalTarget s.cfg space.toNat index.toNat ∨ readOnly space.toNat index.toNat ∨
        illegalValue s.cfg space.toNat index.toNat v.toNat →
      (s.errCode = none → step s = .next { s with
        hostIn := rest, errCode := some .badAccess,
        errInfo := BitVec.ofNat 32 (space.toNat * 2 ^ 28 + index.toNat) }) ∧
      (s.errCode ≠ none → step s = .next { s with hostIn := rest })) ∧
    (s.hostIn = ⟨early, .read space index⟩ :: rest → illegalTarget s.cfg space.toNat index.toNat →
      (s.errCode = none → step s = .next { s with
        hostIn := rest, hostOut := 0#32 :: s.hostOut, errCode := some .badAccess,
        errInfo := BitVec.ofNat 32 (space.toNat * 2 ^ 28 + index.toNat) }) ∧
      (s.errCode ≠ none → step s = .next { s with hostIn := rest, hostOut := 0#32 :: s.hostOut })) ∧
    (s.hostIn = ⟨early, .read 0#4 0#28⟩ :: rest → step s = .next { s with hostIn := rest, hostOut := 0#32 :: s.hostOut })

/-- 20_memory.md R51, R56: a legal read returns the current value and changes nothing; the values of the eleven control
registers are those of 10_state.md R23, the elements of the other spaces those of 30_encoding.md R74 to R78. -/
def Obligations.LegalReadReturnsValue : Prop :=
  ∀ (s : State) (early : Bool) (rest : List HostEvent) (space : BitVec 4) (index : BitVec 28),
    s.busy = false → s.hostIn = ⟨early, .read space index⟩ :: rest →
    ¬ illegalTarget s.cfg space.toNat index.toNat →
    ∃ v, step s = .next { s with hostIn := rest, hostOut := v :: s.hostOut } ∧
      (space = 0#4 → [0#32, s.statusWord, s.errCodeWord, s.errInfo, s.inLen, s.nNodes, s.root.setWidth 32, s.encLen,
        s.pkLen, s.decLen, BitVec.ofNat 32 s.cfg.inCapacity][index.toNat]? = some v) ∧
      (space = 1#4 → v = (s.inAt index.toNat).setWidth 32) ∧
      (space = 2#4 → v = (s.freqAt (BitVec.ofNat 8 index.toNat)).setWidth 32) ∧
      (space = 3#4 → v = (s.nodeAt index.toNat).freq) ∧
      (space = 4#4 → v = nodeLinkWord (s.nodeAt index.toNat)) ∧
      (space = 5#4 → v = nodeSymWord (s.nodeAt index.toNat)) ∧
      (space = 6#4 → v = (s.codeLenAt (BitVec.ofNat 8 index.toNat)).setWidth 32) ∧
      (space = 7#4 → v = s.codeWordAt index.toNat) ∧
      (space = 8#4 → v = (s.encByteAt index.toNat).setWidth 32) ∧
      (space = 9#4 → v = (s.pkAt index.toNat).setWidth 32) ∧
      (space = 10#4 → v = (s.decAt index.toNat).setWidth 32)

/-- 30_encoding.md R75, R76: the fields of `NODE_LINK` and `NODE_SYM` words. -/
def Obligations.NodeWordFields : Prop :=
  ∀ (s : State) (k : Nat),
    (let w := s.elementAt .nodeLink k
     w.extractLsb' 0 9 = (s.nodeAt k).left ∧ w.extractLsb' 9 7 = 0#7 ∧ w.extractLsb' 16 9 = (s.nodeAt k).right ∧
      w.extractLsb' 25 7 = 0#7 ∧
      ((s.nodeAt k).left = 511#9 → (s.nodeAt k).right = 511#9 → w = 0x01FF01FF#32)) ∧
    (let w := s.elementAt .nodeSym k
     w.extractLsb' 0 8 = (s.nodeAt k).sym ∧ w.getLsbD 8 = (s.nodeAt k).leaf ∧ w.extractLsb' 9 23 = 0#23 ∧
      ((s.nodeAt k).leaf = true → (s.nodeAt k).sym = 0x41#8 → w = 0x00000141#32) ∧
      ((s.nodeAt k).leaf = false → (s.nodeAt k).sym = 0x00#8 → w = 0x00000000#32))

/-- 30_encoding.md R77: the host's byte view of `ENC`, reading and writing. -/
def Obligations.EncBytesAreMsbFirst : Prop :=
  (∀ (s : State) (j k : Nat), k < 8 → (s.elementAt .enc j).getLsbD (7 - k) = s.encAt (8 * j + k)) ∧
  (∀ (s : State) (early : Bool) (rest : List HostEvent) (j : BitVec 28) (v : Byte), s.busy = false →
    s.hostIn = ⟨early, .write 8#4 j (v.setWidth 32)⟩ :: rest → j.toNat < s.cfg.inCapacity →
    ∃ t, step s = .next t ∧ t = { s with enc := t.enc, hostIn := rest } ∧
      (∀ k, k < 8 → t.encAt (8 * j.toNat + k) = v.getLsbD (7 - k)) ∧
      ∀ p, p < 8 * j.toNat ∨ 8 * j.toNat + 8 ≤ p → t.encAt p = s.encAt p)

/-- 30_encoding.md R78, 10_state.md R37: the host's word view of `CODE_BITS`, and loading a code by `CODE_LEN`. -/
def Obligations.CodeWordsAreMsbFirst : Prop :=
  (∀ (s : State) (x : Byte) (w k : Nat), w < 8 → k < 32 →
    (s.elementAt .codeBits (8 * x.toNat + w)).getLsbD (31 - k) = s.codeBitAt x (32 * w + k)) ∧
  (∀ (s : State) (early : Bool) (rest : List HostEvent) (i : BitVec 28) (v : Word), s.busy = false →
    s.hostIn = ⟨early, .write 7#4 i v⟩ :: rest → i.toNat < 2048 →
    ∃ t, step s = .next t ∧ t = { s with codeBits := t.codeBits, hostIn := rest } ∧ t.codeWordAt i.toNat = v ∧
      ∀ j, j ≠ i.toNat → t.codeWordAt j = s.codeWordAt j) ∧
  (∀ (s : State) (early : Bool) (rest : List HostEvent) (x v : Byte), s.busy = false →
    s.hostIn = ⟨early, .write 6#4 (x.setWidth 28) (v.setWidth 32)⟩ :: rest →
    ∃ t, step s = .next t ∧ t = { s with codeLen := t.codeLen, hostIn := rest } ∧ t.codeLenAt x = v ∧
      ∀ y, y ≠ x → t.codeLenAt y = s.codeLenAt y)

/-- 10_state.md R27, R29, R30, R33, R34, R39: the host's writes of length registers, `FREQ`, `IN` and `PK` that are
legal store the value and change nothing else. -/
def Obligations.LegalWriteStoresValue : Prop :=
  ∀ (s : State) (early : Bool) (rest : List HostEvent) (space : BitVec 4) (index : BitVec 28) (v : Word),
    s.busy = false → s.hostIn = ⟨early, .write space index v⟩ :: rest →
    (space = 0#4 → index = 4#28 → v.toNat ≤ s.cfg.inCapacity → step s = .next { s with inLen := v, hostIn := rest }) ∧
    (space = 0#4 → index = 7#28 → v.toNat ≤ s.cfg.encCapacity →
      step s = .next { s with encLen := v, hostIn := rest }) ∧
    (space = 0#4 → index = 8#28 → v.toNat ≤ s.cfg.pkCapacity →
      step s = .next { s with pkLen := v, hostIn := rest }) ∧
    (space = 2#4 → index.toNat < 256 → v.toNat ≤ 2 ^ 24 - 1 →
      ∃ t, step s = .next t ∧ t = { s with freq := t.freq, hostIn := rest } ∧
        ∀ x : Byte, (t.freqAt x).toNat = if x.toNat = index.toNat then v.toNat else (s.freqAt x).toNat) ∧
    (space = 1#4 → index.toNat < s.cfg.inCapacity → v.toNat < 256 →
      ∃ t, step s = .next t ∧ t = { s with inMem := t.inMem, hostIn := rest } ∧
        ∀ j, (t.inAt j).toNat = if j = index.toNat then v.toNat else (s.inAt j).toNat) ∧
    (space = 9#4 → index.toNat < s.cfg.pkCapacity → v.toNat < 256 →
      ∃ t, step s = .next t ∧ t = { s with pk := t.pk, hostIn := rest } ∧
        ∀ j, (t.pkAt j).toNat = if j = index.toNat then v.toNat else (s.pkAt j).toNat)
end

