-- ==== Sys2Proof/Laws/Memory.lean ====
section
/-! SUPPORT. The laws of a memory: a read after a write, every other element untouched, and the canonical form kept by
every operation. -/

namespace Sys2Proof.Machine

variable {α : Type}

@[simp] theorem get_nil (i : Nat) : Memory.get ([] : Memory α) i = none := rfl

/-- A read after a write to the same index gives the value written; every other index reads as before. -/
theorem get_put (m : Memory α) (i j : Nat) (v : α) :
    (m.put i v).get j = if i = j then some v else m.get j := by
  induction m with
  | nil => simp [Memory.put, Memory.get]
  | cons cell rest ih =>
    obtain ⟨k, w⟩ := cell
    simp only [Memory.put]
    split
    · simp [Memory.get]
    · split
      · subst_vars
        simp only [Memory.get]
        split <;> simp_all
      · simp only [Memory.get, ih]
        split <;> split <;> simp_all

@[simp] theorem get_put_same (m : Memory α) (i : Nat) (v : α) : (m.put i v).get i = some v := by simp [get_put]

theorem get_put_other (m : Memory α) {i j : Nat} (v : α) (h : i ≠ j) : (m.put i v).get j = m.get j := by
  simp [get_put, h]

/-- A sequence of writes from `i` on: element `j` of it is what index `i + j` reads. -/
theorem get_putList (m : Memory α) (i j : Nat) (vs : List α) :
    (m.putList i vs).get j = if i ≤ j ∧ j < i + vs.length then vs[j - i]? else m.get j := by
  induction vs generalizing m i with
  | nil =>
    have : ¬ (i ≤ j ∧ j < i + ([] : List α).length) := by simp
    rw [if_neg this]; rfl
  | cons v vs ih =>
    simp only [Memory.putList, ih, get_put, List.length_cons]
    by_cases h1 : i + 1 ≤ j ∧ j < i + 1 + vs.length
    · rw [if_pos h1, if_pos (by omega)]
      obtain ⟨d, hd⟩ : ∃ d, j - i = d + 1 := ⟨j - i - 1, by omega⟩
      have he : j - (i + 1) = d := by omega
      simp [hd, he]
    · rw [if_neg h1]
      by_cases h2 : i = j
      · subst h2; simp
      · rw [if_neg h2, if_neg (by omega)]

theorem get_putList_outside (m : Memory α) {i j : Nat} {vs : List α} (h : j < i ∨ i + vs.length ≤ j) :
    (m.putList i vs).get j = m.get j := by
  rw [get_putList, if_neg (by omega)]

theorem get_putList_inside (m : Memory α) {i j : Nat} {vs : List α} (h : j < vs.length) :
    (m.putList i vs).get (i + j) = vs[j]? := by
  rw [get_putList, if_pos (by omega), Nat.add_sub_cancel_left]

/-- Two sequences of writes, one after the other, are one. -/
theorem putList_append (m : Memory α) (i : Nat) (xs ys : List α) :
    m.putList i (xs ++ ys) = (m.putList i xs).putList (i + xs.length) ys := by
  induction xs generalizing m i with
  | nil => rfl
  | cons x xs ih =>
    simp only [List.cons_append, Memory.putList, ih, List.length_cons]
    congr 1; omega

theorem risingFrom_mono (m : Memory α) {lo lo' : Nat} (h : lo' ≤ lo) (hm : Memory.risingFrom lo m = true) :
    Memory.risingFrom lo' m = true := by
  cases m with
  | nil => rfl
  | cons cell rest =>
    obtain ⟨k, w⟩ := cell
    simp only [Memory.risingFrom, Bool.and_eq_true, decide_eq_true_eq] at hm ⊢
    exact ⟨by omega, hm.2⟩

theorem risingFrom_put (m : Memory α) {lo i : Nat} (v : α) (hi : lo ≤ i) (hm : Memory.risingFrom lo m = true) :
    Memory.risingFrom lo (m.put i v) = true := by
  induction m generalizing lo with
  | nil => simp [Memory.put, Memory.risingFrom, hi]
  | cons cell rest ih =>
    obtain ⟨k, w⟩ := cell
    simp only [Memory.risingFrom, Bool.and_eq_true, decide_eq_true_eq] at hm
    simp only [Memory.put]
    split
    · simp only [Memory.risingFrom, Bool.and_eq_true, decide_eq_true_eq]
      exact ⟨hi, by omega, hm.2⟩
    · split
      · subst_vars
        simp only [Memory.risingFrom, Bool.and_eq_true, decide_eq_true_eq]
        exact hm
      · simp only [Memory.risingFrom, Bool.and_eq_true, decide_eq_true_eq]
        exact ⟨hm.1, ih (by omega) hm.2⟩

theorem all_put (m : Memory α) (cap i : Nat) (v : α) (hi : i < cap)
    (hm : m.all (fun cell => decide (cell.1 < cap)) = true) :
    (m.put i v).all (fun cell => decide (cell.1 < cap)) = true := by
  induction m with
  | nil => simp [Memory.put, hi]
  | cons cell rest ih =>
    obtain ⟨k, w⟩ := cell
    simp only [List.all_cons, Bool.and_eq_true, decide_eq_true_eq] at hm
    simp only [Memory.put]
    split
    · simp only [List.all_cons, Bool.and_eq_true, decide_eq_true_eq]; exact ⟨hi, hm⟩
    · split
      · simp only [List.all_cons, Bool.and_eq_true, decide_eq_true_eq]; exact ⟨hi, hm.2⟩
      · simp only [List.all_cons, Bool.and_eq_true, decide_eq_true_eq]; exact ⟨hm.1, ih hm.2⟩

@[simp] theorem wf_nil (cap : Nat) : Memory.wf cap ([] : Memory α) = true := rfl

/-- A write below the capacity keeps the canonical form. -/
theorem wf_put {m : Memory α} {cap i : Nat} (v : α) (hi : i < cap) (hm : m.wf cap = true) :
    (m.put i v).wf cap = true := by
  simp only [Memory.wf, Bool.and_eq_true] at hm ⊢
  exact ⟨risingFrom_put m v (Nat.zero_le _) hm.1, all_put m cap i v hi hm.2⟩

/-- A sequence of writes below the capacity keeps the canonical form. -/
theorem wf_putList {m : Memory α} {cap i : Nat} {vs : List α} (hi : i + vs.length ≤ cap) (hm : m.wf cap = true) :
    (m.putList i vs).wf cap = true := by
  induction vs generalizing m i with
  | nil => exact hm
  | cons v vs ih =>
    simp only [List.length_cons] at hi
    exact ih (by omega) (wf_put v (by omega) hm)

theorem get_none_of_risingFrom (m : Memory α) {lo j : Nat} (hm : Memory.risingFrom lo m = true) (h : j < lo) :
    m.get j = none := by
  induction m generalizing lo with
  | nil => rfl
  | cons cell rest ih =>
    obtain ⟨k, w⟩ := cell
    simp only [Memory.risingFrom, Bool.and_eq_true, decide_eq_true_eq] at hm
    simp only [Memory.get]
    rw [if_neg (by omega)]
    exact ih hm.2 (by omega)

/-- In canonical form a memory is determined by what it reads: equal memories are equal data. -/
theorem eq_of_risingFrom (m m' : Memory α) {lo : Nat} (hm : Memory.risingFrom lo m = true)
    (hm' : Memory.risingFrom lo m' = true) (h : ∀ j, m.get j = m'.get j) : m = m' := by
  induction m generalizing m' lo with
  | nil =>
    cases m' with
    | nil => rfl
    | cons cell rest =>
      obtain ⟨k, w⟩ := cell
      have := h k
      simp [Memory.get] at this
  | cons cell rest ih =>
    obtain ⟨k, w⟩ := cell
    cases m' with
    | nil => have := h k; simp [Memory.get] at this
    | cons cell' rest' =>
      obtain ⟨k', w'⟩ := cell'
      simp only [Memory.risingFrom, Bool.and_eq_true, decide_eq_true_eq] at hm hm'
      have hk : k = k' := by
        have h1 := h k
        have h2 := h k'
        simp only [Memory.get] at h1 h2
        by_contra hne
        rcases Nat.lt_or_gt_of_ne hne with hlt | hgt
        · rw [if_pos trivial, if_neg (by omega), get_none_of_risingFrom rest' hm'.2 (by omega)] at h1
          simp at h1
        · rw [if_neg (by omega), if_pos trivial, get_none_of_risingFrom rest hm.2 (by omega)] at h2
          simp at h2
      subst hk
      have hw := h k
      simp only [Memory.get, if_pos] at hw
      obtain rfl : w = w' := by simpa using hw
      congr 1
      refine ih rest' hm.2 hm'.2 (fun j => ?_)
      by_cases hj : j < k + 1
      · rw [get_none_of_risingFrom rest hm.2 hj, get_none_of_risingFrom rest' hm'.2 hj]
      · have := h j
        simp only [Memory.get] at this
        rwa [if_neg (by omega), if_neg (by omega)] at this

end Sys2Proof.Machine
end

