-- ==== Sys2Proof/Laws/State.lean ====
section
/-! SUPPORT. What each update of the state does to each field, and which elements it leaves as they were. -/

namespace Sys2Proof.Machine

/-! ### putNode -/

@[simp] theorem putNode_cfg (s : State) (k : Nat) (n : Node) : (s.putNode k n).cfg = s.cfg := rfl

@[simp] theorem putNode_busy (s : State) (k : Nat) (n : Node) : (s.putNode k n).busy = s.busy := rfl

@[simp] theorem putNode_empty (s : State) (k : Nat) (n : Node) : (s.putNode k n).empty = s.empty := rfl

@[simp] theorem putNode_pending (s : State) (k : Nat) (n : Node) : (s.putNode k n).pending = s.pending := rfl

@[simp] theorem putNode_errCode (s : State) (k : Nat) (n : Node) : (s.putNode k n).errCode = s.errCode := rfl

@[simp] theorem putNode_errInfo (s : State) (k : Nat) (n : Node) : (s.putNode k n).errInfo = s.errInfo := rfl

@[simp] theorem putNode_inLen (s : State) (k : Nat) (n : Node) : (s.putNode k n).inLen = s.inLen := rfl

@[simp] theorem putNode_nNodes (s : State) (k : Nat) (n : Node) : (s.putNode k n).nNodes = s.nNodes := rfl

@[simp] theorem putNode_root (s : State) (k : Nat) (n : Node) : (s.putNode k n).root = s.root := rfl

@[simp] theorem putNode_encLen (s : State) (k : Nat) (n : Node) : (s.putNode k n).encLen = s.encLen := rfl

@[simp] theorem putNode_pkLen (s : State) (k : Nat) (n : Node) : (s.putNode k n).pkLen = s.pkLen := rfl

@[simp] theorem putNode_decLen (s : State) (k : Nat) (n : Node) : (s.putNode k n).decLen = s.decLen := rfl

@[simp] theorem putNode_inMem (s : State) (k : Nat) (n : Node) : (s.putNode k n).inMem = s.inMem := rfl

@[simp] theorem putNode_freq (s : State) (k : Nat) (n : Node) : (s.putNode k n).freq = s.freq := rfl

@[simp] theorem putNode_node (s : State) (k : Nat) (n : Node) : (s.putNode k n).node = s.node.put k n := rfl

@[simp] theorem putNode_codeLen (s : State) (k : Nat) (n : Node) : (s.putNode k n).codeLen = s.codeLen := rfl

@[simp] theorem putNode_codeBits (s : State) (k : Nat) (n : Node) : (s.putNode k n).codeBits = s.codeBits := rfl

@[simp] theorem putNode_enc (s : State) (k : Nat) (n : Node) : (s.putNode k n).enc = s.enc := rfl

@[simp] theorem putNode_pk (s : State) (k : Nat) (n : Node) : (s.putNode k n).pk = s.pk := rfl

@[simp] theorem putNode_dec (s : State) (k : Nat) (n : Node) : (s.putNode k n).dec = s.dec := rfl

@[simp] theorem putNode_epoch (s : State) (k : Nat) (n : Node) : (s.putNode k n).epoch = s.epoch := rfl

@[simp] theorem putNode_hostIn (s : State) (k : Nat) (n : Node) : (s.putNode k n).hostIn = s.hostIn := rfl

@[simp] theorem putNode_hostOut (s : State) (k : Nat) (n : Node) : (s.putNode k n).hostOut = s.hostOut := rfl

@[simp] theorem putNode_inAt (s : State) (k : Nat) (n : Node) (i : Nat) : (s.putNode k n).inAt i = s.inAt i := rfl

@[simp] theorem putNode_freqAt (s : State) (k : Nat) (n : Node) (x : Byte) : (s.putNode k n).freqAt x = s.freqAt x := rfl

@[simp] theorem putNode_codeLenAt (s : State) (k : Nat) (n : Node) (x : Byte) : (s.putNode k n).codeLenAt x = s.codeLenAt x := rfl

@[simp] theorem putNode_codeWordAt (s : State) (k : Nat) (n : Node) (i : Nat) : (s.putNode k n).codeWordAt i = s.codeWordAt i := rfl

@[simp] theorem putNode_encAt (s : State) (k : Nat) (n : Node) (p : Nat) : (s.putNode k n).encAt p = s.encAt p := rfl

@[simp] theorem putNode_pkAt (s : State) (k : Nat) (n : Node) (i : Nat) : (s.putNode k n).pkAt i = s.pkAt i := rfl

@[simp] theorem putNode_decAt (s : State) (k : Nat) (n : Node) (i : Nat) : (s.putNode k n).decAt i = s.decAt i := rfl

@[simp] theorem putNode_code (s : State) (k : Nat) (n : Node) (x : Byte) : (s.putNode k n).code x = s.code x := rfl

@[simp] theorem putNode_matchCode (s : State) (k : Nat) (n : Node) (c : List Bool) : (s.putNode k n).matchCode c = s.matchCode c := rfl

@[simp] theorem putNode_input (s : State) (k : Nat) (n : Node) : (s.putNode k n).input = s.input := rfl

/-! ### putEnc -/

@[simp] theorem putEnc_cfg (s : State) (p : Nat) (bits : List Bool) : (s.putEnc p bits).cfg = s.cfg := rfl

@[simp] theorem putEnc_busy (s : State) (p : Nat) (bits : List Bool) : (s.putEnc p bits).busy = s.busy := rfl

@[simp] theorem putEnc_empty (s : State) (p : Nat) (bits : List Bool) : (s.putEnc p bits).empty = s.empty := rfl

@[simp] theorem putEnc_pending (s : State) (p : Nat) (bits : List Bool) : (s.putEnc p bits).pending = s.pending := rfl

@[simp] theorem putEnc_errCode (s : State) (p : Nat) (bits : List Bool) : (s.putEnc p bits).errCode = s.errCode := rfl

@[simp] theorem putEnc_errInfo (s : State) (p : Nat) (bits : List Bool) : (s.putEnc p bits).errInfo = s.errInfo := rfl

@[simp] theorem putEnc_inLen (s : State) (p : Nat) (bits : List Bool) : (s.putEnc p bits).inLen = s.inLen := rfl

@[simp] theorem putEnc_nNodes (s : State) (p : Nat) (bits : List Bool) : (s.putEnc p bits).nNodes = s.nNodes := rfl

@[simp] theorem putEnc_root (s : State) (p : Nat) (bits : List Bool) : (s.putEnc p bits).root = s.root := rfl

@[simp] theorem putEnc_encLen (s : State) (p : Nat) (bits : List Bool) : (s.putEnc p bits).encLen = s.encLen := rfl

@[simp] theorem putEnc_pkLen (s : State) (p : Nat) (bits : List Bool) : (s.putEnc p bits).pkLen = s.pkLen := rfl

@[simp] theorem putEnc_decLen (s : State) (p : Nat) (bits : List Bool) : (s.putEnc p bits).decLen = s.decLen := rfl

@[simp] theorem putEnc_inMem (s : State) (p : Nat) (bits : List Bool) : (s.putEnc p bits).inMem = s.inMem := rfl

@[simp] theorem putEnc_freq (s : State) (p : Nat) (bits : List Bool) : (s.putEnc p bits).freq = s.freq := rfl

@[simp] theorem putEnc_node (s : State) (p : Nat) (bits : List Bool) : (s.putEnc p bits).node = s.node := rfl

@[simp] theorem putEnc_codeLen (s : State) (p : Nat) (bits : List Bool) : (s.putEnc p bits).codeLen = s.codeLen := rfl

@[simp] theorem putEnc_codeBits (s : State) (p : Nat) (bits : List Bool) : (s.putEnc p bits).codeBits = s.codeBits := rfl

@[simp] theorem putEnc_enc (s : State) (p : Nat) (bits : List Bool) : (s.putEnc p bits).enc = s.enc.putList p bits := rfl

@[simp] theorem putEnc_pk (s : State) (p : Nat) (bits : List Bool) : (s.putEnc p bits).pk = s.pk := rfl

@[simp] theorem putEnc_dec (s : State) (p : Nat) (bits : List Bool) : (s.putEnc p bits).dec = s.dec := rfl

@[simp] theorem putEnc_epoch (s : State) (p : Nat) (bits : List Bool) : (s.putEnc p bits).epoch = s.epoch := rfl

@[simp] theorem putEnc_hostIn (s : State) (p : Nat) (bits : List Bool) : (s.putEnc p bits).hostIn = s.hostIn := rfl

@[simp] theorem putEnc_hostOut (s : State) (p : Nat) (bits : List Bool) : (s.putEnc p bits).hostOut = s.hostOut := rfl

@[simp] theorem putEnc_inAt (s : State) (p : Nat) (bits : List Bool) (i : Nat) : (s.putEnc p bits).inAt i = s.inAt i := rfl

@[simp] theorem putEnc_freqAt (s : State) (p : Nat) (bits : List Bool) (x : Byte) : (s.putEnc p bits).freqAt x = s.freqAt x := rfl

@[simp] theorem putEnc_nodeAt (s : State) (p : Nat) (bits : List Bool) (k : Nat) : (s.putEnc p bits).nodeAt k = s.nodeAt k := rfl

@[simp] theorem putEnc_codeLenAt (s : State) (p : Nat) (bits : List Bool) (x : Byte) : (s.putEnc p bits).codeLenAt x = s.codeLenAt x := rfl

@[simp] theorem putEnc_codeWordAt (s : State) (p : Nat) (bits : List Bool) (i : Nat) : (s.putEnc p bits).codeWordAt i = s.codeWordAt i := rfl

@[simp] theorem putEnc_pkAt (s : State) (p : Nat) (bits : List Bool) (i : Nat) : (s.putEnc p bits).pkAt i = s.pkAt i := rfl

@[simp] theorem putEnc_decAt (s : State) (p : Nat) (bits : List Bool) (i : Nat) : (s.putEnc p bits).decAt i = s.decAt i := rfl

@[simp] theorem putEnc_code (s : State) (p : Nat) (bits : List Bool) (x : Byte) : (s.putEnc p bits).code x = s.code x := rfl

@[simp] theorem putEnc_matchCode (s : State) (p : Nat) (bits : List Bool) (c : List Bool) : (s.putEnc p bits).matchCode c = s.matchCode c := rfl

@[simp] theorem putEnc_input (s : State) (p : Nat) (bits : List Bool) : (s.putEnc p bits).input = s.input := rfl

/-! ### putPk -/

@[simp] theorem putPk_cfg (s : State) (i : Nat) (bytes : List Byte) : (s.putPk i bytes).cfg = s.cfg := rfl

@[simp] theorem putPk_busy (s : State) (i : Nat) (bytes : List Byte) : (s.putPk i bytes).busy = s.busy := rfl

@[simp] theorem putPk_empty (s : State) (i : Nat) (bytes : List Byte) : (s.putPk i bytes).empty = s.empty := rfl

@[simp] theorem putPk_pending (s : State) (i : Nat) (bytes : List Byte) : (s.putPk i bytes).pending = s.pending := rfl

@[simp] theorem putPk_errCode (s : State) (i : Nat) (bytes : List Byte) : (s.putPk i bytes).errCode = s.errCode := rfl

@[simp] theorem putPk_errInfo (s : State) (i : Nat) (bytes : List Byte) : (s.putPk i bytes).errInfo = s.errInfo := rfl

@[simp] theorem putPk_inLen (s : State) (i : Nat) (bytes : List Byte) : (s.putPk i bytes).inLen = s.inLen := rfl

@[simp] theorem putPk_nNodes (s : State) (i : Nat) (bytes : List Byte) : (s.putPk i bytes).nNodes = s.nNodes := rfl

@[simp] theorem putPk_root (s : State) (i : Nat) (bytes : List Byte) : (s.putPk i bytes).root = s.root := rfl

@[simp] theorem putPk_encLen (s : State) (i : Nat) (bytes : List Byte) : (s.putPk i bytes).encLen = s.encLen := rfl

@[simp] theorem putPk_pkLen (s : State) (i : Nat) (bytes : List Byte) : (s.putPk i bytes).pkLen = s.pkLen := rfl

@[simp] theorem putPk_decLen (s : State) (i : Nat) (bytes : List Byte) : (s.putPk i bytes).decLen = s.decLen := rfl

@[simp] theorem putPk_inMem (s : State) (i : Nat) (bytes : List Byte) : (s.putPk i bytes).inMem = s.inMem := rfl

@[simp] theorem putPk_freq (s : State) (i : Nat) (bytes : List Byte) : (s.putPk i bytes).freq = s.freq := rfl

@[simp] theorem putPk_node (s : State) (i : Nat) (bytes : List Byte) : (s.putPk i bytes).node = s.node := rfl

@[simp] theorem putPk_codeLen (s : State) (i : Nat) (bytes : List Byte) : (s.putPk i bytes).codeLen = s.codeLen := rfl

@[simp] theorem putPk_codeBits (s : State) (i : Nat) (bytes : List Byte) : (s.putPk i bytes).codeBits = s.codeBits := rfl

@[simp] theorem putPk_enc (s : State) (i : Nat) (bytes : List Byte) : (s.putPk i bytes).enc = s.enc := rfl

@[simp] theorem putPk_pk (s : State) (i : Nat) (bytes : List Byte) : (s.putPk i bytes).pk = s.pk.putList i bytes := rfl

@[simp] theorem putPk_dec (s : State) (i : Nat) (bytes : List Byte) : (s.putPk i bytes).dec = s.dec := rfl

@[simp] theorem putPk_epoch (s : State) (i : Nat) (bytes : List Byte) : (s.putPk i bytes).epoch = s.epoch := rfl

@[simp] theorem putPk_hostIn (s : State) (i : Nat) (bytes : List Byte) : (s.putPk i bytes).hostIn = s.hostIn := rfl

@[simp] theorem putPk_hostOut (s : State) (i : Nat) (bytes : List Byte) : (s.putPk i bytes).hostOut = s.hostOut := rfl

@[simp] theorem putPk_inAt (s : State) (i : Nat) (bytes : List Byte) (i' : Nat) : (s.putPk i bytes).inAt i' = s.inAt i' := rfl

@[simp] theorem putPk_freqAt (s : State) (i : Nat) (bytes : List Byte) (x : Byte) : (s.putPk i bytes).freqAt x = s.freqAt x := rfl

@[simp] theorem putPk_nodeAt (s : State) (i : Nat) (bytes : List Byte) (k : Nat) : (s.putPk i bytes).nodeAt k = s.nodeAt k := rfl

@[simp] theorem putPk_codeLenAt (s : State) (i : Nat) (bytes : List Byte) (x : Byte) : (s.putPk i bytes).codeLenAt x = s.codeLenAt x := rfl

@[simp] theorem putPk_codeWordAt (s : State) (i : Nat) (bytes : List Byte) (i' : Nat) : (s.putPk i bytes).codeWordAt i' = s.codeWordAt i' := rfl

@[simp] theorem putPk_encAt (s : State) (i : Nat) (bytes : List Byte) (p : Nat) : (s.putPk i bytes).encAt p = s.encAt p := rfl

@[simp] theorem putPk_decAt (s : State) (i : Nat) (bytes : List Byte) (i' : Nat) : (s.putPk i bytes).decAt i' = s.decAt i' := rfl

@[simp] theorem putPk_code (s : State) (i : Nat) (bytes : List Byte) (x : Byte) : (s.putPk i bytes).code x = s.code x := rfl

@[simp] theorem putPk_matchCode (s : State) (i : Nat) (bytes : List Byte) (c : List Bool) : (s.putPk i bytes).matchCode c = s.matchCode c := rfl

@[simp] theorem putPk_input (s : State) (i : Nat) (bytes : List Byte) : (s.putPk i bytes).input = s.input := rfl

/-! ### putDec -/

@[simp] theorem putDec_cfg (s : State) (i : Nat) (x : Byte) : (s.putDec i x).cfg = s.cfg := rfl

@[simp] theorem putDec_busy (s : State) (i : Nat) (x : Byte) : (s.putDec i x).busy = s.busy := rfl

@[simp] theorem putDec_empty (s : State) (i : Nat) (x : Byte) : (s.putDec i x).empty = s.empty := rfl

@[simp] theorem putDec_pending (s : State) (i : Nat) (x : Byte) : (s.putDec i x).pending = s.pending := rfl

@[simp] theorem putDec_errCode (s : State) (i : Nat) (x : Byte) : (s.putDec i x).errCode = s.errCode := rfl

@[simp] theorem putDec_errInfo (s : State) (i : Nat) (x : Byte) : (s.putDec i x).errInfo = s.errInfo := rfl

@[simp] theorem putDec_inLen (s : State) (i : Nat) (x : Byte) : (s.putDec i x).inLen = s.inLen := rfl

@[simp] theorem putDec_nNodes (s : State) (i : Nat) (x : Byte) : (s.putDec i x).nNodes = s.nNodes := rfl

@[simp] theorem putDec_root (s : State) (i : Nat) (x : Byte) : (s.putDec i x).root = s.root := rfl

@[simp] theorem putDec_encLen (s : State) (i : Nat) (x : Byte) : (s.putDec i x).encLen = s.encLen := rfl

@[simp] theorem putDec_pkLen (s : State) (i : Nat) (x : Byte) : (s.putDec i x).pkLen = s.pkLen := rfl

@[simp] theorem putDec_decLen (s : State) (i : Nat) (x : Byte) : (s.putDec i x).decLen = s.decLen := rfl

@[simp] theorem putDec_inMem (s : State) (i : Nat) (x : Byte) : (s.putDec i x).inMem = s.inMem := rfl

@[simp] theorem putDec_freq (s : State) (i : Nat) (x : Byte) : (s.putDec i x).freq = s.freq := rfl

@[simp] theorem putDec_node (s : State) (i : Nat) (x : Byte) : (s.putDec i x).node = s.node := rfl

@[simp] theorem putDec_codeLen (s : State) (i : Nat) (x : Byte) : (s.putDec i x).codeLen = s.codeLen := rfl

@[simp] theorem putDec_codeBits (s : State) (i : Nat) (x : Byte) : (s.putDec i x).codeBits = s.codeBits := rfl

@[simp] theorem putDec_enc (s : State) (i : Nat) (x : Byte) : (s.putDec i x).enc = s.enc := rfl

@[simp] theorem putDec_pk (s : State) (i : Nat) (x : Byte) : (s.putDec i x).pk = s.pk := rfl

@[simp] theorem putDec_dec (s : State) (i : Nat) (x : Byte) : (s.putDec i x).dec = s.dec.put i x := rfl

@[simp] theorem putDec_epoch (s : State) (i : Nat) (x : Byte) : (s.putDec i x).epoch = s.epoch := rfl

@[simp] theorem putDec_hostIn (s : State) (i : Nat) (x : Byte) : (s.putDec i x).hostIn = s.hostIn := rfl

@[simp] theorem putDec_hostOut (s : State) (i : Nat) (x : Byte) : (s.putDec i x).hostOut = s.hostOut := rfl

@[simp] theorem putDec_inAt (s : State) (i : Nat) (x : Byte) (i' : Nat) : (s.putDec i x).inAt i' = s.inAt i' := rfl

@[simp] theorem putDec_freqAt (s : State) (i : Nat) (x : Byte) (x' : Byte) : (s.putDec i x).freqAt x' = s.freqAt x' := rfl

@[simp] theorem putDec_nodeAt (s : State) (i : Nat) (x : Byte) (k : Nat) : (s.putDec i x).nodeAt k = s.nodeAt k := rfl

@[simp] theorem putDec_codeLenAt (s : State) (i : Nat) (x : Byte) (x' : Byte) : (s.putDec i x).codeLenAt x' = s.codeLenAt x' := rfl

@[simp] theorem putDec_codeWordAt (s : State) (i : Nat) (x : Byte) (i' : Nat) : (s.putDec i x).codeWordAt i' = s.codeWordAt i' := rfl

@[simp] theorem putDec_encAt (s : State) (i : Nat) (x : Byte) (p : Nat) : (s.putDec i x).encAt p = s.encAt p := rfl

@[simp] theorem putDec_pkAt (s : State) (i : Nat) (x : Byte) (i' : Nat) : (s.putDec i x).pkAt i' = s.pkAt i' := rfl

@[simp] theorem putDec_code (s : State) (i : Nat) (x : Byte) (x' : Byte) : (s.putDec i x).code x' = s.code x' := rfl

@[simp] theorem putDec_matchCode (s : State) (i : Nat) (x : Byte) (c : List Bool) : (s.putDec i x).matchCode c = s.matchCode c := rfl

@[simp] theorem putDec_input (s : State) (i : Nat) (x : Byte) : (s.putDec i x).input = s.input := rfl

/-! ### complete -/

@[simp] theorem complete_cfg (s : State) : (s.complete).cfg = s.cfg := rfl

@[simp] theorem complete_busy (s : State) : (s.complete).busy = false := rfl

@[simp] theorem complete_empty (s : State) : (s.complete).empty = s.empty := rfl

@[simp] theorem complete_pending (s : State) : (s.complete).pending = s.pending := rfl

@[simp] theorem complete_errCode (s : State) : (s.complete).errCode = s.errCode := rfl

@[simp] theorem complete_errInfo (s : State) : (s.complete).errInfo = s.errInfo := rfl

@[simp] theorem complete_inLen (s : State) : (s.complete).inLen = s.inLen := rfl

@[simp] theorem complete_nNodes (s : State) : (s.complete).nNodes = s.nNodes := rfl

@[simp] theorem complete_root (s : State) : (s.complete).root = s.root := rfl

@[simp] theorem complete_encLen (s : State) : (s.complete).encLen = s.encLen := rfl

@[simp] theorem complete_pkLen (s : State) : (s.complete).pkLen = s.pkLen := rfl

@[simp] theorem complete_decLen (s : State) : (s.complete).decLen = s.decLen := rfl

@[simp] theorem complete_inMem (s : State) : (s.complete).inMem = s.inMem := rfl

@[simp] theorem complete_freq (s : State) : (s.complete).freq = s.freq := rfl

@[simp] theorem complete_node (s : State) : (s.complete).node = s.node := rfl

@[simp] theorem complete_codeLen (s : State) : (s.complete).codeLen = s.codeLen := rfl

@[simp] theorem complete_codeBits (s : State) : (s.complete).codeBits = s.codeBits := rfl

@[simp] theorem complete_enc (s : State) : (s.complete).enc = s.enc := rfl

@[simp] theorem complete_pk (s : State) : (s.complete).pk = s.pk := rfl

@[simp] theorem complete_dec (s : State) : (s.complete).dec = s.dec := rfl

@[simp] theorem complete_epoch (s : State) : (s.complete).epoch = s.epoch := rfl

@[simp] theorem complete_hostIn (s : State) : (s.complete).hostIn = s.hostIn := rfl

@[simp] theorem complete_hostOut (s : State) : (s.complete).hostOut = s.hostOut := rfl

@[simp] theorem complete_inAt (s : State) (i : Nat) : (s.complete).inAt i = s.inAt i := rfl

@[simp] theorem complete_freqAt (s : State) (x : Byte) : (s.complete).freqAt x = s.freqAt x := rfl

@[simp] theorem complete_nodeAt (s : State) (k : Nat) : (s.complete).nodeAt k = s.nodeAt k := rfl

@[simp] theorem complete_codeLenAt (s : State) (x : Byte) : (s.complete).codeLenAt x = s.codeLenAt x := rfl

@[simp] theorem complete_codeWordAt (s : State) (i : Nat) : (s.complete).codeWordAt i = s.codeWordAt i := rfl

@[simp] theorem complete_encAt (s : State) (p : Nat) : (s.complete).encAt p = s.encAt p := rfl

@[simp] theorem complete_pkAt (s : State) (i : Nat) : (s.complete).pkAt i = s.pkAt i := rfl

@[simp] theorem complete_decAt (s : State) (i : Nat) : (s.complete).decAt i = s.decAt i := rfl

@[simp] theorem complete_code (s : State) (x : Byte) : (s.complete).code x = s.code x := rfl

@[simp] theorem complete_matchCode (s : State) (c : List Bool) : (s.complete).matchCode c = s.matchCode c := rfl

@[simp] theorem complete_input (s : State) : (s.complete).input = s.input := rfl

/-! ### clearError -/

@[simp] theorem clearError_cfg (s : State) : (s.clearError).cfg = s.cfg := rfl

@[simp] theorem clearError_busy (s : State) : (s.clearError).busy = s.busy := rfl

@[simp] theorem clearError_empty (s : State) : (s.clearError).empty = s.empty := rfl

@[simp] theorem clearError_pending (s : State) : (s.clearError).pending = s.pending := rfl

@[simp] theorem clearError_errCode (s : State) : (s.clearError).errCode = none := rfl

@[simp] theorem clearError_errInfo (s : State) : (s.clearError).errInfo = 0#32 := rfl

@[simp] theorem clearError_inLen (s : State) : (s.clearError).inLen = s.inLen := rfl

@[simp] theorem clearError_nNodes (s : State) : (s.clearError).nNodes = s.nNodes := rfl

@[simp] theorem clearError_root (s : State) : (s.clearError).root = s.root := rfl

@[simp] theorem clearError_encLen (s : State) : (s.clearError).encLen = s.encLen := rfl

@[simp] theorem clearError_pkLen (s : State) : (s.clearError).pkLen = s.pkLen := rfl

@[simp] theorem clearError_decLen (s : State) : (s.clearError).decLen = s.decLen := rfl

@[simp] theorem clearError_inMem (s : State) : (s.clearError).inMem = s.inMem := rfl

@[simp] theorem clearError_freq (s : State) : (s.clearError).freq = s.freq := rfl

@[simp] theorem clearError_node (s : State) : (s.clearError).node = s.node := rfl

@[simp] theorem clearError_codeLen (s : State) : (s.clearError).codeLen = s.codeLen := rfl

@[simp] theorem clearError_codeBits (s : State) : (s.clearError).codeBits = s.codeBits := rfl

@[simp] theorem clearError_enc (s : State) : (s.clearError).enc = s.enc := rfl

@[simp] theorem clearError_pk (s : State) : (s.clearError).pk = s.pk := rfl

@[simp] theorem clearError_dec (s : State) : (s.clearError).dec = s.dec := rfl

@[simp] theorem clearError_epoch (s : State) : (s.clearError).epoch = s.epoch := rfl

@[simp] theorem clearError_hostIn (s : State) : (s.clearError).hostIn = s.hostIn := rfl

@[simp] theorem clearError_hostOut (s : State) : (s.clearError).hostOut = s.hostOut := rfl

@[simp] theorem clearError_inAt (s : State) (i : Nat) : (s.clearError).inAt i = s.inAt i := rfl

@[simp] theorem clearError_freqAt (s : State) (x : Byte) : (s.clearError).freqAt x = s.freqAt x := rfl

@[simp] theorem clearError_nodeAt (s : State) (k : Nat) : (s.clearError).nodeAt k = s.nodeAt k := rfl

@[simp] theorem clearError_codeLenAt (s : State) (x : Byte) : (s.clearError).codeLenAt x = s.codeLenAt x := rfl

@[simp] theorem clearError_codeWordAt (s : State) (i : Nat) : (s.clearError).codeWordAt i = s.codeWordAt i := rfl

@[simp] theorem clearError_encAt (s : State) (p : Nat) : (s.clearError).encAt p = s.encAt p := rfl

@[simp] theorem clearError_pkAt (s : State) (i : Nat) : (s.clearError).pkAt i = s.pkAt i := rfl

@[simp] theorem clearError_decAt (s : State) (i : Nat) : (s.clearError).decAt i = s.decAt i := rfl

@[simp] theorem clearError_code (s : State) (x : Byte) : (s.clearError).code x = s.code x := rfl

@[simp] theorem clearError_matchCode (s : State) (c : List Bool) : (s.clearError).matchCode c = s.matchCode c := rfl

@[simp] theorem clearError_input (s : State) : (s.clearError).input = s.input := rfl

/-! ### softReset -/

@[simp] theorem softReset_cfg (s : State) : (s.softReset).cfg = s.cfg := rfl

@[simp] theorem softReset_busy (s : State) : (s.softReset).busy = s.busy := rfl

@[simp] theorem softReset_empty (s : State) : (s.softReset).empty = false := rfl

@[simp] theorem softReset_pending (s : State) : (s.softReset).pending = 0#32 := rfl

@[simp] theorem softReset_errCode (s : State) : (s.softReset).errCode = none := rfl

@[simp] theorem softReset_errInfo (s : State) : (s.softReset).errInfo = 0#32 := rfl

@[simp] theorem softReset_inLen (s : State) : (s.softReset).inLen = 0#32 := rfl

@[simp] theorem softReset_nNodes (s : State) : (s.softReset).nNodes = 0#32 := rfl

@[simp] theorem softReset_root (s : State) : (s.softReset).root = nilHandle := rfl

@[simp] theorem softReset_encLen (s : State) : (s.softReset).encLen = 0#32 := rfl

@[simp] theorem softReset_pkLen (s : State) : (s.softReset).pkLen = 0#32 := rfl

@[simp] theorem softReset_decLen (s : State) : (s.softReset).decLen = 0#32 := rfl

@[simp] theorem softReset_inMem (s : State) : (s.softReset).inMem = s.inMem := rfl

@[simp] theorem softReset_freq (s : State) : (s.softReset).freq = Vector.replicate 256 0#24 := rfl

@[simp] theorem softReset_node (s : State) : (s.softReset).node = s.node := rfl

@[simp] theorem softReset_codeLen (s : State) : (s.softReset).codeLen = Vector.replicate 256 0#8 := rfl

@[simp] theorem softReset_codeBits (s : State) : (s.softReset).codeBits = s.codeBits := rfl

@[simp] theorem softReset_enc (s : State) : (s.softReset).enc = s.enc := rfl

@[simp] theorem softReset_pk (s : State) : (s.softReset).pk = s.pk := rfl

@[simp] theorem softReset_dec (s : State) : (s.softReset).dec = s.dec := rfl

@[simp] theorem softReset_epoch (s : State) : (s.softReset).epoch = s.epoch := rfl

@[simp] theorem softReset_hostIn (s : State) : (s.softReset).hostIn = s.hostIn := rfl

@[simp] theorem softReset_hostOut (s : State) : (s.softReset).hostOut = s.hostOut := rfl

@[simp] theorem softReset_inAt (s : State) (i : Nat) : (s.softReset).inAt i = s.inAt i := rfl

@[simp] theorem softReset_nodeAt (s : State) (k : Nat) : (s.softReset).nodeAt k = s.nodeAt k := rfl

@[simp] theorem softReset_codeWordAt (s : State) (i : Nat) : (s.softReset).codeWordAt i = s.codeWordAt i := rfl

@[simp] theorem softReset_encAt (s : State) (p : Nat) : (s.softReset).encAt p = s.encAt p := rfl

@[simp] theorem softReset_pkAt (s : State) (i : Nat) : (s.softReset).pkAt i = s.pkAt i := rfl

@[simp] theorem softReset_decAt (s : State) (i : Nat) : (s.softReset).decAt i = s.decAt i := rfl

/-! ### hardReset -/

@[simp] theorem hardReset_cfg (s : State) : (s.hardReset).cfg = s.cfg := rfl

@[simp] theorem hardReset_busy (s : State) : (s.hardReset).busy = false := rfl

@[simp] theorem hardReset_empty (s : State) : (s.hardReset).empty = false := rfl

@[simp] theorem hardReset_pending (s : State) : (s.hardReset).pending = 0#32 := rfl

@[simp] theorem hardReset_errCode (s : State) : (s.hardReset).errCode = none := rfl

@[simp] theorem hardReset_errInfo (s : State) : (s.hardReset).errInfo = 0#32 := rfl

@[simp] theorem hardReset_inLen (s : State) : (s.hardReset).inLen = 0#32 := rfl

@[simp] theorem hardReset_nNodes (s : State) : (s.hardReset).nNodes = 0#32 := rfl

@[simp] theorem hardReset_root (s : State) : (s.hardReset).root = nilHandle := rfl

@[simp] theorem hardReset_encLen (s : State) : (s.hardReset).encLen = 0#32 := rfl

@[simp] theorem hardReset_pkLen (s : State) : (s.hardReset).pkLen = 0#32 := rfl

@[simp] theorem hardReset_decLen (s : State) : (s.hardReset).decLen = 0#32 := rfl

@[simp] theorem hardReset_inMem (s : State) : (s.hardReset).inMem = [] := rfl

@[simp] theorem hardReset_freq (s : State) : (s.hardReset).freq = Vector.replicate 256 0#24 := rfl

@[simp] theorem hardReset_node (s : State) : (s.hardReset).node = [] := rfl

@[simp] theorem hardReset_codeLen (s : State) : (s.hardReset).codeLen = Vector.replicate 256 0#8 := rfl

@[simp] theorem hardReset_codeBits (s : State) : (s.hardReset).codeBits = [] := rfl

@[simp] theorem hardReset_enc (s : State) : (s.hardReset).enc = [] := rfl

@[simp] theorem hardReset_pk (s : State) : (s.hardReset).pk = [] := rfl

@[simp] theorem hardReset_dec (s : State) : (s.hardReset).dec = [] := rfl

@[simp] theorem hardReset_epoch (s : State) : (s.hardReset).epoch = s.epoch + 1 := rfl

@[simp] theorem hardReset_hostIn (s : State) : (s.hardReset).hostIn = s.hostIn := rfl

@[simp] theorem hardReset_hostOut (s : State) : (s.hardReset).hostOut = s.hostOut := rfl

/-! ### clearCodes -/

@[simp] theorem clearCodes_cfg (s : State) : (s.clearCodes).cfg = s.cfg := rfl

@[simp] theorem clearCodes_busy (s : State) : (s.clearCodes).busy = s.busy := rfl

@[simp] theorem clearCodes_empty (s : State) : (s.clearCodes).empty = s.empty := rfl

@[simp] theorem clearCodes_pending (s : State) : (s.clearCodes).pending = s.pending := rfl

@[simp] theorem clearCodes_errCode (s : State) : (s.clearCodes).errCode = s.errCode := rfl

@[simp] theorem clearCodes_errInfo (s : State) : (s.clearCodes).errInfo = s.errInfo := rfl

@[simp] theorem clearCodes_inLen (s : State) : (s.clearCodes).inLen = s.inLen := rfl

@[simp] theorem clearCodes_nNodes (s : State) : (s.clearCodes).nNodes = s.nNodes := rfl

@[simp] theorem clearCodes_root (s : State) : (s.clearCodes).root = s.root := rfl

@[simp] theorem clearCodes_encLen (s : State) : (s.clearCodes).encLen = s.encLen := rfl

@[simp] theorem clearCodes_pkLen (s : State) : (s.clearCodes).pkLen = s.pkLen := rfl

@[simp] theorem clearCodes_decLen (s : State) : (s.clearCodes).decLen = s.decLen := rfl

@[simp] theorem clearCodes_inMem (s : State) : (s.clearCodes).inMem = s.inMem := rfl

@[simp] theorem clearCodes_freq (s : State) : (s.clearCodes).freq = s.freq := rfl

@[simp] theorem clearCodes_node (s : State) : (s.clearCodes).node = s.node := rfl

@[simp] theorem clearCodes_codeLen (s : State) : (s.clearCodes).codeLen = Vector.replicate 256 0#8 := rfl

@[simp] theorem clearCodes_codeBits (s : State) : (s.clearCodes).codeBits = zeroCodeWords := rfl

@[simp] theorem clearCodes_enc (s : State) : (s.clearCodes).enc = s.enc := rfl

@[simp] theorem clearCodes_pk (s : State) : (s.clearCodes).pk = s.pk := rfl

@[simp] theorem clearCodes_dec (s : State) : (s.clearCodes).dec = s.dec := rfl

@[simp] theorem clearCodes_epoch (s : State) : (s.clearCodes).epoch = s.epoch := rfl

@[simp] theorem clearCodes_hostIn (s : State) : (s.clearCodes).hostIn = s.hostIn := rfl

@[simp] theorem clearCodes_hostOut (s : State) : (s.clearCodes).hostOut = s.hostOut := rfl

@[simp] theorem clearCodes_inAt (s : State) (i : Nat) : (s.clearCodes).inAt i = s.inAt i := rfl

@[simp] theorem clearCodes_freqAt (s : State) (x : Byte) : (s.clearCodes).freqAt x = s.freqAt x := rfl

@[simp] theorem clearCodes_nodeAt (s : State) (k : Nat) : (s.clearCodes).nodeAt k = s.nodeAt k := rfl

@[simp] theorem clearCodes_encAt (s : State) (p : Nat) : (s.clearCodes).encAt p = s.encAt p := rfl

@[simp] theorem clearCodes_pkAt (s : State) (i : Nat) : (s.clearCodes).pkAt i = s.pkAt i := rfl

@[simp] theorem clearCodes_decAt (s : State) (i : Nat) : (s.clearCodes).decAt i = s.decAt i := rfl

@[simp] theorem clearCodes_input (s : State) : (s.clearCodes).input = s.input := rfl

/-! ### setCode -/

@[simp] theorem setCode_cfg (s : State) (x : Byte) (p : List Bool) : (s.setCode x p).cfg = s.cfg := rfl

@[simp] theorem setCode_busy (s : State) (x : Byte) (p : List Bool) : (s.setCode x p).busy = s.busy := rfl

@[simp] theorem setCode_empty (s : State) (x : Byte) (p : List Bool) : (s.setCode x p).empty = s.empty := rfl

@[simp] theorem setCode_pending (s : State) (x : Byte) (p : List Bool) : (s.setCode x p).pending = s.pending := rfl

@[simp] theorem setCode_errCode (s : State) (x : Byte) (p : List Bool) : (s.setCode x p).errCode = s.errCode := rfl

@[simp] theorem setCode_errInfo (s : State) (x : Byte) (p : List Bool) : (s.setCode x p).errInfo = s.errInfo := rfl

@[simp] theorem setCode_inLen (s : State) (x : Byte) (p : List Bool) : (s.setCode x p).inLen = s.inLen := rfl

@[simp] theorem setCode_nNodes (s : State) (x : Byte) (p : List Bool) : (s.setCode x p).nNodes = s.nNodes := rfl

@[simp] theorem setCode_root (s : State) (x : Byte) (p : List Bool) : (s.setCode x p).root = s.root := rfl

@[simp] theorem setCode_encLen (s : State) (x : Byte) (p : List Bool) : (s.setCode x p).encLen = s.encLen := rfl

@[simp] theorem setCode_pkLen (s : State) (x : Byte) (p : List Bool) : (s.setCode x p).pkLen = s.pkLen := rfl

@[simp] theorem setCode_decLen (s : State) (x : Byte) (p : List Bool) : (s.setCode x p).decLen = s.decLen := rfl

@[simp] theorem setCode_inMem (s : State) (x : Byte) (p : List Bool) : (s.setCode x p).inMem = s.inMem := rfl

@[simp] theorem setCode_freq (s : State) (x : Byte) (p : List Bool) : (s.setCode x p).freq = s.freq := rfl

@[simp] theorem setCode_node (s : State) (x : Byte) (p : List Bool) : (s.setCode x p).node = s.node := rfl

@[simp] theorem setCode_codeLen (s : State) (x : Byte) (p : List Bool) : (s.setCode x p).codeLen = s.codeLen.set x.toNat (BitVec.ofNat 8 p.length) x.isLt := rfl

@[simp] theorem setCode_codeBits (s : State) (x : Byte) (p : List Bool) : (s.setCode x p).codeBits = s.codeBits.putList (8 * x.toNat) (codeWords p) := rfl

@[simp] theorem setCode_enc (s : State) (x : Byte) (p : List Bool) : (s.setCode x p).enc = s.enc := rfl

@[simp] theorem setCode_pk (s : State) (x : Byte) (p : List Bool) : (s.setCode x p).pk = s.pk := rfl

@[simp] theorem setCode_dec (s : State) (x : Byte) (p : List Bool) : (s.setCode x p).dec = s.dec := rfl

@[simp] theorem setCode_epoch (s : State) (x : Byte) (p : List Bool) : (s.setCode x p).epoch = s.epoch := rfl

@[simp] theorem setCode_hostIn (s : State) (x : Byte) (p : List Bool) : (s.setCode x p).hostIn = s.hostIn := rfl

@[simp] theorem setCode_hostOut (s : State) (x : Byte) (p : List Bool) : (s.setCode x p).hostOut = s.hostOut := rfl

@[simp] theorem setCode_inAt (s : State) (x : Byte) (p : List Bool) (i : Nat) : (s.setCode x p).inAt i = s.inAt i := rfl

@[simp] theorem setCode_freqAt (s : State) (x : Byte) (p : List Bool) (x' : Byte) : (s.setCode x p).freqAt x' = s.freqAt x' := rfl

@[simp] theorem setCode_nodeAt (s : State) (x : Byte) (p : List Bool) (k : Nat) : (s.setCode x p).nodeAt k = s.nodeAt k := rfl

@[simp] theorem setCode_encAt (s : State) (x : Byte) (p : List Bool) (p' : Nat) : (s.setCode x p).encAt p' = s.encAt p' := rfl

@[simp] theorem setCode_pkAt (s : State) (x : Byte) (p : List Bool) (i : Nat) : (s.setCode x p).pkAt i = s.pkAt i := rfl

@[simp] theorem setCode_decAt (s : State) (x : Byte) (p : List Bool) (i : Nat) : (s.setCode x p).decAt i = s.decAt i := rfl

@[simp] theorem setCode_input (s : State) (x : Byte) (p : List Bool) : (s.setCode x p).input = s.input := rfl

/-! ### setEmpty -/

@[simp] theorem setEmpty_cfg (s : State) (b : Bool) : (s.setEmpty b).cfg = s.cfg := rfl

@[simp] theorem setEmpty_busy (s : State) (b : Bool) : (s.setEmpty b).busy = s.busy := rfl

@[simp] theorem setEmpty_empty (s : State) (b : Bool) : (s.setEmpty b).empty = b := rfl

@[simp] theorem setEmpty_pending (s : State) (b : Bool) : (s.setEmpty b).pending = s.pending := rfl

@[simp] theorem setEmpty_errCode (s : State) (b : Bool) : (s.setEmpty b).errCode = s.errCode := rfl

@[simp] theorem setEmpty_errInfo (s : State) (b : Bool) : (s.setEmpty b).errInfo = s.errInfo := rfl

@[simp] theorem setEmpty_inLen (s : State) (b : Bool) : (s.setEmpty b).inLen = s.inLen := rfl

@[simp] theorem setEmpty_nNodes (s : State) (b : Bool) : (s.setEmpty b).nNodes = s.nNodes := rfl

@[simp] theorem setEmpty_root (s : State) (b : Bool) : (s.setEmpty b).root = s.root := rfl

@[simp] theorem setEmpty_encLen (s : State) (b : Bool) : (s.setEmpty b).encLen = s.encLen := rfl

@[simp] theorem setEmpty_pkLen (s : State) (b : Bool) : (s.setEmpty b).pkLen = s.pkLen := rfl

@[simp] theorem setEmpty_decLen (s : State) (b : Bool) : (s.setEmpty b).decLen = s.decLen := rfl

@[simp] theorem setEmpty_inMem (s : State) (b : Bool) : (s.setEmpty b).inMem = s.inMem := rfl

@[simp] theorem setEmpty_freq (s : State) (b : Bool) : (s.setEmpty b).freq = s.freq := rfl

@[simp] theorem setEmpty_node (s : State) (b : Bool) : (s.setEmpty b).node = s.node := rfl

@[simp] theorem setEmpty_codeLen (s : State) (b : Bool) : (s.setEmpty b).codeLen = s.codeLen := rfl

@[simp] theorem setEmpty_codeBits (s : State) (b : Bool) : (s.setEmpty b).codeBits = s.codeBits := rfl

@[simp] theorem setEmpty_enc (s : State) (b : Bool) : (s.setEmpty b).enc = s.enc := rfl

@[simp] theorem setEmpty_pk (s : State) (b : Bool) : (s.setEmpty b).pk = s.pk := rfl

@[simp] theorem setEmpty_dec (s : State) (b : Bool) : (s.setEmpty b).dec = s.dec := rfl

@[simp] theorem setEmpty_epoch (s : State) (b : Bool) : (s.setEmpty b).epoch = s.epoch := rfl

@[simp] theorem setEmpty_hostIn (s : State) (b : Bool) : (s.setEmpty b).hostIn = s.hostIn := rfl

@[simp] theorem setEmpty_hostOut (s : State) (b : Bool) : (s.setEmpty b).hostOut = s.hostOut := rfl

@[simp] theorem setEmpty_inAt (s : State) (b : Bool) (i : Nat) : (s.setEmpty b).inAt i = s.inAt i := rfl

@[simp] theorem setEmpty_freqAt (s : State) (b : Bool) (x : Byte) : (s.setEmpty b).freqAt x = s.freqAt x := rfl

@[simp] theorem setEmpty_nodeAt (s : State) (b : Bool) (k : Nat) : (s.setEmpty b).nodeAt k = s.nodeAt k := rfl

@[simp] theorem setEmpty_codeLenAt (s : State) (b : Bool) (x : Byte) : (s.setEmpty b).codeLenAt x = s.codeLenAt x := rfl

@[simp] theorem setEmpty_codeWordAt (s : State) (b : Bool) (i : Nat) : (s.setEmpty b).codeWordAt i = s.codeWordAt i := rfl

@[simp] theorem setEmpty_encAt (s : State) (b : Bool) (p : Nat) : (s.setEmpty b).encAt p = s.encAt p := rfl

@[simp] theorem setEmpty_pkAt (s : State) (b : Bool) (i : Nat) : (s.setEmpty b).pkAt i = s.pkAt i := rfl

@[simp] theorem setEmpty_decAt (s : State) (b : Bool) (i : Nat) : (s.setEmpty b).decAt i = s.decAt i := rfl

@[simp] theorem setEmpty_code (s : State) (b : Bool) (x : Byte) : (s.setEmpty b).code x = s.code x := rfl

@[simp] theorem setEmpty_matchCode (s : State) (b : Bool) (c : List Bool) : (s.setEmpty b).matchCode c = s.matchCode c := rfl

@[simp] theorem setEmpty_input (s : State) (b : Bool) : (s.setEmpty b).input = s.input := rfl

/-! ### setEncLen -/

@[simp] theorem setEncLen_cfg (s : State) (e : Nat) : (s.setEncLen e).cfg = s.cfg := rfl

@[simp] theorem setEncLen_busy (s : State) (e : Nat) : (s.setEncLen e).busy = s.busy := rfl

@[simp] theorem setEncLen_empty (s : State) (e : Nat) : (s.setEncLen e).empty = s.empty := rfl

@[simp] theorem setEncLen_pending (s : State) (e : Nat) : (s.setEncLen e).pending = s.pending := rfl

@[simp] theorem setEncLen_errCode (s : State) (e : Nat) : (s.setEncLen e).errCode = s.errCode := rfl

@[simp] theorem setEncLen_errInfo (s : State) (e : Nat) : (s.setEncLen e).errInfo = s.errInfo := rfl

@[simp] theorem setEncLen_inLen (s : State) (e : Nat) : (s.setEncLen e).inLen = s.inLen := rfl

@[simp] theorem setEncLen_nNodes (s : State) (e : Nat) : (s.setEncLen e).nNodes = s.nNodes := rfl

@[simp] theorem setEncLen_root (s : State) (e : Nat) : (s.setEncLen e).root = s.root := rfl

@[simp] theorem setEncLen_encLen (s : State) (e : Nat) : (s.setEncLen e).encLen = BitVec.ofNat 32 e := rfl

@[simp] theorem setEncLen_pkLen (s : State) (e : Nat) : (s.setEncLen e).pkLen = s.pkLen := rfl

@[simp] theorem setEncLen_decLen (s : State) (e : Nat) : (s.setEncLen e).decLen = s.decLen := rfl

@[simp] theorem setEncLen_inMem (s : State) (e : Nat) : (s.setEncLen e).inMem = s.inMem := rfl

@[simp] theorem setEncLen_freq (s : State) (e : Nat) : (s.setEncLen e).freq = s.freq := rfl

@[simp] theorem setEncLen_node (s : State) (e : Nat) : (s.setEncLen e).node = s.node := rfl

@[simp] theorem setEncLen_codeLen (s : State) (e : Nat) : (s.setEncLen e).codeLen = s.codeLen := rfl

@[simp] theorem setEncLen_codeBits (s : State) (e : Nat) : (s.setEncLen e).codeBits = s.codeBits := rfl

@[simp] theorem setEncLen_enc (s : State) (e : Nat) : (s.setEncLen e).enc = s.enc := rfl

@[simp] theorem setEncLen_pk (s : State) (e : Nat) : (s.setEncLen e).pk = s.pk := rfl

@[simp] theorem setEncLen_dec (s : State) (e : Nat) : (s.setEncLen e).dec = s.dec := rfl

@[simp] theorem setEncLen_epoch (s : State) (e : Nat) : (s.setEncLen e).epoch = s.epoch := rfl

@[simp] theorem setEncLen_hostIn (s : State) (e : Nat) : (s.setEncLen e).hostIn = s.hostIn := rfl

@[simp] theorem setEncLen_hostOut (s : State) (e : Nat) : (s.setEncLen e).hostOut = s.hostOut := rfl

@[simp] theorem setEncLen_inAt (s : State) (e : Nat) (i : Nat) : (s.setEncLen e).inAt i = s.inAt i := rfl

@[simp] theorem setEncLen_freqAt (s : State) (e : Nat) (x : Byte) : (s.setEncLen e).freqAt x = s.freqAt x := rfl

@[simp] theorem setEncLen_nodeAt (s : State) (e : Nat) (k : Nat) : (s.setEncLen e).nodeAt k = s.nodeAt k := rfl

@[simp] theorem setEncLen_codeLenAt (s : State) (e : Nat) (x : Byte) : (s.setEncLen e).codeLenAt x = s.codeLenAt x := rfl

@[simp] theorem setEncLen_codeWordAt (s : State) (e : Nat) (i : Nat) : (s.setEncLen e).codeWordAt i = s.codeWordAt i := rfl

@[simp] theorem setEncLen_encAt (s : State) (e : Nat) (p : Nat) : (s.setEncLen e).encAt p = s.encAt p := rfl

@[simp] theorem setEncLen_pkAt (s : State) (e : Nat) (i : Nat) : (s.setEncLen e).pkAt i = s.pkAt i := rfl

@[simp] theorem setEncLen_decAt (s : State) (e : Nat) (i : Nat) : (s.setEncLen e).decAt i = s.decAt i := rfl

@[simp] theorem setEncLen_code (s : State) (e : Nat) (x : Byte) : (s.setEncLen e).code x = s.code x := rfl

@[simp] theorem setEncLen_matchCode (s : State) (e : Nat) (c : List Bool) : (s.setEncLen e).matchCode c = s.matchCode c := rfl

@[simp] theorem setEncLen_input (s : State) (e : Nat) : (s.setEncLen e).input = s.input := rfl

/-! ### setDecLen -/

@[simp] theorem setDecLen_cfg (s : State) (d : Nat) : (s.setDecLen d).cfg = s.cfg := rfl

@[simp] theorem setDecLen_busy (s : State) (d : Nat) : (s.setDecLen d).busy = s.busy := rfl

@[simp] theorem setDecLen_empty (s : State) (d : Nat) : (s.setDecLen d).empty = s.empty := rfl

@[simp] theorem setDecLen_pending (s : State) (d : Nat) : (s.setDecLen d).pending = s.pending := rfl

@[simp] theorem setDecLen_errCode (s : State) (d : Nat) : (s.setDecLen d).errCode = s.errCode := rfl

@[simp] theorem setDecLen_errInfo (s : State) (d : Nat) : (s.setDecLen d).errInfo = s.errInfo := rfl

@[simp] theorem setDecLen_inLen (s : State) (d : Nat) : (s.setDecLen d).inLen = s.inLen := rfl

@[simp] theorem setDecLen_nNodes (s : State) (d : Nat) : (s.setDecLen d).nNodes = s.nNodes := rfl

@[simp] theorem setDecLen_root (s : State) (d : Nat) : (s.setDecLen d).root = s.root := rfl

@[simp] theorem setDecLen_encLen (s : State) (d : Nat) : (s.setDecLen d).encLen = s.encLen := rfl

@[simp] theorem setDecLen_pkLen (s : State) (d : Nat) : (s.setDecLen d).pkLen = s.pkLen := rfl

@[simp] theorem setDecLen_decLen (s : State) (d : Nat) : (s.setDecLen d).decLen = BitVec.ofNat 32 d := rfl

@[simp] theorem setDecLen_inMem (s : State) (d : Nat) : (s.setDecLen d).inMem = s.inMem := rfl

@[simp] theorem setDecLen_freq (s : State) (d : Nat) : (s.setDecLen d).freq = s.freq := rfl

@[simp] theorem setDecLen_node (s : State) (d : Nat) : (s.setDecLen d).node = s.node := rfl

@[simp] theorem setDecLen_codeLen (s : State) (d : Nat) : (s.setDecLen d).codeLen = s.codeLen := rfl

@[simp] theorem setDecLen_codeBits (s : State) (d : Nat) : (s.setDecLen d).codeBits = s.codeBits := rfl

@[simp] theorem setDecLen_enc (s : State) (d : Nat) : (s.setDecLen d).enc = s.enc := rfl

@[simp] theorem setDecLen_pk (s : State) (d : Nat) : (s.setDecLen d).pk = s.pk := rfl

@[simp] theorem setDecLen_dec (s : State) (d : Nat) : (s.setDecLen d).dec = s.dec := rfl

@[simp] theorem setDecLen_epoch (s : State) (d : Nat) : (s.setDecLen d).epoch = s.epoch := rfl

@[simp] theorem setDecLen_hostIn (s : State) (d : Nat) : (s.setDecLen d).hostIn = s.hostIn := rfl

@[simp] theorem setDecLen_hostOut (s : State) (d : Nat) : (s.setDecLen d).hostOut = s.hostOut := rfl

@[simp] theorem setDecLen_inAt (s : State) (d : Nat) (i : Nat) : (s.setDecLen d).inAt i = s.inAt i := rfl

@[simp] theorem setDecLen_freqAt (s : State) (d : Nat) (x : Byte) : (s.setDecLen d).freqAt x = s.freqAt x := rfl

@[simp] theorem setDecLen_nodeAt (s : State) (d : Nat) (k : Nat) : (s.setDecLen d).nodeAt k = s.nodeAt k := rfl

@[simp] theorem setDecLen_codeLenAt (s : State) (d : Nat) (x : Byte) : (s.setDecLen d).codeLenAt x = s.codeLenAt x := rfl

@[simp] theorem setDecLen_codeWordAt (s : State) (d : Nat) (i : Nat) : (s.setDecLen d).codeWordAt i = s.codeWordAt i := rfl

@[simp] theorem setDecLen_encAt (s : State) (d : Nat) (p : Nat) : (s.setDecLen d).encAt p = s.encAt p := rfl

@[simp] theorem setDecLen_pkAt (s : State) (d : Nat) (i : Nat) : (s.setDecLen d).pkAt i = s.pkAt i := rfl

@[simp] theorem setDecLen_decAt (s : State) (d : Nat) (i : Nat) : (s.setDecLen d).decAt i = s.decAt i := rfl

@[simp] theorem setDecLen_code (s : State) (d : Nat) (x : Byte) : (s.setDecLen d).code x = s.code x := rfl

@[simp] theorem setDecLen_matchCode (s : State) (d : Nat) (c : List Bool) : (s.setDecLen d).matchCode c = s.matchCode c := rfl

@[simp] theorem setDecLen_input (s : State) (d : Nat) : (s.setDecLen d).input = s.input := rfl

/-! ### acceptCommand -/

@[simp] theorem acceptCommand_cfg (s : State) (w : Word) : (acceptCommand s w).cfg = s.cfg := rfl

@[simp] theorem acceptCommand_busy (s : State) (w : Word) : (acceptCommand s w).busy = true := rfl

@[simp] theorem acceptCommand_empty (s : State) (w : Word) : (acceptCommand s w).empty = s.empty := rfl

@[simp] theorem acceptCommand_pending (s : State) (w : Word) : (acceptCommand s w).pending = w := rfl

@[simp] theorem acceptCommand_errCode (s : State) (w : Word) : (acceptCommand s w).errCode = s.errCode := rfl

@[simp] theorem acceptCommand_errInfo (s : State) (w : Word) : (acceptCommand s w).errInfo = s.errInfo := rfl

@[simp] theorem acceptCommand_inLen (s : State) (w : Word) : (acceptCommand s w).inLen = s.inLen := rfl

@[simp] theorem acceptCommand_nNodes (s : State) (w : Word) : (acceptCommand s w).nNodes = s.nNodes := rfl

@[simp] theorem acceptCommand_root (s : State) (w : Word) : (acceptCommand s w).root = s.root := rfl

@[simp] theorem acceptCommand_encLen (s : State) (w : Word) : (acceptCommand s w).encLen = s.encLen := rfl

@[simp] theorem acceptCommand_pkLen (s : State) (w : Word) : (acceptCommand s w).pkLen = s.pkLen := rfl

@[simp] theorem acceptCommand_decLen (s : State) (w : Word) : (acceptCommand s w).decLen = s.decLen := rfl

@[simp] theorem acceptCommand_inMem (s : State) (w : Word) : (acceptCommand s w).inMem = s.inMem := rfl

@[simp] theorem acceptCommand_freq (s : State) (w : Word) : (acceptCommand s w).freq = s.freq := rfl

@[simp] theorem acceptCommand_node (s : State) (w : Word) : (acceptCommand s w).node = s.node := rfl

@[simp] theorem acceptCommand_codeLen (s : State) (w : Word) : (acceptCommand s w).codeLen = s.codeLen := rfl

@[simp] theorem acceptCommand_codeBits (s : State) (w : Word) : (acceptCommand s w).codeBits = s.codeBits := rfl

@[simp] theorem acceptCommand_enc (s : State) (w : Word) : (acceptCommand s w).enc = s.enc := rfl

@[simp] theorem acceptCommand_pk (s : State) (w : Word) : (acceptCommand s w).pk = s.pk := rfl

@[simp] theorem acceptCommand_dec (s : State) (w : Word) : (acceptCommand s w).dec = s.dec := rfl

@[simp] theorem acceptCommand_epoch (s : State) (w : Word) : (acceptCommand s w).epoch = s.epoch := rfl

@[simp] theorem acceptCommand_hostIn (s : State) (w : Word) : (acceptCommand s w).hostIn = s.hostIn := rfl

@[simp] theorem acceptCommand_hostOut (s : State) (w : Word) : (acceptCommand s w).hostOut = s.hostOut := rfl

@[simp] theorem acceptCommand_inAt (s : State) (w : Word) (i : Nat) : (acceptCommand s w).inAt i = s.inAt i := rfl

@[simp] theorem acceptCommand_freqAt (s : State) (w : Word) (x : Byte) : (acceptCommand s w).freqAt x = s.freqAt x := rfl

@[simp] theorem acceptCommand_nodeAt (s : State) (w : Word) (k : Nat) : (acceptCommand s w).nodeAt k = s.nodeAt k := rfl

@[simp] theorem acceptCommand_codeLenAt (s : State) (w : Word) (x : Byte) : (acceptCommand s w).codeLenAt x = s.codeLenAt x := rfl

@[simp] theorem acceptCommand_codeWordAt (s : State) (w : Word) (i : Nat) : (acceptCommand s w).codeWordAt i = s.codeWordAt i := rfl

@[simp] theorem acceptCommand_encAt (s : State) (w : Word) (p : Nat) : (acceptCommand s w).encAt p = s.encAt p := rfl

@[simp] theorem acceptCommand_pkAt (s : State) (w : Word) (i : Nat) : (acceptCommand s w).pkAt i = s.pkAt i := rfl

@[simp] theorem acceptCommand_decAt (s : State) (w : Word) (i : Nat) : (acceptCommand s w).decAt i = s.decAt i := rfl

@[simp] theorem acceptCommand_code (s : State) (w : Word) (x : Byte) : (acceptCommand s w).code x = s.code x := rfl

@[simp] theorem acceptCommand_matchCode (s : State) (w : Word) (c : List Bool) : (acceptCommand s w).matchCode c = s.matchCode c := rfl

@[simp] theorem acceptCommand_input (s : State) (w : Word) : (acceptCommand s w).input = s.input := rfl

/-! ### answer -/

@[simp] theorem answer_cfg (s : State) (v : Word) : (s.answer v).cfg = s.cfg := rfl

@[simp] theorem answer_busy (s : State) (v : Word) : (s.answer v).busy = s.busy := rfl

@[simp] theorem answer_empty (s : State) (v : Word) : (s.answer v).empty = s.empty := rfl

@[simp] theorem answer_pending (s : State) (v : Word) : (s.answer v).pending = s.pending := rfl

@[simp] theorem answer_errCode (s : State) (v : Word) : (s.answer v).errCode = s.errCode := rfl

@[simp] theorem answer_errInfo (s : State) (v : Word) : (s.answer v).errInfo = s.errInfo := rfl

@[simp] theorem answer_inLen (s : State) (v : Word) : (s.answer v).inLen = s.inLen := rfl

@[simp] theorem answer_nNodes (s : State) (v : Word) : (s.answer v).nNodes = s.nNodes := rfl

@[simp] theorem answer_root (s : State) (v : Word) : (s.answer v).root = s.root := rfl

@[simp] theorem answer_encLen (s : State) (v : Word) : (s.answer v).encLen = s.encLen := rfl

@[simp] theorem answer_pkLen (s : State) (v : Word) : (s.answer v).pkLen = s.pkLen := rfl

@[simp] theorem answer_decLen (s : State) (v : Word) : (s.answer v).decLen = s.decLen := rfl

@[simp] theorem answer_inMem (s : State) (v : Word) : (s.answer v).inMem = s.inMem := rfl

@[simp] theorem answer_freq (s : State) (v : Word) : (s.answer v).freq = s.freq := rfl

@[simp] theorem answer_node (s : State) (v : Word) : (s.answer v).node = s.node := rfl

@[simp] theorem answer_codeLen (s : State) (v : Word) : (s.answer v).codeLen = s.codeLen := rfl

@[simp] theorem answer_codeBits (s : State) (v : Word) : (s.answer v).codeBits = s.codeBits := rfl

@[simp] theorem answer_enc (s : State) (v : Word) : (s.answer v).enc = s.enc := rfl

@[simp] theorem answer_pk (s : State) (v : Word) : (s.answer v).pk = s.pk := rfl

@[simp] theorem answer_dec (s : State) (v : Word) : (s.answer v).dec = s.dec := rfl

@[simp] theorem answer_epoch (s : State) (v : Word) : (s.answer v).epoch = s.epoch := rfl

@[simp] theorem answer_hostIn (s : State) (v : Word) : (s.answer v).hostIn = s.hostIn := rfl

@[simp] theorem answer_hostOut (s : State) (v : Word) : (s.answer v).hostOut = v :: s.hostOut := rfl

@[simp] theorem answer_inAt (s : State) (v : Word) (i : Nat) : (s.answer v).inAt i = s.inAt i := rfl

@[simp] theorem answer_freqAt (s : State) (v : Word) (x : Byte) : (s.answer v).freqAt x = s.freqAt x := rfl

@[simp] theorem answer_nodeAt (s : State) (v : Word) (k : Nat) : (s.answer v).nodeAt k = s.nodeAt k := rfl

@[simp] theorem answer_codeLenAt (s : State) (v : Word) (x : Byte) : (s.answer v).codeLenAt x = s.codeLenAt x := rfl

@[simp] theorem answer_codeWordAt (s : State) (v : Word) (i : Nat) : (s.answer v).codeWordAt i = s.codeWordAt i := rfl

@[simp] theorem answer_encAt (s : State) (v : Word) (p : Nat) : (s.answer v).encAt p = s.encAt p := rfl

@[simp] theorem answer_pkAt (s : State) (v : Word) (i : Nat) : (s.answer v).pkAt i = s.pkAt i := rfl

@[simp] theorem answer_decAt (s : State) (v : Word) (i : Nat) : (s.answer v).decAt i = s.decAt i := rfl

@[simp] theorem answer_code (s : State) (v : Word) (x : Byte) : (s.answer v).code x = s.code x := rfl

@[simp] theorem answer_matchCode (s : State) (v : Word) (c : List Bool) : (s.answer v).matchCode c = s.matchCode c := rfl

@[simp] theorem answer_input (s : State) (v : Word) : (s.answer v).input = s.input := rfl

/-! ### shortCircuit -/

@[simp] theorem shortCircuit_cfg (s : State) : (shortCircuit s).cfg = s.cfg := rfl

@[simp] theorem shortCircuit_busy (s : State) : (shortCircuit s).busy = s.busy := rfl

@[simp] theorem shortCircuit_empty (s : State) : (shortCircuit s).empty = true := rfl

@[simp] theorem shortCircuit_pending (s : State) : (shortCircuit s).pending = s.pending := rfl

@[simp] theorem shortCircuit_errCode (s : State) : (shortCircuit s).errCode = s.errCode := rfl

@[simp] theorem shortCircuit_errInfo (s : State) : (shortCircuit s).errInfo = s.errInfo := rfl

@[simp] theorem shortCircuit_inLen (s : State) : (shortCircuit s).inLen = s.inLen := rfl

@[simp] theorem shortCircuit_nNodes (s : State) : (shortCircuit s).nNodes = 0#32 := rfl

@[simp] theorem shortCircuit_root (s : State) : (shortCircuit s).root = nilHandle := rfl

@[simp] theorem shortCircuit_encLen (s : State) : (shortCircuit s).encLen = 0#32 := rfl

@[simp] theorem shortCircuit_pkLen (s : State) : (shortCircuit s).pkLen = 0#32 := rfl

@[simp] theorem shortCircuit_decLen (s : State) : (shortCircuit s).decLen = s.decLen := rfl

@[simp] theorem shortCircuit_inMem (s : State) : (shortCircuit s).inMem = s.inMem := rfl

@[simp] theorem shortCircuit_freq (s : State) : (shortCircuit s).freq = Vector.replicate 256 0#24 := rfl

@[simp] theorem shortCircuit_node (s : State) : (shortCircuit s).node = s.node := rfl

@[simp] theorem shortCircuit_codeLen (s : State) : (shortCircuit s).codeLen = Vector.replicate 256 0#8 := rfl

@[simp] theorem shortCircuit_codeBits (s : State) : (shortCircuit s).codeBits = zeroCodeWords := rfl

@[simp] theorem shortCircuit_enc (s : State) : (shortCircuit s).enc = s.enc := rfl

@[simp] theorem shortCircuit_pk (s : State) : (shortCircuit s).pk = s.pk := rfl

@[simp] theorem shortCircuit_dec (s : State) : (shortCircuit s).dec = s.dec := rfl

@[simp] theorem shortCircuit_epoch (s : State) : (shortCircuit s).epoch = s.epoch := rfl

@[simp] theorem shortCircuit_hostIn (s : State) : (shortCircuit s).hostIn = s.hostIn := rfl

@[simp] theorem shortCircuit_hostOut (s : State) : (shortCircuit s).hostOut = s.hostOut := rfl

@[simp] theorem shortCircuit_inAt (s : State) (i : Nat) : (shortCircuit s).inAt i = s.inAt i := rfl

@[simp] theorem shortCircuit_nodeAt (s : State) (k : Nat) : (shortCircuit s).nodeAt k = s.nodeAt k := rfl

@[simp] theorem shortCircuit_encAt (s : State) (p : Nat) : (shortCircuit s).encAt p = s.encAt p := rfl

@[simp] theorem shortCircuit_pkAt (s : State) (i : Nat) : (shortCircuit s).pkAt i = s.pkAt i := rfl

@[simp] theorem shortCircuit_decAt (s : State) (i : Nat) : (shortCircuit s).decAt i = s.decAt i := rfl

@[simp] theorem shortCircuit_input (s : State) : (shortCircuit s).input = s.input := rfl

/-! ### setTree -/

@[simp] theorem setTree_cfg (s : State) (queue : List Nat) (m : Nat) : (setTree queue m s).cfg = s.cfg := rfl

@[simp] theorem setTree_busy (s : State) (queue : List Nat) (m : Nat) : (setTree queue m s).busy = s.busy := rfl

@[simp] theorem setTree_empty (s : State) (queue : List Nat) (m : Nat) : (setTree queue m s).empty = s.empty := rfl

@[simp] theorem setTree_pending (s : State) (queue : List Nat) (m : Nat) : (setTree queue m s).pending = s.pending := rfl

@[simp] theorem setTree_errCode (s : State) (queue : List Nat) (m : Nat) : (setTree queue m s).errCode = s.errCode := rfl

@[simp] theorem setTree_errInfo (s : State) (queue : List Nat) (m : Nat) : (setTree queue m s).errInfo = s.errInfo := rfl

@[simp] theorem setTree_inLen (s : State) (queue : List Nat) (m : Nat) : (setTree queue m s).inLen = s.inLen := rfl

@[simp] theorem setTree_nNodes (s : State) (queue : List Nat) (m : Nat) : (setTree queue m s).nNodes = BitVec.ofNat 32 m := rfl

@[simp] theorem setTree_encLen (s : State) (queue : List Nat) (m : Nat) : (setTree queue m s).encLen = s.encLen := rfl

@[simp] theorem setTree_pkLen (s : State) (queue : List Nat) (m : Nat) : (setTree queue m s).pkLen = s.pkLen := rfl

@[simp] theorem setTree_decLen (s : State) (queue : List Nat) (m : Nat) : (setTree queue m s).decLen = s.decLen := rfl

@[simp] theorem setTree_inMem (s : State) (queue : List Nat) (m : Nat) : (setTree queue m s).inMem = s.inMem := rfl

@[simp] theorem setTree_freq (s : State) (queue : List Nat) (m : Nat) : (setTree queue m s).freq = s.freq := rfl

@[simp] theorem setTree_node (s : State) (queue : List Nat) (m : Nat) : (setTree queue m s).node = s.node := rfl

@[simp] theorem setTree_codeLen (s : State) (queue : List Nat) (m : Nat) : (setTree queue m s).codeLen = s.codeLen := rfl

@[simp] theorem setTree_codeBits (s : State) (queue : List Nat) (m : Nat) : (setTree queue m s).codeBits = s.codeBits := rfl

@[simp] theorem setTree_enc (s : State) (queue : List Nat) (m : Nat) : (setTree queue m s).enc = s.enc := rfl

@[simp] theorem setTree_pk (s : State) (queue : List Nat) (m : Nat) : (setTree queue m s).pk = s.pk := rfl

@[simp] theorem setTree_dec (s : State) (queue : List Nat) (m : Nat) : (setTree queue m s).dec = s.dec := rfl

@[simp] theorem setTree_epoch (s : State) (queue : List Nat) (m : Nat) : (setTree queue m s).epoch = s.epoch := rfl

@[simp] theorem setTree_hostIn (s : State) (queue : List Nat) (m : Nat) : (setTree queue m s).hostIn = s.hostIn := rfl

@[simp] theorem setTree_hostOut (s : State) (queue : List Nat) (m : Nat) : (setTree queue m s).hostOut = s.hostOut := rfl

@[simp] theorem setTree_inAt (s : State) (queue : List Nat) (m : Nat) (i : Nat) : (setTree queue m s).inAt i = s.inAt i := rfl

@[simp] theorem setTree_freqAt (s : State) (queue : List Nat) (m : Nat) (x : Byte) : (setTree queue m s).freqAt x = s.freqAt x := rfl

@[simp] theorem setTree_nodeAt (s : State) (queue : List Nat) (m : Nat) (k : Nat) : (setTree queue m s).nodeAt k = s.nodeAt k := rfl

@[simp] theorem setTree_codeLenAt (s : State) (queue : List Nat) (m : Nat) (x : Byte) : (setTree queue m s).codeLenAt x = s.codeLenAt x := rfl

@[simp] theorem setTree_codeWordAt (s : State) (queue : List Nat) (m : Nat) (i : Nat) : (setTree queue m s).codeWordAt i = s.codeWordAt i := rfl

@[simp] theorem setTree_encAt (s : State) (queue : List Nat) (m : Nat) (p : Nat) : (setTree queue m s).encAt p = s.encAt p := rfl

@[simp] theorem setTree_pkAt (s : State) (queue : List Nat) (m : Nat) (i : Nat) : (setTree queue m s).pkAt i = s.pkAt i := rfl

@[simp] theorem setTree_decAt (s : State) (queue : List Nat) (m : Nat) (i : Nat) : (setTree queue m s).decAt i = s.decAt i := rfl

@[simp] theorem setTree_code (s : State) (queue : List Nat) (m : Nat) (x : Byte) : (setTree queue m s).code x = s.code x := rfl

@[simp] theorem setTree_matchCode (s : State) (queue : List Nat) (m : Nat) (c : List Bool) : (setTree queue m s).matchCode c = s.matchCode c := rfl

@[simp] theorem setTree_input (s : State) (queue : List Nat) (m : Nat) : (setTree queue m s).input = s.input := rfl

/-! ### record -/

@[simp] theorem record_cfg (s : State) (e : ErrorCode) (info : Word) : (s.record e info).cfg = s.cfg := by
  unfold State.record; split <;> rfl

@[simp] theorem record_busy (s : State) (e : ErrorCode) (info : Word) : (s.record e info).busy = s.busy := by
  unfold State.record; split <;> rfl

@[simp] theorem record_empty (s : State) (e : ErrorCode) (info : Word) : (s.record e info).empty = s.empty := by
  unfold State.record; split <;> rfl

@[simp] theorem record_pending (s : State) (e : ErrorCode) (info : Word) : (s.record e info).pending = s.pending := by
  unfold State.record; split <;> rfl

@[simp] theorem record_inLen (s : State) (e : ErrorCode) (info : Word) : (s.record e info).inLen = s.inLen := by
  unfold State.record; split <;> rfl

@[simp] theorem record_nNodes (s : State) (e : ErrorCode) (info : Word) : (s.record e info).nNodes = s.nNodes := by
  unfold State.record; split <;> rfl

@[simp] theorem record_root (s : State) (e : ErrorCode) (info : Word) : (s.record e info).root = s.root := by
  unfold State.record; split <;> rfl

@[simp] theorem record_encLen (s : State) (e : ErrorCode) (info : Word) : (s.record e info).encLen = s.encLen := by
  unfold State.record; split <;> rfl

@[simp] theorem record_pkLen (s : State) (e : ErrorCode) (info : Word) : (s.record e info).pkLen = s.pkLen := by
  unfold State.record; split <;> rfl

@[simp] theorem record_decLen (s : State) (e : ErrorCode) (info : Word) : (s.record e info).decLen = s.decLen := by
  unfold State.record; split <;> rfl

@[simp] theorem record_inMem (s : State) (e : ErrorCode) (info : Word) : (s.record e info).inMem = s.inMem := by
  unfold State.record; split <;> rfl

@[simp] theorem record_freq (s : State) (e : ErrorCode) (info : Word) : (s.record e info).freq = s.freq := by
  unfold State.record; split <;> rfl

@[simp] theorem record_node (s : State) (e : ErrorCode) (info : Word) : (s.record e info).node = s.node := by
  unfold State.record; split <;> rfl

@[simp] theorem record_codeLen (s : State) (e : ErrorCode) (info : Word) : (s.record e info).codeLen = s.codeLen := by
  unfold State.record; split <;> rfl

@[simp] theorem record_codeBits (s : State) (e : ErrorCode) (info : Word) : (s.record e info).codeBits = s.codeBits := by
  unfold State.record; split <;> rfl

@[simp] theorem record_enc (s : State) (e : ErrorCode) (info : Word) : (s.record e info).enc = s.enc := by
  unfold State.record; split <;> rfl

@[simp] theorem record_pk (s : State) (e : ErrorCode) (info : Word) : (s.record e info).pk = s.pk := by
  unfold State.record; split <;> rfl

@[simp] theorem record_dec (s : State) (e : ErrorCode) (info : Word) : (s.record e info).dec = s.dec := by
  unfold State.record; split <;> rfl

@[simp] theorem record_epoch (s : State) (e : ErrorCode) (info : Word) : (s.record e info).epoch = s.epoch := by
  unfold State.record; split <;> rfl

@[simp] theorem record_hostIn (s : State) (e : ErrorCode) (info : Word) : (s.record e info).hostIn = s.hostIn := by
  unfold State.record; split <;> rfl

@[simp] theorem record_hostOut (s : State) (e : ErrorCode) (info : Word) : (s.record e info).hostOut = s.hostOut := by
  unfold State.record; split <;> rfl

@[simp] theorem record_inAt (s : State) (e : ErrorCode) (info : Word) (i : Nat) : (s.record e info).inAt i = s.inAt i := by
  unfold State.record; split <;> rfl

@[simp] theorem record_freqAt (s : State) (e : ErrorCode) (info : Word) (x : Byte) : (s.record e info).freqAt x = s.freqAt x := by
  unfold State.record; split <;> rfl

@[simp] theorem record_nodeAt (s : State) (e : ErrorCode) (info : Word) (k : Nat) : (s.record e info).nodeAt k = s.nodeAt k := by
  unfold State.record; split <;> rfl

@[simp] theorem record_codeLenAt (s : State) (e : ErrorCode) (info : Word) (x : Byte) : (s.record e info).codeLenAt x = s.codeLenAt x := by
  unfold State.record; split <;> rfl

@[simp] theorem record_codeWordAt (s : State) (e : ErrorCode) (info : Word) (i : Nat) : (s.record e info).codeWordAt i = s.codeWordAt i := by
  unfold State.record; split <;> rfl

@[simp] theorem record_encAt (s : State) (e : ErrorCode) (info : Word) (p : Nat) : (s.record e info).encAt p = s.encAt p := by
  unfold State.record; split <;> rfl

@[simp] theorem record_pkAt (s : State) (e : ErrorCode) (info : Word) (i : Nat) : (s.record e info).pkAt i = s.pkAt i := by
  unfold State.record; split <;> rfl

@[simp] theorem record_decAt (s : State) (e : ErrorCode) (info : Word) (i : Nat) : (s.record e info).decAt i = s.decAt i := by
  unfold State.record; split <;> rfl

@[simp] theorem record_code (s : State) (e : ErrorCode) (info : Word) (x : Byte) : (s.record e info).code x = s.code x := by
  unfold State.record; split <;> rfl

@[simp] theorem record_matchCode (s : State) (e : ErrorCode) (info : Word) (c : List Bool) : (s.record e info).matchCode c = s.matchCode c := by
  unfold State.record; split <;> rfl

@[simp] theorem record_input (s : State) (e : ErrorCode) (info : Word) : (s.record e info).input = s.input := by
  unfold State.record; split <;> rfl

/-! ### record: the two fields it writes -/

theorem record_errCode (s : State) (e : ErrorCode) (info : Word) :
    (s.record e info).errCode = if s.errCode = none then some e else s.errCode := by
  unfold State.record; split <;> rfl

theorem record_errInfo (s : State) (e : ErrorCode) (info : Word) :
    (s.record e info).errInfo = if s.errCode = none then info else s.errInfo := by
  unfold State.record; split <;> rfl

theorem record_errCode_ne_none (s : State) (e : ErrorCode) (info : Word) : (s.record e info).errCode ≠ none := by
  rw [record_errCode]; split <;> simp_all

/-- The root `setTree` leaves. -/
theorem setTree_root_nil (s : State) (m : Nat) : (setTree [] m s).root = nilHandle := rfl

theorem setTree_root_cons (s : State) (k : Nat) (q : List Nat) (m : Nat) :
    (setTree (k :: q) m s).root = BitVec.ofNat 9 k := rfl

end Sys2Proof.Machine
end

