-- ==== Sys2Proof/Laws/Elements.lean ====
section
/-! SUPPORT. What each write of an element does to every read of the same memory, and the list of symbols. -/

namespace Sys2Proof.Machine

/-! ### Symbols -/

@[simp] theorem symbols_length : symbols.length = 256 := by simp [symbols]

theorem symbols_getElem (i : Nat) (h : i < symbols.length) : symbols[i] = BitVec.ofNat 8 i := by
  simp [symbols]

/-- Every symbol is in the list. -/
theorem mem_symbols (x : Byte) : x ∈ symbols := by
  rw [symbols, List.mem_map]
  exact ⟨x.toNat, List.mem_range.2 x.isLt, by simp⟩

/-- The list is in ascending value. -/
theorem symbols_ascending : symbols.Pairwise (fun a b => a.toNat < b.toNat) := by
  rw [symbols, List.pairwise_map, List.pairwise_iff_getElem]
  intro i j hi hj hij
  simp only [List.length_range] at hi hj
  simp only [List.getElem_range, BitVec.toNat_ofNat]
  omega

theorem symbols_nodup : symbols.Nodup :=
  symbols_ascending.imp (fun {a b} h => by rintro rfl; omega)

/-! ### Elements after a write -/

theorem nodeAt_putNode (s : State) (k j : Nat) (n : Node) :
    (s.putNode k n).nodeAt j = if k = j then n else s.nodeAt j := by
  simp only [State.nodeAt, putNode_node, putNode_epoch, get_put]
  split <;> simp

@[simp] theorem nodeAt_putNode_same (s : State) (k : Nat) (n : Node) : (s.putNode k n).nodeAt k = n := by
  simp [nodeAt_putNode]

theorem nodeAt_putNode_other (s : State) {k j : Nat} (n : Node) (h : k ≠ j) :
    (s.putNode k n).nodeAt j = s.nodeAt j := by
  simp [nodeAt_putNode, h]

theorem encAt_putEnc_outside (s : State) {p j : Nat} {bits : List Bool} (h : j < p ∨ p + bits.length ≤ j) :
    (s.putEnc p bits).encAt j = s.encAt j := by
  simp only [State.encAt, putEnc_enc, putEnc_epoch, get_putList_outside _ h]

theorem encAt_putEnc_inside (s : State) {p j : Nat} {bits : List Bool} (h : j < bits.length) :
    (s.putEnc p bits).encAt (p + j) = bits[j] := by
  simp [State.encAt, get_putList_inside _ h, h]

theorem pkAt_putPk_outside (s : State) {i j : Nat} {bytes : List Byte} (h : j < i ∨ i + bytes.length ≤ j) :
    (s.putPk i bytes).pkAt j = s.pkAt j := by
  simp only [State.pkAt, putPk_pk, putPk_epoch, get_putList_outside _ h]

theorem pkAt_putPk_inside (s : State) {i j : Nat} {bytes : List Byte} (h : j < bytes.length) :
    (s.putPk i bytes).pkAt (i + j) = bytes[j] := by
  simp [State.pkAt, get_putList_inside _ h, h]

theorem decAt_putDec (s : State) (i j : Nat) (x : Byte) :
    (s.putDec i x).decAt j = if i = j then x else s.decAt j := by
  simp only [State.decAt, putDec_dec, putDec_epoch, get_put]
  split <;> simp

/-- Writing `bits` from position 0 leaves them as the first bits of `ENC`. -/
theorem range_map_encAt_putEnc (s : State) (bits : List Bool) :
    (List.range bits.length).map (s.putEnc 0 bits).encAt = bits := by
  apply List.ext_getElem
  · simp
  · intro i h1 h2
    have := encAt_putEnc_inside s (p := 0) h2
    simpa using this

/-- Writing `bytes` from index 0 leaves them as the first bytes of `PK`. -/
theorem range_map_pkAt_putPk (s : State) (bytes : List Byte) :
    (List.range bytes.length).map (s.putPk 0 bytes).pkAt = bytes := by
  apply List.ext_getElem
  · simp
  · intro i h1 h2
    have := pkAt_putPk_inside s (i := 0) h2
    simpa using this

theorem get_zeroCodeWords (i : Nat) : zeroCodeWords.get i = if i < 2048 then some 0#32 else none := by
  have key : ∀ (n lo : Nat), Memory.get ((List.range' lo n).map (fun i => (i, 0#32))) i =
      if lo ≤ i ∧ i < lo + n then some 0#32 else none := by
    intro n
    induction n with
    | zero => intro lo; simp
    | succ n ih =>
      intro lo
      simp only [List.range'_succ, List.map_cons, Memory.get, ih]
      by_cases h : lo = i
      · rw [if_pos h, if_pos (by omega)]
      · rw [if_neg h]
        by_cases h2 : lo + 1 ≤ i ∧ i < lo + 1 + n
        · rw [if_pos h2, if_pos (by omega)]
        · rw [if_neg h2, if_neg (by omega)]
  have := key 2048 0
  unfold zeroCodeWords
  rw [List.range_eq_range', this]
  simp

theorem codeLenAt_clearCodes (s : State) (x : Byte) : s.clearCodes.codeLenAt x = 0#8 := by
  simp [State.codeLenAt]

theorem codeBitAt_clearCodes (s : State) (x : Byte) {k : Nat} (h : k < 256) :
    s.clearCodes.codeBitAt x k = false := by
  have hx := x.isLt
  have : 8 * x.toNat + k / 32 < 2048 := by omega
  simp [State.codeBitAt, State.codeWordAt, get_zeroCodeWords, this]

theorem code_clearCodes (s : State) (x : Byte) : s.clearCodes.code x = [] := by
  simp [State.code, codeLenAt_clearCodes]

end Sys2Proof.Machine
end

