-- ==== Sys2Proof/Laws/BitStrings.lean ====
section
/-! SUPPORT. Bit strings and the bytes and words that hold them, most significant bit first; the code `setCode` stores. -/

namespace Sys2Proof.Machine

theorem foldl_bits (b : List Bool) (acc : Nat) :
    b.foldl (fun acc bit => 2 * acc + bit.toNat) acc = acc * 2 ^ b.length + bitsToNat b := by
  induction b generalizing acc with
  | nil => simp [bitsToNat]
  | cons c b ih =>
    simp only [List.foldl_cons, List.length_cons, bitsToNat]
    rw [ih, ih (2 * 0 + c.toNat)]
    ring

@[simp] theorem bitsToNat_nil : bitsToNat [] = 0 := rfl

theorem bitsToNat_cons (c : Bool) (b : List Bool) : bitsToNat (c :: b) = c.toNat * 2 ^ b.length + bitsToNat b := by
  have := foldl_bits b (2 * 0 + c.toNat)
  simpa [bitsToNat] using this

theorem bitsToNat_lt (b : List Bool) : bitsToNat b < 2 ^ b.length := by
  induction b with
  | nil => simp
  | cons c b ih =>
    rw [bitsToNat_cons, List.length_cons, pow_succ]
    cases c <;> simp <;> omega

/-- Bit `|b| - 1 - k` of the number a bit string spells is its bit `k`. -/
theorem testBit_bitsToNat (b : List Bool) {k : Nat} (h : k < b.length) :
    (bitsToNat b).testBit (b.length - 1 - k) = b[k] := by
  induction b generalizing k with
  | nil => simp at h
  | cons c b ih =>
    have hb := bitsToNat_lt b
    rw [bitsToNat_cons]
    cases k with
    | zero =>
      simp only [List.length_cons, Nat.add_sub_cancel, Nat.sub_zero, List.getElem_cons_zero]
      cases c
      · simpa using Nat.testBit_lt_two_pow hb
      · simp only [Bool.toNat_true, one_mul]
        rw [Nat.testBit_two_pow_add_eq, Nat.testBit_lt_two_pow hb]; rfl
    | succ k =>
      simp only [List.length_cons, List.getElem_cons_succ] at h ⊢
      have hk : k < b.length := by omega
      rw [← ih hk, show b.length + 1 - 1 - (k + 1) = b.length - 1 - k by omega]
      cases c
      · simp
      · simp only [Bool.toNat_true, one_mul]
        rw [Nat.testBit_two_pow_add_gt (by omega)]

/-- Bit `7-k` of `Byte8(b)` is `b[k]`: 00_scope.md R9. -/
theorem getLsbD_byte8 {b : List Bool} (hb : b.length = 8) {k : Nat} (h : k < 8) :
    (byte8 b).getLsbD (7 - k) = b[k] := by
  have := testBit_bitsToNat b (k := k) (by omega)
  simp only [hb] at this
  rw [byte8, BitVec.getLsbD_ofNat, this]
  simp; omega

@[simp] theorem bits8_length (v : Byte) : (bits8 v).length = 8 := by simp [bits8]

theorem bits8_getElem (v : Byte) {k : Nat} (h : k < (bits8 v).length) : (bits8 v)[k] = v.getLsbD (7 - k) := by
  simp [bits8]

/-- `Bits8` is the inverse of `Byte8`: R9. -/
theorem bits8_byte8 {b : List Bool} (hb : b.length = 8) : bits8 (byte8 b) = b := by
  apply List.ext_getElem
  · simp [hb]
  · intro k h1 h2
    rw [bits8_getElem, getLsbD_byte8 hb (by omega)]

/-- `Byte8` is the inverse of `Bits8`: R9. -/
theorem byte8_bits8 (v : Byte) : byte8 (bits8 v) = v := by
  apply BitVec.eq_of_getLsbD_eq
  intro i hi
  have := getLsbD_byte8 (bits8_length v) (k := 7 - i) (by omega)
  rw [show 7 - (7 - i) = i by omega, bits8_getElem, show 7 - (7 - i) = i by omega] at this
  exact this

/-- Bit `31-k` of a word is position `k`: 30_encoding.md R78. -/
theorem getLsbD_word32 {b : List Bool} (hb : b.length = 32) {k : Nat} (h : k < 32) :
    (word32 b).getLsbD (31 - k) = b[k] := by
  have := testBit_bitsToNat b (k := k) (by omega)
  simp only [hb] at this
  rw [word32, BitVec.getLsbD_ofNat, this]
  simp; omega

@[simp] theorem codeWords_length (p : List Bool) : (codeWords p).length = 8 := by simp [codeWords]

/-! ### setCode -/

theorem codeLenAt_setCode (s : State) (x y : Byte) (p : List Bool) :
    (s.setCode x p).codeLenAt y = if x = y then BitVec.ofNat 8 p.length else s.codeLenAt y := by
  simp only [State.codeLenAt, setCode_codeLen, Vector.getElem_set, BitVec.toNat_inj]

theorem codeWordAt_setCode_other (s : State) {x : Byte} {i : Nat} (p : List Bool) (h : i / 8 ≠ x.toNat) :
    (s.setCode x p).codeWordAt i = s.codeWordAt i := by
  simp only [State.codeWordAt, setCode_codeBits, setCode_epoch]
  rw [get_putList_outside]
  simp only [codeWords_length]; omega

/-- Every position of the code's vector after `SetCode`: the string, then zeros. -/
theorem codeBitAt_setCode_same (s : State) (x : Byte) (p : List Bool) {k : Nat} (h : k < 256) :
    (s.setCode x p).codeBitAt x k = p.getD k false := by
  have hw : k / 32 < (codeWords p).length := by simp; omega
  simp only [State.codeBitAt, State.codeWordAt, setCode_codeBits, setCode_epoch]
  rw [get_putList_inside _ hw, List.getElem?_eq_getElem hw]
  simp only [codeWords, List.getElem_map, List.getElem_range, Option.getD_some]
  rw [getLsbD_word32 (by simp) (k := k % 32) (by omega)]
  simp only [List.getElem_map, List.getElem_range]
  rw [Nat.div_add_mod]

theorem codeBitAt_setCode_other (s : State) {x y : Byte} (p : List Bool) (hxy : x ≠ y) {k : Nat} (h : k < 256) :
    (s.setCode x p).codeBitAt y k = s.codeBitAt y k := by
  have : (8 * y.toNat + k / 32) / 8 ≠ x.toNat := by
    have h1 : x.toNat ≠ y.toNat := fun e => hxy (BitVec.eq_of_toNat_eq e)
    omega
  simp only [State.codeBitAt, codeWordAt_setCode_other s p this]

/-- The code stored by `SetCode` is the string: 42_code_assigner.md R105. -/
theorem code_setCode_same (s : State) (x : Byte) {p : List Bool} (h : p.length ≤ 255) : (s.setCode x p).code x = p := by
  have hl : ((s.setCode x p).codeLenAt x).toNat = p.length := by
    simp [codeLenAt_setCode, Nat.mod_eq_of_lt (show p.length < 256 by omega)]
  apply List.ext_getElem
  · simp [State.code, hl]
  · intro k h1 h2
    simp only [State.code, List.getElem_map, List.getElem_range]
    rw [codeBitAt_setCode_same s x p (by omega), List.getD_eq_getElem _ _ h2]

/-- `SetCode` leaves every other symbol's code as it was. -/
theorem code_setCode_other (s : State) {x y : Byte} (p : List Bool) (hxy : x ≠ y) :
    (s.setCode x p).code y = s.code y := by
  have hl : (s.setCode x p).codeLenAt y = s.codeLenAt y := by simp [codeLenAt_setCode, hxy]
  simp only [State.code, hl]
  apply List.map_congr_left
  intro k hk
  have := (s.codeLenAt y).isLt
  exact codeBitAt_setCode_other s p hxy (by simp at hk; omega)

/-! ### The padding count -/

theorem extraBits_pos (e : Nat) : 1 ≤ extraBits e := by unfold extraBits; omega

theorem extraBits_le (e : Nat) : extraBits e ≤ 8 := by unfold extraBits; omega

/-- The padded length is a multiple of 8: 43_bit_packer.md R119. -/
theorem paddedLength_eq (e : Nat) : paddedLength e = 8 * (e / 8 + 2) := by
  unfold paddedLength extraBits; omega

end Sys2Proof.Machine
end

