-- ==== Sys2Proof/Laws/Execution.lean ====
section
/-! SUPPORT. What each shared operation and each stage of a command can do, said once: the frame of a command, and which
fields each loop writes. -/

namespace Sys2Proof.Machine

/-! ### The frame of a command -/

theorem runCommand_of_quiet {s : State} (body : State → Stage) (h : s.errCode = none) :
    runCommand body s = (body s).finish := by
  simp [runCommand, h]

/-- A recorded fault refuses the command: 60_exceptions.md R173. -/
theorem runCommand_of_fault {s : State} (body : State → Stage) (h : s.errCode ≠ none) :
    runCommand body s = .next s.complete := by
  simp [runCommand, h]

@[simp] theorem finish_done (s : State) : (Stage.done s).finish = .next s.complete := rfl

@[simp] theorem finish_raised (s : State) : (Stage.raised s).finish = .next s.complete := rfl

@[simp] theorem finish_stuck (r : Fault) : (Stage.stuck r).finish = .fault r := rfl

@[simp] theorem andThen_done (s : State) (f : State → Stage) : (Stage.done s).andThen f = f s := rfl

@[simp] theorem andThen_raised (s : State) (f : State → Stage) : (Stage.raised s).andThen f = .raised s := rfl

@[simp] theorem andThen_stuck (r : Fault) (f : State → Stage) : (Stage.stuck r).andThen f = .stuck r := rfl

/-- The state a stage leaves, if it is not stuck. -/
def Stage.Ends (g : Stage) (t : State) : Prop := g = .done t ∨ g = .raised t

theorem finish_eq_next {g : Stage} {t : State} (h : g.finish = .next t) : ∃ u, g.Ends u ∧ t = u.complete := by
  cases g with
  | done s => exact ⟨s, .inl rfl, by simpa using h.symm⟩
  | raised s => exact ⟨s, .inr rfl, by simpa using h.symm⟩
  | stuck r => simp at h

/-- Everything a command can do: it is refused, or its body ends and `BUSY` is cleared. -/
theorem runCommand_eq_next {body : State → Stage} {s t : State} (h : runCommand body s = .next t) :
    (s.errCode ≠ none ∧ t = s.complete) ∨ (s.errCode = none ∧ ∃ u, (body s).Ends u ∧ t = u.complete) := by
  by_cases he : s.errCode = none
  · rw [runCommand_of_quiet body he] at h
    exact .inr ⟨he, finish_eq_next h⟩
  · rw [runCommand_of_fault body he] at h
    exact .inl ⟨he, by simpa using h.symm⟩

/-- A stage followed by another ends where the second ends, or where the first raised. -/
theorem andThen_ends {g : Stage} {f : State → Stage} {t : State} (h : (g.andThen f).Ends t) :
    g = .raised t ∨ ∃ u, g = .done u ∧ (f u).Ends t := by
  cases g with
  | done u => exact .inr ⟨u, rfl, h⟩
  | raised u =>
    rcases h with h | h
    · simp at h
    · exact .inl (by simpa using h)
  | stuck r => rcases h with h | h <;> simp at h

@[simp] theorem ends_raise (e : ErrorCode) (n : Nat) (s t : State) :
    (raise e n s).Ends t ↔ t = s.record e (BitVec.ofNat 32 n) := by
  simp [Stage.Ends, raise, eq_comm]

@[simp] theorem ends_done (s t : State) : (Stage.done s).Ends t ↔ t = s := by simp [Stage.Ends, eq_comm]

/-- A fault is recorded only when none is: 60_exceptions.md R172. -/
theorem record_of_quiet {s : State} (e : ErrorCode) (info : Word) (h : s.errCode = none) :
    s.record e info = { s with errCode := some e, errInfo := info } := by
  simp [State.record, h]

theorem record_of_fault {s : State} (e : ErrorCode) (info : Word) (h : s.errCode ≠ none) : s.record e info = s := by
  simp [State.record, h]

/-! ### ANALYZE -/

theorem bumpCount_getElem (freq : Vector Count 256) (x y : Byte) :
    (bumpCount freq x)[y.toNat]'y.isLt = freq[y.toNat]'y.isLt + BitVec.ofNat 24 (if x = y then 1 else 0) := by
  simp only [bumpCount, Vector.getElem_set]
  by_cases h : x = y
  · subst h; simp
  · have : x.toNat ≠ y.toNat := fun e => h (BitVec.eq_of_toNat_eq e)
    simp [h, this]

/-- Every count grows by the number of times its symbol occurs. -/
theorem countSymbols_getElem (l : List Byte) (freq : Vector Count 256) (x : Byte) :
    (countSymbols l freq)[x.toNat]'x.isLt = freq[x.toNat]'x.isLt + BitVec.ofNat 24 (l.count x) := by
  induction l generalizing freq with
  | nil => simp [countSymbols]
  | cons y l ih =>
    rw [countSymbols, ih, bumpCount_getElem, List.count_cons, BitVec.add_assoc, ← BitVec.ofNat_add]
    congr 2
    by_cases h : y = x <;> simp [h, Nat.add_comm]

/-! ### BUILD -/

/-- Creating leaves writes only records. -/
theorem buildLeaves_frame (l : List Byte) (n : Nat) (s : State) :
    (buildLeaves l n s).2 = { s with node := (buildLeaves l n s).2.node } := by
  induction l generalizing n s with
  | nil => rfl
  | cons x l ih =>
    simp only [buildLeaves]
    split
    · exact ih n s
    · have := ih (n + 1) (s.putNode n (leafNode x (s.freqAt x)))
      rw [this]; rfl

/-- Merging writes only records. -/
theorem mergeLoop_frame (fuel : Nat) (q : List Nat) (m : Nat) (s : State) :
    (mergeLoop fuel q m s).2.2 = { s with node := (mergeLoop fuel q m s).2.2.node } := by
  induction fuel generalizing q m s with
  | zero => rfl
  | succ fuel ih =>
    simp only [mergeLoop]
    split
    · rfl
    · split
      · rfl
      · split
        · rfl
        · rw [ih]; rfl

/-- `BUILD` always runs to its end, and writes only `NODE`, `N_NODES` and `ROOT`: 20_memory.md R58. -/
theorem buildStage_frame (s : State) :
    ∃ t, buildStage s = .done t ∧ t = { s with node := t.node, nNodes := t.nNodes, root := t.root } := by
  obtain ⟨n, s1, h1⟩ : ∃ n s1, buildLeaves symbols 0 s = (n, s1) := ⟨_, _, rfl⟩
  obtain ⟨q, m, s2, h2⟩ : ∃ q m s2, mergeLoop n (List.range n) n s1 = (q, m, s2) := ⟨_, _, _, rfl⟩
  have hs1 : s1 = { s with node := s1.node } := by simpa [h1] using buildLeaves_frame symbols 0 s
  have hs2 : s2 = { s1 with node := s2.node } := by simpa [h2] using mergeLoop_frame n (List.range n) n s1
  refine ⟨setTree q m s2, by rw [buildStage, h1]; simp only [h2], ?_⟩
  rw [hs2, hs1]; rfl

/-! ### ASSIGN -/

/-- `Walk` writes only the code table. -/
theorem walk_frame {fuel : Nat} {k : Handle} {p : List Bool} {s t : State} (h : walk fuel k p s = some t) :
    t = { s with codeLen := t.codeLen, codeBits := t.codeBits } := by
  induction fuel generalizing k p s t with
  | zero =>
    simp only [walk] at h
    split at h
    · cases h; rfl
    · cases h
  | succ fuel ih =>
    simp only [walk] at h
    split at h
    · cases h; rfl
    · split at h
      · cases h; rfl
      · split at h
        · cases h
        · rename_i s1 h1
          rw [ih h, ih h1]

/-- `ASSIGN` ends by running to its end or not at all, and writes only the code table: 20_memory.md R58. -/
theorem assignStage_frame {s t : State} (h : (assignStage s).Ends t) :
    assignStage s = .done t ∧ t = { s with codeLen := t.codeLen, codeBits := t.codeBits } := by
  unfold assignStage at h ⊢
  simp only at h ⊢
  split at h
  · simp only [ends_done] at h
    subst h
    rw [if_pos ‹_›]
    exact ⟨rfl, rfl⟩
  · split at h
    · simp only [ends_done] at h
      subst h
      rw [if_neg ‹_›, if_pos ‹_›]
      exact ⟨rfl, rfl⟩
    · rw [if_neg ‹_›, if_neg ‹_›]
      unfold walkStage at h ⊢
      split at h
      · rename_i u hu
        simp only [ends_done] at h
        subst h
        refine ⟨rfl, ?_⟩
        rw [walk_frame hu]; rfl
      · rcases h with h | h <;> cases h

/-! ### ENCODE and PACK -/

/-- Everything the loop of `ENCODE` can do to the fields: it writes `ENC` and `ENC_LEN`, and records a fault if it
raises. -/
theorem encodeLoop_frame {l : List Nat} {e : Nat} {s t : State} (h : (encodeLoop l e s).Ends t) :
    t = { s with enc := t.enc, encLen := t.encLen, errCode := t.errCode, errInfo := t.errInfo } := by
  induction l generalizing e s with
  | nil =>
    simp only [encodeLoop, ends_done] at h
    subst h; rfl
  | cons i l ih =>
    simp only [encodeLoop] at h
    split at h
    · rw [ends_raise] at h
      subst h; unfold State.record; split <;> rfl
    · split at h
      · rw [ends_raise] at h
        subst h; unfold State.record; split <;> rfl
      · rw [ih h]; rfl

/-- Where the loop of `ENCODE` ends, the bits before the ones it starts at are untouched. -/
theorem encodeLoop_before {l : List Nat} {e : Nat} {s t : State} (h : (encodeLoop l e s).Ends t) {p : Nat}
    (hp : p < e) : t.encAt p = s.encAt p := by
  induction l generalizing e s with
  | nil =>
    simp only [encodeLoop, ends_done] at h
    subst h; simp [State.setEncLen, State.encAt]
  | cons i l ih =>
    simp only [encodeLoop] at h
    split at h
    · rw [ends_raise] at h
      subst h; simp
    · split at h
      · rw [ends_raise] at h
        subst h; simp
      · rw [ih h (by omega), encAt_putEnc_outside _ (.inl hp)]

/-- The check of 43_bit_packer.md R119 never fires, so `PACK` always runs to its end: 46_laws.md R160. -/
theorem packStage_eq (s : State) :
    packStage s = .done { s with
      pk := s.pk.putList 0 (BitVec.ofNat 8 (extraBits s.encLen.toNat) ::
        (List.range (s.encLen.toNat / 8 + 1)).map s.payloadByte)
      pkLen := BitVec.ofNat 32 (s.encLen.toNat / 8 + 2) } := by
  have h := paddedLength_eq s.encLen.toNat
  unfold packStage
  simp only [h]
  rw [if_neg (by omega), Nat.mul_div_cancel_left _ (by norm_num)]
  rfl

/-! ### UNPACK and DECODE -/

/-- Everything `UNPACK` can do: the empty artifact, its two faults with nothing written, or the bits recovered. -/
theorem unpackStage_cases (s : State) :
    (s.pkLen.toNat = 0 ∧ unpackStage s = .done { s with encLen := 0#32 }) ∨
    (s.pkLen.toNat ≠ 0 ∧ ((s.pkAt 0).toNat < 1 ∨ (s.pkAt 0).toNat > 8 ∨ (s.pkAt 0).toNat > 8 * (s.pkLen.toNat - 1)) ∧
      unpackStage s = raise .badHeader (s.pkAt 0).toNat s) ∨
    (s.pkLen.toNat ≠ 0 ∧ 1 ≤ (s.pkAt 0).toNat ∧ (s.pkAt 0).toNat ≤ 8 ∧
      (s.pkAt 0).toNat ≤ 8 * (s.pkLen.toNat - 1) ∧
      ((s.cfg.encCapacity < 8 * (s.pkLen.toNat - 1) - (s.pkAt 0).toNat ∧
        unpackStage s = raise .capacity (8 * (s.pkLen.toNat - 1) - (s.pkAt 0).toNat) s) ∨
       (8 * (s.pkLen.toNat - 1) - (s.pkAt 0).toNat ≤ s.cfg.encCapacity ∧
        unpackStage s = .done { s with
          enc := s.enc.putList 0 ((List.range (8 * (s.pkLen.toNat - 1) - (s.pkAt 0).toNat)).map s.payloadBit)
          encLen := BitVec.ofNat 32 (8 * (s.pkLen.toNat - 1) - (s.pkAt 0).toNat) }))) := by
  unfold unpackStage
  simp only
  split
  · exact .inl ⟨‹_›, rfl⟩
  · split
    · exact .inr (.inl ⟨‹_›, ‹_›, rfl⟩)
    · refine .inr (.inr ⟨‹_›, by omega, by omega, by omega, ?_⟩)
      split
      · exact .inl ⟨by omega, rfl⟩
      · exact .inr ⟨by omega, rfl⟩

/-- Everything the scan of `DECODE` can do to the fields: it writes `DEC` and `DEC_LEN`, and records a fault if it
raises. -/
theorem decodeLoop_frame {l : List Nat} {d : Nat} {cand : List Bool} {s t : State}
    (h : (decodeLoop l d cand s).Ends t) :
    t = { s with dec := t.dec, decLen := t.decLen, errCode := t.errCode, errInfo := t.errInfo } := by
  induction l generalizing d cand s with
  | nil =>
    simp only [decodeLoop] at h
    split at h
    · rw [ends_raise] at h
      subst h; unfold State.record; split <;> rfl
    · rw [ends_done] at h
      subst h; rfl
  | cons p l ih =>
    simp only [decodeLoop] at h
    split at h
    · exact ih h
    · split at h
      · rw [ends_raise] at h
        subst h; unfold State.record; split <;> rfl
      · rw [ih h]; rfl

/-- The scan never gets stuck. -/
theorem decodeLoop_ends (l : List Nat) (d : Nat) (cand : List Bool) (s : State) :
    ∃ t, (decodeLoop l d cand s).Ends t := by
  induction l generalizing d cand s with
  | nil =>
    simp only [decodeLoop]
    split
    · exact ⟨_, .inr rfl⟩
    · exact ⟨_, .inl rfl⟩
  | cons p l ih =>
    simp only [decodeLoop]
    split
    · exact ih _ _ _
    · split
      · exact ⟨_, .inr rfl⟩
      · exact ih _ _ _

/-- Encoding never gets stuck. -/
theorem encodeLoop_ends (l : List Nat) (e : Nat) (s : State) : ∃ t, (encodeLoop l e s).Ends t := by
  induction l generalizing e s with
  | nil => exact ⟨_, .inl rfl⟩
  | cons i l ih =>
    simp only [encodeLoop]
    split
    · exact ⟨_, .inr rfl⟩
    · split
      · exact ⟨_, .inr rfl⟩
      · exact ih _ _

end Sys2Proof.Machine
end

