-- ==== Sys2Proof/Laws/PerInstr.lean ====
section
/-! SUPPORT. Statements about every command as syntax, one lemma per constructor (LAWS.json). -/

namespace Sys2Proof.Laws.CommandWord

/-- Every command is well-formed, its word has bits 31:8 zero (30_encoding.md R71), and the opcode table's number for it
decodes to it (R72). -/
def Statement (i : Instr) : Prop :=
  i.wf = true ∧ upperField (encode i) = 0#24 ∧ decodeTableWord 32 (encode i).toNat = some i

theorem nop : Statement .nop := ⟨rfl, by decide, by decide⟩
theorem analyze : Statement .analyze := ⟨rfl, by decide, by decide⟩
theorem build : Statement .build := ⟨rfl, by decide, by decide⟩
theorem assign : Statement .assign := ⟨rfl, by decide, by decide⟩
theorem encode : Statement .encode := ⟨rfl, by decide, by decide⟩
theorem pack : Statement .pack := ⟨rfl, by decide, by decide⟩
theorem unpack : Statement .unpack := ⟨rfl, by decide, by decide⟩
theorem decode : Statement .decode := ⟨rfl, by decide, by decide⟩
theorem compress : Statement .compress := ⟨rfl, by decide, by decide⟩
theorem expand : Statement .expand := ⟨rfl, by decide, by decide⟩
theorem clrerr : Statement .clrerr := ⟨rfl, by decide, by decide⟩
theorem reset : Statement .reset := ⟨rfl, by decide, by decide⟩

end Sys2Proof.Laws.CommandWord
end

