-- ==== Sys2Proof/Tests/Slice0.lean ====
section
/-! SUPPORT. The model's own tests: words written out from 30_encoding.md R72, ill-formed terms, one or two vectors of
95_test_vectors.md per command (named in each comment), and a witness for the hypotheses of every statement of
Certificates/Slice0/Obligations.lean. Expected values come from the spec. -/

namespace Sys2Proof.Tests

-- one theorem at a time: each `decide +kernel` would hold a thread of its own until the kernel reaches it
set_option Elab.async false

open Sys2Proof.Machine

/-! ### Helpers -/

/-- A machine of capacity `cap` whose input is `text`. -/
def withText (cap : Nat) (text : List Byte) : State :=
  { State.resetOf ⟨BitVec.ofNat 24 cap⟩ with
    inMem := Memory.putList [] 0 text, inLen := BitVec.ofNat 32 text.length }

/-- A machine of capacity `cap` with these counts. -/
def withCounts (cap : Nat) (rows : List (Byte × Count)) : State :=
  { State.resetOf ⟨BitVec.ofNat 24 cap⟩ with
    freq := rows.foldl (fun f r => f.set r.1.toNat r.2 r.1.isLt) (Vector.replicate 256 0#24) }

/-- A machine of capacity `cap` with these codes. -/
def withCodes (cap : Nat) (rows : List (Byte × List Bool)) : State :=
  rows.foldl (fun s r => s.setCode r.1 r.2) (State.resetOf ⟨BitVec.ofNat 24 cap⟩)

/-- The state with this encoded bit string. -/
def encodedAs (s : State) (bits : List Bool) : State :=
  { s.putEnc 0 bits with encLen := BitVec.ofNat 32 bits.length }

/-- The state with this packed byte sequence. -/
def packedAs (s : State) (bytes : List Byte) : State :=
  { s.putPk 0 bytes with pkLen := BitVec.ofNat 32 bytes.length }

/-- A property of the next state; false when there is none. -/
def after (o : Host.Outcome State Fault Refusal) (p : State → Bool) : Bool :=
  match o with
  | .next t => p t
  | .fault _ => false
  | .refused _ => false

/-- The state after `k` steps of the machine on a stream of host actions that wait for each command. -/
def script (s : State) (k : Nat) (actions : List HostAction) : Host.Outcome State Fault Refusal :=
  Host.Core.run Sys2Proof.core k { s with hostIn := actions.map (fun a => ⟨false, a⟩) }

/-- Two leaves, A and B, of count 1 under one root. -/
def treeAB : State :=
  { State.resetOf ⟨8#24⟩ with
    nNodes := 3#32, root := 2#9,
    node := [(0, ⟨true, 0x41#8, 1#32, 511#9, 511#9⟩), (1, ⟨true, 0x42#8, 1#32, 511#9, 511#9⟩),
             (2, ⟨false, 0x00#8, 2#32, 0#9, 1#9⟩)] }

/-- One leaf, A, of count 4: V20. -/
def treeA : State :=
  { State.resetOf ⟨8#24⟩ with
    nNodes := 1#32, root := 0#9, node := [(0, ⟨true, 0x41#8, 4#32, 511#9, 511#9⟩)] }

/-- Codes A "0", B "1": V43. -/
def codesAB : State := withCodes 8 [(0x41#8, [false]), (0x42#8, [true])]

/-- "AB": V101. -/
def textAB : State := withText 8 [0x41#8, 0x42#8]

/-! ### Decoding: the words of R72 -/

theorem test_decode_nop : decode 0b00000000000000000000000000000000#32 = .ok .nop := by decide
theorem test_decode_analyze : decode 0b00000000000000000000000000000001#32 = .ok .analyze := by decide
theorem test_decode_build : decode 0b00000000000000000000000000000010#32 = .ok .build := by decide
theorem test_decode_assign : decode 0b00000000000000000000000000000011#32 = .ok .assign := by decide
theorem test_decode_encode : decode 0b00000000000000000000000000000100#32 = .ok .encode := by decide
theorem test_decode_pack : decode 0b00000000000000000000000000000101#32 = .ok .pack := by decide
theorem test_decode_unpack : decode 0b00000000000000000000000000000110#32 = .ok .unpack := by decide
theorem test_decode_decode : decode 0b00000000000000000000000000000111#32 = .ok .decode := by decide
theorem test_decode_compress : decode 0b00000000000000000000000000001000#32 = .ok .compress := by decide
theorem test_decode_expand : decode 0b00000000000000000000000000001001#32 = .ok .expand := by decide
theorem test_decode_clrerr : decode 0b00000000000000000000000000001110#32 = .ok .clrerr := by decide
theorem test_decode_reset : decode 0b00000000000000000000000000001111#32 = .ok .reset := by decide

/-- V111, V112, V113: illegal words, rejected by name. -/
theorem test_decode_rejects :
    decode 0x0000000A#32 = .error .reservedOpcode ∧ decode 0x000000FF#32 = .error .reservedOpcode ∧
    decode 0x00000101#32 = .error .upperBitsNonzero ∧ decode 0xFFFFFFFF#32 = .error .upperBitsNonzero := by decide

/-- The table's numbering: a 32-bit row, and a word that is none. -/
theorem test_table_word : decodeTableWord 32 8 = some .compress ∧ decodeTableWord 32 10 = none := by decide

/-! ### Well-formedness: an ill-formed term for each check (a command has no operands, so none is ill-formed) -/

theorem test_config_wf_refuses : Config.wf ⟨0#24⟩ = false ∧ Config.wf Config.reference = true := by decide

theorem test_action_wf_refuses :
    HostAction.wf (.write 1#4 0#28 256#32) = false ∧ HostAction.wf (.write 1#4 0#28 255#32) = true := by decide

theorem test_memory_wf_refuses :
    Memory.wf 4 [(1, 0#8), (1, 0#8)] = false ∧ Memory.wf 4 [(4, 0#8)] = false ∧
    Memory.wf 4 [(0, 0#8), (3, 0#8)] = true := by decide

/-! ### Commands -/

/-- V110. -/
theorem test_nop : after (step ((withCounts 8 [(0x41#8, 7#24)]).withFetchWord 32 0))
    (fun t => t.freqAt 0x41#8 == 7#24 && t.statusWord == 0#32 && t.hostOut == [] && t.node == []) = true := by
  decide +kernel

/-- V10: "hello". -/
theorem test_analyze_hello :
    after (exec .analyze (withText 8 [0x68#8, 0x65#8, 0x6C#8, 0x6C#8, 0x6F#8]))
      (fun t => t.freqAt 0x6C#8 == 2#24 && t.freqAt 0x65#8 == 1#24 && t.freqAt 0x21#8 == 0#24) = true := by
  decide +kernel

/-- V11: stale counts are cleared. -/
theorem test_analyze_empty :
    after (exec .analyze (withCounts 8 [(0x41#8, 7#24)])) (fun t => t.freqAt 0x41#8 == 0#24) = true := by
  decide +kernel

/-- P6: A3 B1, so B pops first and is the left child. -/
theorem test_build_left_is_first_popped :
    after (exec .build (withCounts 8 [(0x41#8, 3#24), (0x42#8, 1#24)]))
      (fun t => t.nNodes == 3#32 && t.root == 2#9 && t.elementAt .nodeLink 2 == 0x00000001#32 &&
        t.elementAt .nodeFreq 2 == 4#32 && t.elementAt .nodeSym 0 == 0x00000141#32) = true := by
  decide +kernel

/-- V28: a node frequency of more than 24 bits. -/
theorem test_build_wide_frequency :
    after (exec .build (withCounts 8 [(0x41#8, 0xFFFFFF#24), (0x42#8, 0xFFFFFF#24)]))
      (fun t => t.elementAt .nodeFreq 2 == 33554430#32) = true := by
  decide +kernel

/-- V101: A "0", B "1". -/
theorem test_assign_two : after (exec .assign treeAB)
    (fun t => t.code 0x41#8 == [false] && t.elementAt .codeBits 528 == 0x80000000#32 && t.codeLenAt 0x43#8 == 0#8) =
    true := by
  decide +kernel

/-- V30: the lone symbol gets "0". -/
theorem test_assign_lone : after (exec .assign treeA)
    (fun t => t.codeLenAt 0x41#8 == 1#8 && t.elementAt .codeBits 520 == 0#32) = true := by
  decide +kernel

/-- V45: B has no code. -/
theorem test_encode_no_code :
    after (exec .encode { withCodes 8 [(0x41#8, [false])] with
        inMem := [(0, 0x41#8), (1, 0x42#8)], inLen := 2#32 })
      (fun t => t.encoded == [false] && t.errCodeWord == 5#32 && t.errInfo == 1#32 && t.statusWord == 2#32) = true := by
  decide +kernel

/-- V46: four codes of nine bits do not fit 32. -/
theorem test_encode_capacity :
    after (exec .encode { withCodes 4 [(0x41#8, List.replicate 9 true)] with
        inMem := [(0, 0x41#8), (1, 0x41#8), (2, 0x41#8), (3, 0x41#8)], inLen := 4#32 })
      (fun t => t.encLen == 27#32 && t.errCodeWord == 4#32 && t.errInfo == 3#32) = true := by
  decide +kernel

/-- V33: an aligned string gets a whole zero byte. -/
theorem test_pack_aligned :
    after (exec .pack (encodedAs codesAB [false, true, false, true, false, true, false, true]))
      (fun t => t.packedBytes == [0x08#8, 0x55#8, 0x00#8]) = true := by
  decide +kernel

/-- V50. -/
theorem test_pack_general :
    after (exec .pack (encodedAs codesAB [false, true, false, false, true, true, true, true, true, false]))
      (fun t => t.packedBytes == [0x06#8, 0x4F#8, 0x80#8]) = true := by
  decide +kernel

/-- V65: non-zero padding is not looked at. -/
theorem test_unpack_padding :
    after (exec .unpack (packedAs codesAB [0x01#8, 0xFF#8]))
      (fun t => t.encoded == List.replicate 7 true && t.errFlag == false) = true := by
  decide +kernel

/-- V70: a header with no payload. -/
theorem test_unpack_no_payload :
    after (exec .unpack (packedAs codesAB [0x04#8]))
      (fun t => t.errCodeWord == 3#32 && t.errInfo == 4#32) = true := by
  decide +kernel

/-- V88: a table that is not prefix-free; B = "01" is never matched. -/
theorem test_decode_first_match :
    after (exec .decode (encodedAs (withCodes 8 [(0x41#8, [false]), (0x42#8, [false, true]), (0x43#8, [true])])
        [false, true])) (fun t => t.decoded == [0x41#8, 0x43#8] && t.errFlag == false) = true := by
  decide +kernel

/-- V85: "0011" with only A = "0". -/
theorem test_decode_truncated :
    after (exec .decode (encodedAs (withCodes 8 [(0x41#8, [false])]) [false, false, true, true]))
      (fun t => t.decoded == [0x41#8, 0x41#8] && t.errCodeWord == 2#32 && t.errInfo == 2#32) = true := by
  decide +kernel

/-- V101: "AB". -/
theorem test_compress : after (exec .compress textAB)
    (fun t => t.packedBytes == [0x06#8, 0x40#8] && t.statusWord == 0#32) = true := by
  decide +kernel

/-- V1: the empty input. -/
theorem test_compress_empty : after (exec .compress (packedAs codesAB [0x08#8]))
    (fun t => t.pkLen == 0#32 && t.statusWord == 4#32 && t.root == 511#9 && t.codeLenAt 0x41#8 == 0#8) = true := by
  decide +kernel

/-- V104's artifact, 08 55 00. -/
theorem test_expand : after (exec .expand (packedAs codesAB [0x08#8, 0x55#8, 0x00#8]))
    (fun t => t.decoded ==
      [0x41#8, 0x42#8, 0x41#8, 0x42#8, 0x41#8, 0x42#8, 0x41#8, 0x42#8] && t.encLen == 8#32) = true := by
  decide +kernel

/-- A state with `TRUNCATED_STREAM` recorded and a partial result: V83, V116. -/
def truncated : State :=
  { codesAB with errCode := some .truncatedStream, errInfo := 2#32, decLen := 2#32, inLen := 3#32 }

/-- V116. -/
theorem test_clrerr : after (exec .clrerr truncated)
    (fun t => t.statusWord == 0#32 && t.errInfo == 0#32 && t.decLen == 2#32) = true := by
  decide +kernel

/-- V117: registers, `FREQ`, `CODE_LEN` cleared, `CODE_BITS` kept. -/
theorem test_reset : after (exec .reset { truncated with pending := 15#32 })
    (fun t => t.errCodeWord == 0#32 && t.inLen == 0#32 && t.pending == 0#32 && t.root == 511#9 &&
      t.codeLenAt 0x42#8 == 0#8 && t.elementAt .codeBits 528 == 0x80000000#32) = true := by
  decide +kernel

/-- V114, V115: refused while a fault is recorded. -/
theorem test_refused :
    after (step (State.withFetchWord { truncated with freq := (withCounts 8 [(0x41#8, 7#24)]).freq } 32 1))
      (fun t => t.errInfo == 2#32 && t.freqAt 0x41#8 == 7#24 && t.busy == false) = true ∧
    after (step (truncated.withFetchWord 32 10)) (fun t => t.errCodeWord == 2#32) = true := by
  decide +kernel

/-! ### The host port -/

/-- V120 then V122: the first fault wins, an illegal read returns 0. -/
theorem test_bad_access : after (script State.reset 2 [.write 0#4 4#28 65536#32, .read 0#4 11#28])
    (fun t => t.errCodeWord == 7#32 && t.errInfo == 0x00000004#32 && t.hostOut == [0#32] && t.inLen == 0#32) = true := by
  decide

/-- V124, V129: the information word. -/
theorem test_access_info : accessInfo 10#4 0#28 = 0xA0000000#32 ∧ accessInfo 11#4 0#28 = 0xB0000000#32 ∧
    accessInfo 2#4 0x41#28 = 0x20000041#32 := by decide

/-- V119: `STATUS` is readable while a command is pending. -/
theorem test_status_while_busy :
    after (Host.Core.run Sys2Proof.core 2
        { State.reset with hostIn := [⟨false, .write 0#4 0#28 8#32⟩, ⟨true, .read 0#4 1#28⟩] })
      (fun t => t.busy && t.hostOut == [1#32]) = true := by decide

/-- V133: bit order of an `ENC` byte. -/
theorem test_enc_byte : after (script State.reset 2 [.write 8#4 0#28 0xB7#32, .read 8#4 0#28])
    (fun t => (List.range 8).map t.encAt == [true, false, true, true, false, true, true, true] &&
      t.hostOut == [0xB7#32]) = true := by
  decide +kernel

/-- V134: a code loaded by the host. -/
theorem test_load_code :
    after (script State.reset 2 [.write 7#4 0x210#28 0xD0000000#32, .write 6#4 0x42#28 4#32])
      (fun t => t.code 0x42#8 == [true, true, false, true]) = true := by
  decide +kernel

/-! ### Witnesses: concrete states and operands that meet the hypotheses of each statement -/

theorem next_of_after {o : Host.Outcome State Fault Refusal} {p : State → Bool} (h : after o p = true) :
    ∃ t, o = .next t ∧ p t = true := by
  cases o with
  | next t => exact ⟨t, rfl, h⟩
  | fault r => cases h
  | refused r => cases h

/-- A busy state with the word `w` pending and a stream of one host action. -/
def busyWith (w : Word) (ev : HostEvent) : State := { treeAB with busy := true, pending := w, hostIn := [ev] }

theorem tree_two : TreeShape treeAB 2 where
  pos := by decide
  le := by decide
  nNodes := by decide
  root := by decide
  leaves := by decide
  ascending := by
    intro j k hjk hk
    obtain ⟨rfl, rfl⟩ : j = 0 ∧ k = 1 := by omega
    decide
  inner := by
    intro k h1 h2
    obtain rfl : k = 2 := by omega
    decide
  oneParent := by decide
  rootNoChild := by decide

theorem tree_one : TreeShape treeA 1 where
  pos := by decide
  le := by decide
  nNodes := by decide
  root := by decide
  leaves := by decide
  ascending := by intro j k hjk hk; omega
  inner := by intro k h1 h2; omega
  oneParent := by decide
  rootNoChild := by decide

theorem treeAB_inv : Inv treeAB where
  cfg := by decide
  inLen := by decide
  encLen := by decide
  pkLen := by decide
  decLen := by decide
  errInfo := by decide
  padding := by decide
  tree := .inr ⟨2, tree_two⟩
  inMem := by decide
  node := by decide
  codeBits := by decide
  enc := by decide
  pk := by decide
  dec := by decide

theorem busy_inv (w : Word) (ev : HostEvent) : Inv (busyWith w ev) where
  cfg := treeAB_inv.cfg
  inLen := treeAB_inv.inLen
  encLen := treeAB_inv.encLen
  pkLen := treeAB_inv.pkLen
  decLen := treeAB_inv.decLen
  errInfo := treeAB_inv.errInfo
  padding := treeAB_inv.padding
  tree := .inr ⟨2, ⟨tree_two.pos, tree_two.le, tree_two.nNodes, tree_two.root, tree_two.leaves, tree_two.ascending,
    tree_two.inner, tree_two.oneParent, tree_two.rootNoChild⟩⟩
  inMem := treeAB_inv.inMem
  node := treeAB_inv.node
  codeBits := treeAB_inv.codeBits
  enc := treeAB_inv.enc
  pk := treeAB_inv.pk
  dec := treeAB_inv.dec

/-- Codes A "0", B "10", C "11": V87's shape. -/
def codesABC : State := withCodes 8 [(0x41#8, [false]), (0x42#8, [true, false]), (0x43#8, [true, true])]

theorem codesAB_symbols (x : Byte) (h : codesAB.codeLenAt x ≠ 0#8) : x = 0x41#8 ∨ x = 0x42#8 := by
  have e : codesAB = ((State.resetOf ⟨8#24⟩).setCode 0x41#8 [false]).setCode 0x42#8 [true] := rfl
  rw [e, codeLenAt_setCode, codeLenAt_setCode] at h
  by_cases hb : (0x42#8 : Byte) = x
  · exact .inr hb.symm
  · by_cases ha : (0x41#8 : Byte) = x
    · exact .inl ha.symm
    · simp [hb, ha, State.codeLenAt, State.resetOf] at h

theorem codesAB_prefixFree : PrefixFree codesAB := by
  intro a b hab ha hb
  have hA : codesAB.code 0x41#8 = [false] := by decide +kernel
  have hB : codesAB.code 0x42#8 = [true] := by decide +kernel
  obtain rfl | rfl := codesAB_symbols a ha <;> obtain rfl | rfl := codesAB_symbols b hb
  · exact absurd rfl hab
  · rw [hA, hB]; decide
  · rw [hA, hB]; decide
  · exact absurd rfl hab

/-! Steps. -/

theorem witness_StepRunsPendingCommand :
    (busyWith 8#32 ⟨true, .read 0#4 2#28⟩).busy = true ∧ (busyWith 8#32 ⟨true, .read 0#4 2#28⟩).hostGoesFirst = false ∧
    decode (busyWith 8#32 ⟨true, .read 0#4 2#28⟩).pending = .ok .compress ∧
    treeAB.busy = false ∧ treeAB.hostIn = [] := by decide

theorem witness_IllegalWordRecordsBadCommand :
    ∃ s s' : State, s.busy = true ∧ s.hostGoesFirst = false ∧ decode s.pending = .error .reservedOpcode ∧
      s.errCode = none ∧ s'.busy = true ∧ s'.hostGoesFirst = false ∧ decode s'.pending = .error .upperBitsNonzero ∧
      s'.errCode ≠ none :=
  ⟨busyWith 0x0A#32 ⟨false, .hardReset⟩, { truncated with busy := true, pending := 0x100#32 }, by decide⟩

theorem witness_CommandAcceptance :
    ∃ s s' : State, s.hostIn = ⟨true, .write 0#4 0#28 0xFFFFFFFF#32⟩ :: [] ∧ s.busy = false ∧
      s'.hostIn = ⟨true, .write 0#4 0#28 1#32⟩ :: [] ∧ s'.busy = true ∧ ∃ t, step s' = .next t :=
  ⟨{ treeAB with hostIn := [⟨true, .write 0#4 0#28 0xFFFFFFFF#32⟩] }, busyWith 0#32 ⟨true, .write 0#4 0#28 1#32⟩,
    by decide, by decide, by decide, by decide, _, rfl⟩

theorem witness_PendingCommandHoldsAccesses :
    ∃ s s' : State, s.busy = true ∧ s.hostIn = ⟨true, .read 0#4 1#28⟩ :: [] ∧ s'.busy = true ∧
      s'.hostIn = ⟨true, .read 0#4 9#28⟩ :: [] ∧ HostAction.read 0#4 9#28 ≠ .read 0#4 1#28 ∧
      HostAction.read 0#4 9#28 ≠ .hardReset ∧ ∃ t, step s' = .next t :=
  ⟨busyWith 1#32 ⟨true, .read 0#4 1#28⟩, busyWith 0#32 ⟨true, .read 0#4 9#28⟩, by decide, by decide, by decide,
    by decide, by decide, by decide, _, rfl⟩

theorem witness_PendingCommandEndsInBoundedSteps :
    ∃ s s' : State, Inv s ∧ s.busy = true ∧ s.hostGoesFirst = true ∧ Inv s' ∧ s'.busy = true ∧
      s'.hostIn = ⟨true, .hardReset⟩ :: [] :=
  ⟨busyWith 3#32 ⟨true, .read 0#4 1#28⟩, busyWith 3#32 ⟨true, .hardReset⟩, busy_inv _ _, rfl, by decide, busy_inv _ _,
    rfl, rfl⟩

theorem witness_StatusBitsAndWriters :
    (∃ t, exec .nop treeAB = .next t) ∧ treeAB.errCode = none ∧ (∃ t, exec .compress treeAB = .next t) ∧
      (∃ t, exec .reset treeAB = .next t) ∧ ∃ t, exec .compress textAB = .next t :=
  ⟨⟨_, rfl⟩, rfl, ⟨_, rfl⟩, ⟨_, rfl⟩, (next_of_after test_compress).imp fun _ h => h.1⟩

/-! Faults. -/

theorem witness_RecordedFaultRefusesCommands :
    truncated.errCode ≠ none ∧ Instr.nop ≠ .clrerr ∧ Instr.nop ≠ .reset := by decide

theorem test_fault_numbers : ([.invalidPadding, .truncatedStream, .badHeader, .capacity, .noCode, .badCommand,
    .badAccess] : List ErrorCode).map (fun e => ({ treeAB with errCode := some e } : State).errCodeWord) =
    [1#32, 2#32, 3#32, 4#32, 5#32, 6#32, 7#32] := by decide

theorem witness_RaiseRecordsAndEnds : treeAB.errCode = none ∧ truncated.errCode ≠ none := by decide

theorem witness_FirstFaultStays :
    ∃ s1 s2 s3 : State, s1.errCode ≠ none ∧ s2.errCode ≠ none ∧ s3.errCode ≠ none ∧
      (∃ t, step s1 = .next t ∧ t.errCode ≠ none) ∧ (∃ t, step s2 = .next t ∧ t.errCode = none) ∧
      ∃ t, step s3 = .next t ∧ t.errCode = none :=
  ⟨{ truncated with busy := true }, { truncated with busy := true, pending := 14#32 },
    { truncated with hostIn := [⟨false, .hardReset⟩] }, by decide, by decide, by decide,
    ⟨_, rfl, by decide⟩, ⟨_, rfl, by decide⟩, ⟨_, rfl, by decide⟩⟩

theorem witness_InvalidPaddingNeverRecorded :
    ∃ s : State, s.errCode ≠ some .invalidPadding ∧ s.busy = true ∧ s.pending = 5#32 ∧ ∃ t, step s = .next t :=
  ⟨busyWith 5#32 ⟨false, .hardReset⟩, by decide, rfl, rfl, _, rfl⟩

theorem witness_HardwareResetState :
    ∃ s s' : State, s.hostIn = ⟨true, .hardReset⟩ :: [] ∧ s.busy = true ∧ s'.hostIn = ⟨false, .hardReset⟩ :: [] ∧
      s'.busy = false :=
  ⟨busyWith 8#32 ⟨true, .hardReset⟩, { truncated with hostIn := [⟨false, .hardReset⟩] }, by decide⟩

/-! The encoder's stages. -/

theorem witness_AnalyzeCountsInput :
    ∃ s : State, s.errCode = none ∧ s.inLen.toNat = s.cfg.inCapacity ∧ s.input = [0x41#8, 0x42#8, 0x41#8] :=
  ⟨withText 3 [0x41#8, 0x42#8, 0x41#8], by decide +kernel⟩

/-- Three counts, one of them the largest there is. -/
def countsThree : State := withCounts 8 [(0x41#8, 3#24), (0x42#8, 1#24), (0xFF#8, 0xFFFFFF#24)]

theorem countsThree_present : countsThree.present = [0x41#8, 0x42#8, 0xFF#8] := by decide +kernel

theorem witness_BuildMakesTree : countsThree.errCode = none ∧ countsThree.present ≠ [] :=
  ⟨rfl, by rw [countsThree_present]; decide⟩

theorem witness_PopMinPicksLeastPair : popMin treeAB [1, 0, 2] = some (0, [1, 2]) := by decide

theorem witness_BuildRefinesSourceAlgorithm : [1, 0].length ≤ 2 := by decide

theorem witness_BuildOrdersChildren :
    1 < [1, 0, 2].length ∧ popMin treeAB [1, 0, 2] = some (0, [1, 2]) ∧ popMin treeAB [1, 2] = some (1, [2]) ∧
    countsThree.errCode = none ∧ countsThree.present ≠ [] ∧ countsThree.present.length ≤ 4 ∧
    4 < 2 * countsThree.present.length - 1 := by
  rw [countsThree_present]
  decide

theorem witness_BuildOfEmptyTable : ∃ s : State, s.errCode = none ∧ s.root ≠ 511#9 ∧ ∀ x, s.freqAt x = 0#24 :=
  ⟨treeAB, by decide, by decide, fun x => by simp [State.freqAt, treeAB, State.resetOf]⟩

theorem witness_AssignWithoutTree : codesAB.errCode = none ∧ codesAB.root = 511#9 := by decide +kernel

theorem witness_AssignLoneLeaf :
    treeA.errCode = none ∧ treeA.root ≠ 511#9 ∧ (treeA.nodeAt treeA.root.toNat).leaf = true := by decide

theorem witness_AssignWritesPaths : treeAB.errCode = none ∧ TreeShape treeAB 2 ∧ 2 ≤ 2 := ⟨rfl, tree_two, by decide⟩

theorem witness_AssignedCodesPrefixFree :
    treeAB.quiet ∧ TreeOK treeAB ∧ treeA.quiet ∧ TreeOK treeA ∧ codesAB.quiet ∧ TreeOK codesAB :=
  ⟨⟨rfl, rfl⟩, .inr ⟨2, tree_two⟩, ⟨rfl, rfl⟩, .inr ⟨1, tree_one⟩, ⟨rfl, rfl⟩, .inl ⟨rfl, rfl⟩⟩

theorem witness_AssignedCodeLengthsBounded :
    treeA.errCode = none ∧ TreeShape treeA 1 ∧ treeAB.errCode = none ∧ TreeShape treeAB 2 :=
  ⟨rfl, tree_one, rfl, tree_two⟩

theorem witness_AssignedCodeComplete : treeAB.errCode = none ∧ TreeShape treeAB 2 ∧ 2 ≤ 2 :=
  ⟨rfl, tree_two, by decide⟩

theorem witness_HuffmanCodeIsOptimal :
    ∃ c : Byte → List Bool, countsThree.quiet ∧ countsThree.present ≠ [] ∧ (∀ x ∈ countsThree.present, c x ≠ []) ∧
      ∀ x ∈ countsThree.present, ∀ y ∈ countsThree.present, x ≠ y → ¬ c x <+: c y := by
  refine ⟨fun x => if x = 0x41#8 then [true, true] else if x = 0x42#8 then [true, false] else [false], ⟨rfl, rfl⟩, ?_⟩
  rw [countsThree_present]
  decide

theorem witness_HuffmanCodeIsOptimal_one :
    ∃ s : State, s.quiet ∧ s.present = [0x41#8] :=
  ⟨withCounts 8 [(0x41#8, 7#24)], ⟨rfl, rfl⟩, by decide +kernel⟩

/-- "AB" under the codes A "0", B "10", C "11". -/
def encodable : State := { codesABC with inMem := [(0, 0x41#8), (1, 0x42#8)], inLen := 2#32 }

theorem witness_EncodeConcatenatesCodes :
    encodable.errCode = none ∧ (∀ x ∈ encodable.input, encodable.hasCode x) ∧
      encodable.input.flatMap encodable.code = [false, true, false] ∧ 3 ≤ encodable.cfg.encCapacity := by
  unfold State.hasCode
  decide +kernel

theorem witness_EncodeStopsAtMissingCode :
    ∃ (s : State) (i : Nat), s.errCode = none ∧ i < s.inLen.toNat ∧ (∀ j, j < i → s.hasCode (s.inAt j)) ∧
      ¬ s.hasCode (s.inAt i) ∧ ((s.input.take i).flatMap s.code).length ≤ s.cfg.encCapacity :=
  ⟨{ encodable with inMem := [(0, 0x41#8), (1, 0x44#8)] }, 1, by unfold State.hasCode; decide +kernel⟩

/-- Four nine-bit codes for a capacity of 32 bits: V46. -/
def tooLong : State :=
  { withCodes 4 [(0x41#8, List.replicate 9 true)] with
    inMem := [(0, 0x41#8), (1, 0x41#8), (2, 0x41#8), (3, 0x41#8)], inLen := 4#32 }

theorem witness_EncodeStopsAtCapacity :
    tooLong.errCode = none ∧ 3 < tooLong.inLen.toNat ∧ (∀ j, j ≤ 3 → tooLong.hasCode (tooLong.inAt j)) ∧
      ((tooLong.input.take 3).flatMap tooLong.code).length ≤ tooLong.cfg.encCapacity ∧
      tooLong.cfg.encCapacity < ((tooLong.input.take 4).flatMap tooLong.code).length := by
  unfold State.hasCode
  have h : ∀ j, j < 4 → tooLong.codeLenAt (tooLong.inAt j) ≠ 0#8 := by decide +kernel
  exact ⟨rfl, by decide, fun j hj => h j (by omega), by decide +kernel, by decide +kernel⟩

/-- A full encoded string of a machine of capacity 1. -/
def fullBits : State := encodedAs (withCodes 1 []) [false, true, false, true, false, true, false, true]

theorem witness_PackProducesArtifact : fullBits.errCode = none ∧ fullBits.encLen.toNat = fullBits.cfg.encCapacity := by
  decide

theorem witness_PackAlwaysPads :
    fullBits.errCode = none ∧ fullBits.encLen.toNat ≤ fullBits.cfg.encCapacity ∧ fullBits.encLen.toNat % 8 = 0 ∧
      fullBits.encLen = 8#32 := by decide

theorem witness_PackOfZeroBits : treeAB.quiet ∧ treeAB.encLen = 0#32 := by
  unfold State.quiet
  decide

/-! The decoder's stages. -/

/-- A packed sequence of a machine of capacity 8. -/
def artifact (bytes : List Byte) : State := packedAs codesAB bytes

theorem witness_UnpackRecoversBits :
    (∃ s : State, s.errCode = none ∧ 1 ≤ s.pkLen.toNat ∧ 1 ≤ (s.pkAt 0).toNat ∧ (s.pkAt 0).toNat = 8 ∧
      (s.pkAt 0).toNat ≤ 8 * (s.pkLen.toNat - 1) ∧ 8 * (s.pkLen.toNat - 1) - (s.pkAt 0).toNat ≤ s.cfg.encCapacity) ∧
    (∃ s : State, s.errCode = none ∧ 1 ≤ s.pkLen.toNat ∧ (s.pkAt 0).toNat = 1 ∧
      (s.pkAt 0).toNat ≤ 8 * (s.pkLen.toNat - 1) ∧ 8 * (s.pkLen.toNat - 1) - (s.pkAt 0).toNat ≤ s.cfg.encCapacity) ∧
    ∃ (s : State) (e : List Bool), s.errCode = none ∧ s.packedBytes = packed e ∧ e.length ≤ s.cfg.encCapacity ∧
      e = [false, true] :=
  ⟨⟨artifact [0x08#8, 0x00#8], by decide +kernel⟩, ⟨artifact [0x01#8, 0xFE#8], by decide +kernel⟩,
    artifact [0x06#8, 0x40#8], [false, true], by decide +kernel⟩

theorem witness_UnpackRejectsBadHeader :
    (∃ s : State, s.errCode = none ∧ 1 ≤ s.pkLen.toNat ∧ (s.pkAt 0).toNat = 0) ∧
    (∃ s : State, s.errCode = none ∧ 1 ≤ s.pkLen.toNat ∧ (s.pkAt 0).toNat = 9) ∧
    ∃ s : State, s.errCode = none ∧ s.pkLen.toNat = 1 ∧ (s.pkAt 0).toNat = 1 :=
  ⟨⟨artifact [0x00#8, 0x00#8], by decide +kernel⟩, ⟨artifact [0x09#8, 0x00#8], by decide +kernel⟩,
    artifact [0x01#8], by decide +kernel⟩

/-- An artifact of `PK_CAP` bytes and header 7 on a machine of capacity 1: 9 bits for 8 places. -/
def overfull : State := packedAs (withCodes 1 []) [0x07#8, 0xFF#8, 0x80#8]

theorem witness_UnpackCornerCases :
    (codesAB.errCode = none ∧ codesAB.pkLen = 0#32) ∧
    (∃ s s' t t' : State, s.errCode = none ∧ s'.errCode = none ∧ s'.cfg = s.cfg ∧ s'.pkLen = s.pkLen ∧
      s'.pkAt 0 = s.pkAt 0 ∧ s'.pkAt 1 ≠ s.pkAt 1 ∧
      s'.payload.take (8 * (s.pkLen.toNat - 1) - (s.pkAt 0).toNat) =
        s.payload.take (8 * (s.pkLen.toNat - 1) - (s.pkAt 0).toNat) ∧
      exec .unpack s = .next t ∧ exec .unpack s' = .next t' ∧ t.errCode = none) ∧
    (overfull.errCode = none ∧ overfull.pkLen.toNat ≤ overfull.cfg.pkCapacity ∧ 1 ≤ overfull.pkLen.toNat ∧
      1 ≤ (overfull.pkAt 0).toNat ∧ (overfull.pkAt 0).toNat ≤ 8 ∧
      overfull.cfg.encCapacity < 8 * (overfull.pkLen.toNat - 1) - (overfull.pkAt 0).toNat) ∧
    ∃ s : State, s.errCode = none ∧ s.pkLen = 2#32 ∧ s.pkAt 0 = 8#8 := by
  refine ⟨by decide +kernel, ?_, by decide, artifact [0x08#8, 0xFF#8], by decide +kernel⟩
  obtain ⟨t, h, ht⟩ := next_of_after
    (show after (exec .unpack (artifact [0x06#8, 0x40#8])) (fun t => t.errCode == none) = true by decide +kernel)
  obtain ⟨t', h', -⟩ := next_of_after
    (show after (exec .unpack (artifact [0x06#8, 0x7F#8])) (fun _ => true) = true by decide +kernel)
  exact ⟨artifact [0x06#8, 0x40#8], artifact [0x06#8, 0x7F#8], t, t', rfl, rfl, rfl, rfl, by decide +kernel,
    by decide +kernel, by decide +kernel, h, h', by simpa using ht⟩

theorem witness_UnpackInvertsPack : fullBits.quiet ∧ fullBits.encLen.toNat = fullBits.cfg.encCapacity :=
  ⟨⟨rfl, rfl⟩, by decide⟩

theorem witness_MatchIsSmallestSymbol :
    [true] ≠ [] ∧ codesAB.matchCode [true] = some 0x42#8 ∧ codesAB.matchCode [true, true] = none ∧
      255 < (List.replicate 256 true).length := by decide +kernel

theorem witness_DecodeScansGreedily :
    (∃ s : State, s.errCode = none ∧ (scan s.matchCode [] s.encoded).1.length = s.cfg.decCapacity ∧
      (scan s.matchCode [] s.encoded).2 = []) ∧
    ∃ s : State, s.errCode = none ∧ (scan s.matchCode [] s.encoded).1.length ≤ s.cfg.decCapacity ∧
      (scan s.matchCode [] s.encoded).2 ≠ [] :=
  ⟨⟨encodedAs (withCodes 2 [(0x41#8, [false])]) [false, false], by decide +kernel⟩,
    encodedAs (withCodes 2 [(0x41#8, [false])]) [false, true], by decide +kernel⟩

theorem witness_DecodeStopsWhenFull :
    ∃ (s : State) (p : Nat), s.errCode = none ∧ p < s.encLen.toNat ∧
      (scan s.matchCode [] (s.encoded.take p)).1.length = s.cfg.decCapacity ∧
      (scan s.matchCode [] (s.encoded.take (p + 1))).1.length = s.cfg.decCapacity + 1 :=
  ⟨encodedAs (withCodes 1 [(0x41#8, [false])]) [false, false], 1, by decide +kernel⟩

theorem witness_DecodeInvertsEncode :
    ∃ (s : State) (xs : List Byte), s.errCode = none ∧ PrefixFree s ∧ (∀ x ∈ xs, s.hasCode x) ∧
      s.encoded = xs.flatMap s.code ∧ xs.length ≤ s.cfg.decCapacity ∧ xs = [0x41#8, 0x42#8] := by
  refine ⟨encodedAs codesAB [false, true], [0x41#8, 0x42#8], rfl, codesAB_prefixFree, ?_, ?_, by decide +kernel, rfl⟩
  · unfold State.hasCode; decide +kernel
  · decide +kernel

/-! The composites. -/

theorem witness_CompressFollowsStages :
    treeAB.errCode = none ∧ treeAB.inLen = 0#32 ∧ textAB.errCode = none ∧ textAB.inLen ≠ 0#32 := by decide

theorem witness_CompressDescribesInput :
    ∃ s : State, s.quiet ∧ 1 ≤ s.inLen.toNat ∧ s.inLen.toNat = s.cfg.inCapacity :=
  ⟨withText 2 [0x41#8, 0x42#8], ⟨rfl, rfl⟩, by decide⟩

theorem witness_CompressNeverFaults : textAB.quiet ∧ textAB.inLen.toNat ≤ textAB.cfg.inCapacity :=
  ⟨⟨rfl, rfl⟩, by decide⟩

theorem witness_CompressExpandRoundTrip :
    textAB.quiet ∧ textAB.inLen.toNat ≤ textAB.cfg.inCapacity ∧ treeAB.quiet ∧
      treeAB.inLen.toNat ≤ treeAB.cfg.inCapacity :=
  ⟨⟨rfl, rfl⟩, by decide, ⟨rfl, rfl⟩, by decide⟩

theorem witness_CompressSingleSymbol :
    ∃ (s : State) (x : Byte), s.quiet ∧ 1 ≤ s.inLen.toNat ∧ s.inLen.toNat = s.cfg.inCapacity ∧ ∀ y ∈ s.input, y = x :=
  ⟨withText 2 [0x41#8, 0x41#8], 0x41#8, ⟨rfl, rfl⟩, by decide⟩

/-- "AB" again, with other stale contents. -/
def textAB' : State := { textAB with empty := true, decLen := 5#32, inMem := [(0, 0x41#8), (1, 0x42#8), (2, 0x43#8)] }

theorem witness_CompressIsDeterministic :
    ∃ t1 t2, textAB.quiet ∧ textAB'.quiet ∧ textAB.cfg = textAB'.cfg ∧ textAB.inLen = textAB'.inLen ∧
      textAB.input = textAB'.input ∧ exec .compress textAB = .next t1 ∧ exec .compress textAB' = .next t2 := by
  obtain ⟨t1, h1, -⟩ := next_of_after test_compress
  obtain ⟨t2, h2, -⟩ := next_of_after
    (show after (exec .compress textAB') (fun _ => true) = true by decide +kernel)
  exact ⟨t1, t2, ⟨rfl, rfl⟩, ⟨rfl, rfl⟩, rfl, rfl, by decide, h1, h2⟩

theorem witness_ExpandFollowsStages :
    codesAB.errCode = none ∧ codesAB.pkLen = 0#32 ∧ (artifact [0x06#8, 0x40#8]).errCode = none := by decide +kernel

theorem witness_ExpandDecodesArtifact :
    ∃ (s : State) (xs : List Byte), s.errCode = none ∧ PrefixFree s ∧ (∀ x ∈ xs, s.hasCode x) ∧
      s.packedBytes = packed (xs.flatMap s.code) ∧ xs.length ≤ s.cfg.decCapacity ∧
      (xs.flatMap s.code).length ≤ s.cfg.encCapacity ∧ xs = [0x41#8, 0x42#8] := by
  refine ⟨artifact [0x06#8, 0x40#8], [0x41#8, 0x42#8], rfl, codesAB_prefixFree, ?_, ?_, by decide +kernel,
    by decide +kernel, rfl⟩
  · unfold State.hasCode; decide +kernel
  · decide +kernel

/-! The whole machine. -/

theorem witness_CommandsWriteOnlyTheirOutputs :
    (∃ t, exec .nop treeAB = .next t) ∧ ∃ t, exec .compress textAB = .next t :=
  ⟨⟨_, rfl⟩, (next_of_after test_compress).imp fun _ h => h.1⟩

theorem witness_EveryStepKeepsInvariant :
    ∃ s t : State, Inv s ∧ s.busy = true ∧ decode s.pending = .ok .assign ∧ step s = .next t := by
  obtain ⟨t, h, -⟩ := next_of_after
    (show after (step (busyWith 3#32 ⟨false, .read 0#4 1#28⟩)) (fun _ => true) = true by decide +kernel)
  exact ⟨_, t, busy_inv _ _, rfl, by decide, h⟩

theorem witness_ResetMeetsInvariant :
    Config.wf ⟨1#24⟩ = true ∧ Config.wf ⟨0xFFFFFF#24⟩ = true := by decide

/-! The host port. -/

/-- An idle machine of capacity 8 whose stream is one action. -/
def idleWith (a : HostAction) : State := { treeAB with hostIn := [⟨false, a⟩] }

theorem witness_IllegalAccessRecordsBadAccess :
    (idleWith .hardReset).busy = false ∧ treeAB.errCode = none ∧ truncated.errCode ≠ none ∧
    illegalTarget treeAB.cfg 11 0 ∧ illegalTarget treeAB.cfg 0 11 ∧ illegalTarget treeAB.cfg 1 8 ∧
    illegalTarget treeAB.cfg 2 256 ∧ illegalTarget treeAB.cfg 3 511 ∧ illegalTarget treeAB.cfg 7 2048 ∧
    illegalTarget treeAB.cfg 9 10 ∧ ¬ illegalTarget treeAB.cfg 9 9 := by
  unfold illegalTarget
  decide

theorem witness_IllegalAccessRecordsBadAccess_values :
    readOnly 0 1 ∧ readOnly 0 10 ∧ readOnly 5 0 ∧ readOnly 10 0 ∧ illegalValue treeAB.cfg 0 4 9 ∧
    illegalValue treeAB.cfg 0 7 65 ∧ illegalValue treeAB.cfg 0 8 11 ∧ illegalValue treeAB.cfg 2 0 (2 ^ 24) ∧
    (idleWith (.read 0#4 0#28)).hostIn = ⟨false, .read 0#4 0#28⟩ :: [] := by
  refine ⟨.inl ?_, .inl ?_, .inr ?_, .inr ?_, .inl ?_, .inr (.inl ?_), .inr (.inr (.inl ?_)),
    .inr (.inr (.inr ?_)), ?_⟩ <;> decide

theorem witness_LegalReadReturnsValue :
    treeAB.busy = false ∧ (idleWith (.read 0#4 10#28)).hostIn = ⟨false, .read 0#4 10#28⟩ :: [] ∧
    ¬ illegalTarget treeAB.cfg 0 10 ∧ ¬ illegalTarget treeAB.cfg 1 7 ∧ ¬ illegalTarget treeAB.cfg 2 255 ∧
    ¬ illegalTarget treeAB.cfg 3 510 ∧ ¬ illegalTarget treeAB.cfg 4 510 ∧ ¬ illegalTarget treeAB.cfg 5 510 ∧
    ¬ illegalTarget treeAB.cfg 6 255 ∧ ¬ illegalTarget treeAB.cfg 7 2047 ∧ ¬ illegalTarget treeAB.cfg 8 7 ∧
    ¬ illegalTarget treeAB.cfg 9 9 ∧ ¬ illegalTarget treeAB.cfg 10 7 := by
  unfold illegalTarget
  decide

/-- The four spaces whose words are made from other forms, each read at its last index. -/
theorem witness_LegalReadReturnsValue_words :
    (idleWith (.read 4#4 510#28)).hostIn = ⟨false, .read 4#4 510#28⟩ :: [] ∧
    (idleWith (.read 5#4 510#28)).hostIn = ⟨false, .read 5#4 510#28⟩ :: [] ∧
    (idleWith (.read 7#4 2047#28)).hostIn = ⟨false, .read 7#4 2047#28⟩ :: [] ∧
    (idleWith (.read 8#4 7#28)).hostIn = ⟨false, .read 8#4 7#28⟩ :: [] ∧ treeAB.cfg.inCapacity - 1 = 7 := by decide

theorem witness_NodeWordFields :
    (treeAB.nodeAt 0).left = 511#9 ∧ (treeAB.nodeAt 0).right = 511#9 ∧ (treeAB.nodeAt 0).leaf = true ∧
    (treeAB.nodeAt 0).sym = 0x41#8 ∧ (treeAB.nodeAt 2).leaf = false ∧ (treeAB.nodeAt 2).sym = 0x00#8 := by decide

theorem witness_EncBytesAreMsbFirst :
    treeAB.busy = false ∧
    (idleWith (.write 8#4 7#28 0xFF#32)).hostIn = ⟨false, .write 8#4 7#28 ((0xFF#8 : Byte).setWidth 32)⟩ :: [] ∧
    (7#28).toNat < treeAB.cfg.inCapacity := by decide

theorem witness_CodeWordsAreMsbFirst :
    treeAB.busy = false ∧
    (idleWith (.write 7#4 2047#28 5#32)).hostIn = ⟨false, .write 7#4 2047#28 5#32⟩ :: [] ∧ (2047#28).toNat < 2048 ∧
    (idleWith (.write 6#4 255#28 255#32)).hostIn =
      ⟨false, .write 6#4 ((255#8 : Byte).setWidth 28) ((255#8 : Byte).setWidth 32)⟩ :: [] := by decide

theorem witness_LegalWriteStoresValue :
    treeAB.busy = false ∧
    (idleWith (.write 0#4 4#28 8#32)).hostIn = ⟨false, .write 0#4 4#28 8#32⟩ :: [] ∧
    (8#32).toNat ≤ treeAB.cfg.inCapacity ∧ (64#32).toNat ≤ treeAB.cfg.encCapacity ∧
    (10#32).toNat ≤ treeAB.cfg.pkCapacity ∧ (255#28).toNat < 256 ∧ (0xFFFFFF#32).toNat ≤ 2 ^ 24 - 1 ∧
    (7#28).toNat < treeAB.cfg.inCapacity ∧ (9#28).toNat < treeAB.cfg.pkCapacity ∧ (255#32).toNat < 256 := by decide

end Sys2Proof.Tests
end

section
/-! Proofs about the host port: what names a location, when an access is illegal, and what an idle step does with it. -/

namespace Sys2Proof.Machine

/-! ### The targets of accesses: 20_memory.md R50, R52 -/

/-- The number of a space: the table of R50. -/
def spaceNumber : Space → Nat
  | .csr => 0
  | .inp => 1
  | .freq => 2
  | .nodeFreq => 3
  | .nodeLink => 4
  | .nodeSym => 5
  | .codeLen => 6
  | .codeBits => 7
  | .enc => 8
  | .pk => 9
  | .dec => 10

theorem spaceOf_eq_some_iff (n : BitVec 4) (space : Space) : spaceOf n = some space ↔ n.toNat = spaceNumber space := by
  revert n
  cases space <;> decide

theorem spaceOf_eq_none_iff (n : BitVec 4) : spaceOf n = none ↔ 10 < n.toNat := by
  revert n
  decide

theorem spaceNumber_le (space : Space) : spaceNumber space ≤ 10 := by
  cases space <;> decide

/-- The range the claims state by number is the one the port checks by space. -/
theorem legalIndexCount_spaceNumber (cfg : Config) (space : Space) :
    legalIndexCount cfg (spaceNumber space) = indexCount cfg space := by
  cases space <;> rfl

/-- An access reaches a space exactly when its number names that space and its index is in range. -/
theorem readTarget_eq_some_iff (cfg : Config) (n : BitVec 4) (i : BitVec 28) (space : Space) :
    readTarget cfg n i = some space ↔ n.toNat = spaceNumber space ∧ i.toNat < indexCount cfg space := by
  rw [← spaceOf_eq_some_iff]
  cases h : spaceOf n with
  | none => simp [readTarget, h]
  | some space' =>
    simp only [readTarget, h, Option.ite_none_right_eq_some, Option.some.injEq]
    constructor
    · rintro ⟨hi, rfl⟩
      exact ⟨rfl, hi⟩
    · rintro ⟨rfl, hi⟩
      exact ⟨hi, rfl⟩

theorem readTarget_eq_none_iff (cfg : Config) (n : BitVec 4) (i : BitVec 28) :
    readTarget cfg n i = none ↔ illegalTarget cfg n.toNat i.toNat := by
  cases h : spaceOf n with
  | none => simp [readTarget, h, illegalTarget, (spaceOf_eq_none_iff n).mp h]
  | some space =>
    have hn := (spaceOf_eq_some_iff n space).mp h
    have hle := spaceNumber_le space
    simp only [readTarget, h, illegalTarget, hn, legalIndexCount_spaceNumber, ite_eq_right_iff, reduceCtorEq,
      imp_false, Nat.not_lt]
    omega

/-! ### Illegal accesses: R52 -/

theorem hostRead_of_illegalTarget {s : State} {n : BitVec 4} {i : BitVec 28}
    (h : illegalTarget s.cfg n.toNat i.toNat) : hostRead s n i = none := by
  rw [hostRead, (readTarget_eq_none_iff s.cfg n i).mpr h, Option.map_none]

/-- R52 (c). -/
theorem writeElement_of_readOnly (s : State) {space : Space} {i : Nat} (v : Word)
    (h : readOnly (spaceNumber space) i) : writeElement s space i v = none := by
  cases space
  case nodeFreq | nodeLink | nodeSym | dec => rfl
  case csr =>
    have hi : i = 1 ∨ i = 2 ∨ i = 3 ∨ i = 5 ∨ i = 6 ∨ i = 9 ∨ i = 10 := by simpa [readOnly, spaceNumber] using h
    rcases hi with rfl | rfl | rfl | rfl | rfl | rfl | rfl <;> rfl
  all_goals simp [readOnly, spaceNumber] at h

/-- R52 (d). -/
theorem writeElement_of_illegalValue {s : State} {space : Space} {i : Nat} {v : Word}
    (h : illegalValue s.cfg (spaceNumber space) i v.toNat) : writeElement s space i v = none := by
  cases space
  case csr =>
    have hi : (i = 4 ∧ s.cfg.inCap.toNat < v.toNat) ∨ (i = 7 ∧ 8 * s.cfg.inCap.toNat < v.toNat) ∨
        (i = 8 ∧ s.cfg.inCap.toNat + 2 < v.toNat) := by
      simpa [illegalValue, spaceNumber] using h
    rcases hi with ⟨rfl, hv⟩ | ⟨rfl, hv⟩ | ⟨rfl, hv⟩ <;> exact if_neg (Nat.not_le.mpr hv)
  case freq =>
    have hv : 2 ^ 24 - 1 < v.toNat := by simpa [illegalValue, spaceNumber] using h
    exact if_neg (Nat.not_le.mpr hv)
  all_goals simp [illegalValue, spaceNumber] at h

theorem hostWrite_of_illegal {s : State} {n : BitVec 4} {i : BitVec 28} {v : Word}
    (h : illegalTarget s.cfg n.toNat i.toNat ∨ readOnly n.toNat i.toNat ∨
      illegalValue s.cfg n.toNat i.toNat v.toNat) : hostWrite s n i v = none := by
  cases ht : readTarget s.cfg n i with
  | none => simp only [hostWrite, ht]
  | some space =>
    obtain ⟨hn, -⟩ := (readTarget_eq_some_iff s.cfg n i space).mp ht
    rw [← readTarget_eq_none_iff, ht, hn] at h
    simp only [hostWrite, ht]
    rcases h with h | h | h
    · cases h
    · exact writeElement_of_readOnly s v h
    · exact writeElement_of_illegalValue h

/-! ### The host's action in an idle block -/

theorem step_of_idle {s : State} {early : Bool} {a : HostAction} {rest : List HostEvent}
    (hbusy : s.busy = false) (hin : s.hostIn = ⟨early, a⟩ :: rest) :
    step s = .next (act a { s with hostIn := rest }) := by
  simp [step, hbusy, hostStep, hin]

theorem act_write_of_illegal {s : State} {n : BitVec 4} {i : BitVec 28} {v : Word}
    (h : illegalTarget s.cfg n.toNat i.toNat ∨ readOnly n.toNat i.toNat ∨
      illegalValue s.cfg n.toNat i.toNat v.toNat) :
    act (.write n i v) s = s.record .badAccess (accessInfo n i) := by
  simp only [act, hostWrite_of_illegal h]

theorem act_read_of_illegalTarget {s : State} {n : BitVec 4} {i : BitVec 28}
    (h : illegalTarget s.cfg n.toNat i.toNat) :
    act (.read n i) s = (s.record .badAccess (accessInfo n i)).answer 0#32 := by
  simp only [act, hostRead_of_illegalTarget h]

/-- `CMD` is write-only and reads 0: 10_state.md R24. -/
theorem act_read_cmd (s : State) : act (.read 0#4 0#28) s = s.answer 0#32 := rfl

/-- Settles O55: an illegal access reaches no location, so all it does is `record`, and `answer` with 0 for a read. -/
theorem illegalAccessRecordsBadAccess : Obligations.IllegalAccessRecordsBadAccess := by
  intro s early rest n i hbusy
  have hquiet := record_of_quiet (s := { s with hostIn := rest }) .badAccess (accessInfo n i)
  have hfault := record_of_fault (s := { s with hostIn := rest }) .badAccess (accessInfo n i)
  refine ⟨fun v hin hill => ?_, fun hin hill => ?_, fun hin => ?_⟩
  · rw [step_of_idle hbusy hin, act_write_of_illegal (s := { s with hostIn := rest }) hill]
    exact ⟨fun hnone => by rw [hquiet hnone]; rfl, fun hsome => by rw [hfault hsome]⟩
  · rw [step_of_idle hbusy hin, act_read_of_illegalTarget (s := { s with hostIn := rest }) hill]
    exact ⟨fun hnone => by rw [hquiet hnone]; rfl, fun hsome => by rw [hfault hsome]; rfl⟩
  · rw [step_of_idle hbusy hin, act_read_cmd]
    rfl

end Sys2Proof.Machine
end

section
/-! Proofs about the host's words: what the bits of a `NODE_LINK`, `NODE_SYM` or `ENC` element hold, and what a legal
write of an `ENC` byte does. -/

namespace Sys2Proof.Machine

/-! ### The words of a node record: 30_encoding.md R75, R76 -/

/-- `left` below bit 16, `right` from bit 16 on; beyond their nine bits both read 0. -/
theorem getLsbD_nodeLinkWord (n : Node) (i : Nat) :
    (nodeLinkWord n).getLsbD i = if i < 16 then n.left.getLsbD i else n.right.getLsbD (i - 16) := by
  simp only [nodeLinkWord, BitVec.getLsbD_or, BitVec.getLsbD_shiftLeft, BitVec.getLsbD_setWidth]
  by_cases hlow : i < 16
  · have hword : i < 32 := by omega
    simp [hlow, hword]
  · have hleft : n.left.getLsbD i = false := BitVec.getLsbD_of_ge n.left i (by omega)
    by_cases hword : i < 32
    · have hshift : i - 16 < 32 := by omega
      simp [hlow, hleft, hword, hshift]
    · have hright : n.right.getLsbD (i - 16) = false := BitVec.getLsbD_of_ge n.right _ (by omega)
      simp [hlow, hleft, hright]

/-- `sym` below bit 8, `leaf` in bit 8, zeros above. -/
theorem getLsbD_nodeSymWord (n : Node) (i : Nat) :
    (nodeSymWord n).getLsbD i = if i < 8 then n.sym.getLsbD i else decide (i = 8) && n.leaf := by
  simp only [nodeSymWord, BitVec.getLsbD_or, BitVec.getLsbD_shiftLeft, BitVec.getLsbD_setWidth, BitVec.getLsbD_ofBool]
  by_cases hlow : i < 8
  · have hword : i < 32 := by omega
    simp [hlow, hword]
  · have hsym : n.sym.getLsbD i = false := BitVec.getLsbD_of_ge n.sym i (by omega)
    by_cases hleaf : i = 8
    · simp [hleaf]
    · have hbit : i - 8 ≠ 0 := by omega
      simp [hlow, hsym, hleaf, hbit]

theorem nodeLinkWord_left (n : Node) : (nodeLinkWord n).extractLsb' 0 9 = n.left := by
  ext i hi
  have hlow : 0 + i < 16 := by omega
  rw [BitVec.getElem_extractLsb', getLsbD_nodeLinkWord, if_pos hlow, Nat.zero_add, BitVec.getLsbD_eq_getElem hi]

theorem nodeLinkWord_right (n : Node) : (nodeLinkWord n).extractLsb' 16 9 = n.right := by
  ext i hi
  have hhigh : ¬ 16 + i < 16 := by omega
  rw [BitVec.getElem_extractLsb', getLsbD_nodeLinkWord, if_neg hhigh, Nat.add_sub_cancel_left,
    BitVec.getLsbD_eq_getElem hi]

/-- Bits 15:9 and 31:25, the two gaps of R75. -/
theorem nodeLinkWord_gap (n : Node) {start : Nat} (h : start = 9 ∨ start = 25) :
    (nodeLinkWord n).extractLsb' start 7 = 0#7 := by
  ext i hi
  rw [BitVec.getElem_extractLsb', getLsbD_nodeLinkWord, BitVec.getElem_zero]
  rcases h with rfl | rfl
  · have hlow : 9 + i < 16 := by omega
    rw [if_pos hlow, BitVec.getLsbD_of_ge n.left _ (by omega)]
  · have hhigh : ¬ 25 + i < 16 := by omega
    rw [if_neg hhigh, BitVec.getLsbD_of_ge n.right _ (by omega)]

theorem nodeSymWord_sym (n : Node) : (nodeSymWord n).extractLsb' 0 8 = n.sym := by
  ext i hi
  have hlow : 0 + i < 8 := by omega
  rw [BitVec.getElem_extractLsb', getLsbD_nodeSymWord, if_pos hlow, Nat.zero_add, BitVec.getLsbD_eq_getElem hi]

theorem nodeSymWord_leaf (n : Node) : (nodeSymWord n).getLsbD 8 = n.leaf := getLsbD_nodeSymWord n 8

theorem nodeSymWord_top (n : Node) : (nodeSymWord n).extractLsb' 9 23 = 0#23 := by
  ext i hi
  have hhigh : ¬ 9 + i < 8 := by omega
  have hbit : 9 + i ≠ 8 := by omega
  rw [BitVec.getElem_extractLsb', getLsbD_nodeSymWord, if_neg hhigh, decide_eq_false hbit, Bool.false_and,
    BitVec.getElem_zero]

/-- Settles O57, field by field; the three words named by R75 and R76 follow by evaluating the record's fields. -/
theorem nodeWordFields : Obligations.NodeWordFields := by
  intro s k
  refine ⟨⟨nodeLinkWord_left _, nodeLinkWord_gap _ (.inl rfl), nodeLinkWord_right _, nodeLinkWord_gap _ (.inr rfl),
      fun hleft hright => ?_⟩,
    nodeSymWord_sym _, nodeSymWord_leaf _, nodeSymWord_top _, fun hleaf hsym => ?_, fun hleaf hsym => ?_⟩
  · show nodeLinkWord (s.nodeAt k) = 0x01FF01FF#32
    rw [nodeLinkWord, hleft, hright]; rfl
  · show nodeSymWord (s.nodeAt k) = 0x00000141#32
    rw [nodeSymWord, hleaf, hsym]; rfl
  · show nodeSymWord (s.nodeAt k) = 0x00000000#32
    rw [nodeSymWord, hleaf, hsym]; rfl

/-! ### The bytes of `ENC`: R77 -/

theorem getLsbD_encByteAt (s : State) (j : Nat) {k : Nat} (h : k < 8) :
    (s.encByteAt j).getLsbD (7 - k) = s.encAt (8 * j + k) := by
  rw [State.encByteAt, getLsbD_byte8 (by simp) h]
  simp

theorem encAt_putEnc_bits8_inside (s : State) (p : Nat) (v : Byte) {k : Nat} (h : k < 8) :
    (s.putEnc p (bits8 v)).encAt (p + k) = v.getLsbD (7 - k) := by
  rw [encAt_putEnc_inside s (by simpa using h), bits8_getElem]

theorem encAt_putEnc_bits8_outside (s : State) {p q : Nat} (v : Byte) (h : q < p ∨ p + 8 ≤ q) :
    (s.putEnc p (bits8 v)).encAt q = s.encAt q :=
  encAt_putEnc_outside s (by simpa using h)

theorem writeElement_enc_byte (s : State) (j : Nat) (v : Byte) :
    writeElement s .enc j (v.setWidth 32) = some (s.putEnc (8 * j) (bits8 v)) := by
  have hfits : (v.setWidth 32).toNat < 256 := by
    have := v.isLt
    simp only [BitVec.toNat_setWidth]
    omega
  have hback : (v.setWidth 32).setWidth 8 = v := by simp
  rw [writeElement, if_pos hfits, hback]

/-- A write the port accepts is all that the host's action does: R51. -/
theorem act_write_of_writeElement {s t : State} {n : BitVec 4} {i : BitVec 28} {v : Word} {space : Space}
    (hn : n.toNat = spaceNumber space) (hi : i.toNat < indexCount s.cfg space)
    (hw : writeElement s space i.toNat v = some t) : act (.write n i v) s = t := by
  have ht := (readTarget_eq_some_iff s.cfg n i space).mpr ⟨hn, hi⟩
  simp only [act, hostWrite, ht, hw]

/-- Settles O58: a read is `Byte8` of the eight positions, and a write puts `Bits8` of the value there. -/
theorem encBytesAreMsbFirst : Obligations.EncBytesAreMsbFirst := by
  refine ⟨fun s j k hk => ?_, fun s early rest j v hbusy hin hj => ?_⟩
  · have hk' : 7 - k < 32 := by omega
    simp [State.elementAt, hk', getLsbD_encByteAt s j hk]
  · have hact : act (.write 8#4 j (v.setWidth 32)) { s with hostIn := rest } =
        State.putEnc { s with hostIn := rest } (8 * j.toNat) (bits8 v) :=
      act_write_of_writeElement (space := .enc) rfl hj (writeElement_enc_byte _ _ v)
    refine ⟨_, by rw [step_of_idle hbusy hin, hact], rfl, fun k hk => ?_, fun p hp => ?_⟩
    · exact encAt_putEnc_bits8_inside _ _ v hk
    · exact encAt_putEnc_bits8_outside { s with hostIn := rest } v hp

end Sys2Proof.Machine
end

section
/-! Proofs about `ANALYZE`: the table it leaves, its counts as numbers, and their sum over all symbols. -/

namespace Sys2Proof.Machine

/-! ### The state `ANALYZE` leaves: 40_frequency_analyzer.md R90 -/

theorem exec_analyze_of_quiet {s : State} (h : s.errCode = none) :
    exec .analyze s =
      .next { s with freq := countSymbols s.input (Vector.replicate 256 0#24), busy := false } :=
  runCommand_of_quiet analyzeStage h

@[simp] theorem input_length (s : State) : s.input.length = s.inLen.toNat := by simp [State.input]

/-! ### Its counts: R91, R92 -/

/-- R92: from a cleared table no increment wraps while the symbols counted fit the element. -/
theorem toNat_countSymbols_zero {l : List Byte} (h : l.length < 2 ^ 24) (x : Byte) :
    ((countSymbols l (Vector.replicate 256 0#24))[x.toNat]'x.isLt).toNat = l.count x := by
  have hcount : l.count x < 2 ^ 24 := List.count_le_length.trans_lt h
  rw [countSymbols_getElem, Vector.getElem_replicate, BitVec.zero_add, BitVec.toNat_ofNat, Nat.mod_eq_of_lt hcount]

/-- An input within `IN_CAP` fits the 24-bit element, since `IN_CAP` itself does: R92. -/
theorem input_length_lt {s : State} (h : s.inLen.toNat ≤ s.cfg.inCapacity) : s.input.length < 2 ^ 24 := by
  rw [input_length]
  exact h.trans_lt s.cfg.inCap.isLt

/-- Stated over any list of keys, so that the 256 symbols are not unrolled. -/
theorem sum_map_count_of_nodup {keys l : List Byte} (hnodup : keys.Nodup) (hmem : ∀ x ∈ l, x ∈ keys) :
    (keys.map (fun x => l.count x)).sum = l.length := by
  have hsum := Multiset.sum_count_eq_card (s := keys.toFinset) (m := (l : Multiset Byte))
    (fun x hx => List.mem_toFinset.mpr (hmem x hx))
  simpa only [List.sum_toFinset _ hnodup, Multiset.coe_count, Multiset.coe_card] using hsum

theorem sum_symbols_count (l : List Byte) : (symbols.map (fun x => l.count x)).sum = l.length :=
  sum_map_count_of_nodup symbols_nodup (fun x _ => mem_symbols x)

/-- Settles O17: the counts are those of the input as numbers, so their sum is its length and a count is zero exactly
for a symbol that does not occur. -/
theorem analyzeCountsInput : Obligations.AnalyzeCountsInput := by
  intro s hquiet hfits
  have hcount := toNat_countSymbols_zero (input_length_lt hfits)
  refine ⟨_, exec_analyze_of_quiet hquiet, rfl, hcount, ?_, fun x => ?_⟩
  · rw [← input_length, ← sum_symbols_count]
    exact congrArg List.sum (List.map_congr_left fun x _ => hcount x)
  · rw [← List.count_pos_iff, ← hcount x, Nat.pos_iff_ne_zero, ne_eq, ← BitVec.toNat_inj]
    rfl

end Sys2Proof.Machine
end

section
/-! Proofs about the queue of the Tree Builder: the order of R96, what `PopMin` takes out, and when it can. -/

namespace Sys2Proof.Machine

/-! ### The order of R96 -/

theorem popsBefore_iff (s : State) (a b : Nat) :
    popsBefore s a b ↔ (s.nodeAt a).freq.toNat < (s.nodeAt b).freq.toNat ∨
      ((s.nodeAt a).freq.toNat = (s.nodeAt b).freq.toNat ∧ a < b) := by
  simp [popsBefore]

/-- `j` does not pop before `k`: the form in which R96 is claimed of the handle popped. -/
theorem not_popsBefore_iff (s : State) (j k : Nat) :
    ¬ popsBefore s j k ↔ (s.nodeAt k).freq.toNat < (s.nodeAt j).freq.toNat ∨
      ((s.nodeAt k).freq.toNat = (s.nodeAt j).freq.toNat ∧ k ≤ j) := by
  rw [popsBefore_iff]
  omega

theorem not_popsBefore_self (s : State) (k : Nat) : ¬ popsBefore s k k := by
  simp [popsBefore_iff]

theorem popsBefore_asymm {s : State} {a b : Nat} (h : popsBefore s a b) : ¬ popsBefore s b a := by
  rw [popsBefore_iff] at h ⊢
  omega

theorem not_popsBefore_trans {s : State} {a b c : Nat} (hab : ¬ popsBefore s a b)
    (hbc : ¬ popsBefore s b c) : ¬ popsBefore s a c := by
  rw [not_popsBefore_iff] at *
  omega

/-- Two handles never tie. -/
theorem popsBefore_of_not {s : State} {a b : Nat} (hne : a ≠ b) (h : ¬ popsBefore s b a) : popsBefore s a b := by
  rw [not_popsBefore_iff] at h
  rw [popsBefore_iff]
  omega

/-- The order reads only the two records it compares. -/
theorem popsBefore_putNode {s : State} {m a b : Nat} (n : Node) (ha : m ≠ a) (hb : m ≠ b) :
    popsBefore (s.putNode m n) a b = popsBefore s a b := by
  simp only [popsBefore, nodeAt_putNode_other s n ha, nodeAt_putNode_other s n hb]

/-! ### `PopMin`: R95, R96 -/

theorem smallest_mem (s : State) (best : Nat) (l : List Nat) : smallest s best l ∈ best :: l := by
  induction l generalizing best with
  | nil => exact List.mem_cons_self
  | cons k l ih =>
    rw [smallest]
    by_cases hk : popsBefore s k best
    · rw [if_pos hk]
      exact List.mem_cons_of_mem best (ih k)
    · rw [if_neg hk]
      exact List.mem_cons.mpr ((List.mem_cons.mp (ih best)).imp_right (List.mem_cons_of_mem k))

/-- The handle compared away does not pop before the one kept, hence not before the result. -/
theorem smallest_least (s : State) (best : Nat) (l : List Nat) :
    ∀ j ∈ best :: l, ¬ popsBefore s j (smallest s best l) := by
  induction l generalizing best with
  | nil =>
    intro j hj
    rw [List.mem_singleton.mp hj]
    exact not_popsBefore_self s best
  | cons k l ih =>
    intro j hj
    rw [smallest]
    by_cases hk : popsBefore s k best
    · rw [if_pos hk]
      rcases List.mem_cons.mp hj with rfl | hj
      · exact not_popsBefore_trans (popsBefore_asymm hk) (ih k k List.mem_cons_self)
      · exact ih k j hj
    · rw [if_neg hk]
      rcases List.mem_cons.mp hj with rfl | hj
      · exact ih j j List.mem_cons_self
      rcases List.mem_cons.mp hj with rfl | hj
      · exact not_popsBefore_trans hk (ih best best List.mem_cons_self)
      · exact ih best j (List.mem_cons_of_mem best hj)

theorem popMin_eq_none_iff (s : State) (q : List Nat) : popMin s q = none ↔ q = [] := by
  cases q <;> simp [popMin]

/-- Everything `PopMin` can answer for a queue that is not empty. -/
theorem popMin_eq_some {s : State} {q q' : List Nat} {k : Nat} (h : popMin s q = some (k, q')) :
    k ∈ q ∧ q' = q.erase k ∧ ∀ j ∈ q, ¬ popsBefore s j k := by
  cases q with
  | nil => cases h
  | cons best rest =>
    cases h
    exact ⟨smallest_mem s best rest, rfl, smallest_least s best rest⟩

/-- Settles O19: of two handles `smallest` keeps the one that pops first, so no handle of the queue pops before its
answer. -/
theorem popMinPicksLeastPair : Obligations.PopMinPicksLeastPair := by
  intro s q
  refine ⟨popMin_eq_none_iff s q, fun k q' h => ?_⟩
  obtain ⟨hmem, hrest, hleast⟩ := popMin_eq_some h
  exact ⟨hmem, hrest, fun j hj => (not_popsBefore_iff s j k).mp (hleast j hj)⟩

theorem popMin_of_ne_nil (s : State) {q : List Nat} (h : q ≠ []) : ∃ k, popMin s q = some (k, q.erase k) := by
  obtain ⟨⟨k, q'⟩, hpop⟩ := Option.ne_none_iff_exists'.mp (mt (popMin_eq_none_iff s q).mp h)
  obtain ⟨-, rfl, -⟩ := popMin_eq_some hpop
  exact ⟨k, hpop⟩

theorem length_of_popMin {s : State} {q q' : List Nat} {k : Nat} (h : popMin s q = some (k, q')) :
    q'.length + 1 = q.length := by
  obtain ⟨hmem, rfl, -⟩ := popMin_eq_some h
  exact List.length_erase_add_one hmem

end Sys2Proof.Machine
end

section
/-! Proofs about the merge loop of `BUILD`: one iteration, what every iteration keeps, and the order of the children of
the nodes it makes. -/

namespace Sys2Proof.Machine

/-! ### One iteration: R95, R97 -/

theorem mergeLoop_of_length_le_one (fuel : Nat) {q : List Nat} (m : Nat) (s : State) (h : q.length ≤ 1) :
    mergeLoop fuel q m s = (q, m, s) := by
  cases fuel with
  | zero => rfl
  | succ fuel => rw [mergeLoop, if_pos h]

/-- Both handles are popped by the frequencies before the iteration's write. -/
theorem mergeLoop_succ {s : State} {q q1 q2 : List Nat} {a b : Nat} (fuel m : Nat) (hlen : 1 < q.length)
    (ha : popMin s q = some (a, q1)) (hb : popMin s q1 = some (b, q2)) :
    mergeLoop (fuel + 1) q m s = mergeLoop fuel (q2 ++ [m]) (m + 1) (s.putNode m (innerNode s a b)) := by
  simp only [mergeLoop, if_neg (Nat.not_le.mpr hlen), ha, hb]

theorem two_pops (s : State) {q : List Nat} (h : 1 < q.length) :
    ∃ a b q1 q2, popMin s q = some (a, q1) ∧ popMin s q1 = some (b, q2) := by
  obtain ⟨a, ha⟩ := popMin_of_ne_nil s (List.ne_nil_of_length_pos (Nat.zero_lt_of_lt h))
  have hlen := length_of_popMin ha
  obtain ⟨b, hb⟩ := popMin_of_ne_nil s (List.ne_nil_of_length_pos (l := q.erase a) (by omega))
  exact ⟨a, b, _, _, ha, hb⟩

/-- With fuel for every handle, what each iteration keeps holds at the end, where at most one handle is left. -/
theorem mergeLoop_induction {P : List Nat → Nat → State → Prop}
    (hstep : ∀ {q m s a b q1 q2}, P q m s → popMin s q = some (a, q1) → popMin s q1 = some (b, q2) →
      P (q2 ++ [m]) (m + 1) (s.putNode m (innerNode s a b)))
    {fuel : Nat} {q : List Nat} {m : Nat} {s : State} (hfuel : q.length ≤ fuel) (h : P q m s) :
    ∃ q' m' s', mergeLoop fuel q m s = (q', m', s') ∧ q'.length ≤ 1 ∧ P q' m' s' := by
  induction fuel generalizing q m s with
  | zero => exact ⟨q, m, s, rfl, by omega, h⟩
  | succ fuel ih =>
    rcases Nat.lt_or_ge 1 q.length with hlen | hlen
    · obtain ⟨a, b, q1, q2, ha, hb⟩ := two_pops s hlen
      have hq1 := length_of_popMin ha
      have hq2 := length_of_popMin hb
      rw [mergeLoop_succ fuel m hlen ha hb]
      exact ih (by simp only [List.length_append, List.length_singleton]; omega) (hstep h ha hb)
    · exact ⟨q, m, s, mergeLoop_of_length_le_one _ m s hlen, hlen, h⟩

/-! ### The order of the children: R96, R97 -/

/-- Record `k` has its children below it, the left one popped before the right one. -/
structure ChildrenOrdered (s : State) (k : Nat) : Prop where
  left_lt : (s.nodeAt k).left.toNat < k
  right_lt : (s.nodeAt k).right.toNat < k
  order : popsBefore s (s.nodeAt k).left.toNat (s.nodeAt k).right.toNat

/-- A later record does not disturb the children of an earlier one. -/
theorem childrenOrdered_putNode_of_lt {s : State} {k m : Nat} (n : Node) (hk : k < m) (h : ChildrenOrdered s k) :
    ChildrenOrdered (s.putNode m n) k := by
  obtain ⟨hleft, hright, horder⟩ := h
  have hnode : (s.putNode m n).nodeAt k = s.nodeAt k := nodeAt_putNode_other s n (by omega)
  constructor <;> rw [hnode]
  · exact hleft
  · exact hright
  · rwa [popsBefore_putNode n (by omega) (by omega)]

/-- The record over two handles of which `a` pops first; its links hold them in 9 bits (R35). -/
theorem childrenOrdered_innerNode {s : State} {a b m : Nat} (ha : a < m) (hb : b < m) (hm : m ≤ 511)
    (hab : popsBefore s a b) : ChildrenOrdered (s.putNode m (innerNode s a b)) m := by
  have hleft : (BitVec.ofNat 9 a).toNat = a := by rw [BitVec.toNat_ofNat]; omega
  have hright : (BitVec.ofNat 9 b).toNat = b := by rw [BitVec.toNat_ofNat]; omega
  constructor <;> simp only [nodeAt_putNode_same, innerNode, hleft, hright]
  · exact ha
  · exact hb
  · rwa [popsBefore_putNode _ (by omega) (by omega)]

/-- What every iteration of the merge loop over `n` leaves keeps, `q` being the queue and `m` the next free handle. -/
structure Merging (n : Nat) (q : List Nat) (m : Nat) (s : State) : Prop where
  nodup : q.Nodup
  lt : ∀ k ∈ q, k < m
  /-- an iteration takes two handles from the queue and uses one new one: R100 -/
  size : m + q.length = 2 * n
  ordered : ∀ k, n ≤ k → k < m → ChildrenOrdered s k

theorem merging_leaves (n : Nat) (s : State) : Merging n (List.range n) n s where
  nodup := List.nodup_range
  lt _ hk := List.mem_range.mp hk
  size := by rw [List.length_range]; omega
  ordered _ hn hk := absurd hk (Nat.not_lt.mpr hn)

theorem merging_step {n : Nat} (hn : n ≤ 256) {q q1 q2 : List Nat} {m a b : Nat} {s : State}
    (h : Merging n q m s) (ha : popMin s q = some (a, q1)) (hb : popMin s q1 = some (b, q2)) :
    Merging n (q2 ++ [m]) (m + 1) (s.putNode m (innerNode s a b)) := by
  obtain ⟨hnodup, hlt, hsize, hordered⟩ := h
  have hlen1 := length_of_popMin ha
  have hlen2 := length_of_popMin hb
  obtain ⟨haq, rfl, hleast⟩ := popMin_eq_some ha
  obtain ⟨hbq1, rfl, -⟩ := popMin_eq_some hb
  obtain ⟨hba, hbq⟩ := hnodup.mem_erase_iff.mp hbq1
  have hlt2 : ∀ k ∈ (q.erase a).erase b, k < m := fun k hk =>
    hlt k (List.mem_of_mem_erase (List.mem_of_mem_erase hk))
  refine ⟨?_, fun k hk => ?_, ?_, fun k hnk hk => ?_⟩
  · rw [← List.concat_eq_append]
    exact ((hnodup.erase a).erase b).concat fun hm => Nat.lt_irrefl m (hlt2 m hm)
  · rcases List.mem_append.mp hk with hk | hk
    · exact Nat.lt_succ_of_lt (hlt2 k hk)
    · rw [List.mem_singleton.mp hk]
      exact Nat.lt_succ_self m
  · rw [List.length_append, List.length_singleton]
    omega
  · rcases Nat.lt_succ_iff_lt_or_eq.mp hk with hk | rfl
    · exact childrenOrdered_putNode_of_lt _ hk (hordered k hnk hk)
    · exact childrenOrdered_innerNode (hlt a haq) (hlt b hbq) (by omega)
        (popsBefore_of_not hba.symm (hleast b hbq))

end Sys2Proof.Machine
end

section
/-! Proofs about `BUILD`: how many leaves it makes, the state it leaves, the order of the children, the empty table. -/

namespace Sys2Proof.Machine

/-! ### The leaves: R95 -/

/-- One leaf for each symbol with a non-zero count. -/
theorem buildLeaves_count (l : List Byte) (n : Nat) (s : State) :
    (buildLeaves l n s).1 = n + (l.filter (fun x => s.freqAt x != 0#24)).length := by
  induction l generalizing n s with
  | nil => rfl
  | cons x l ih =>
    rw [buildLeaves, List.filter_cons]
    by_cases hx : s.freqAt x = 0#24
    · simp [hx, ih]
    · simp [hx, ih]
      omega

theorem buildLeaves_symbols_count (s : State) : (buildLeaves symbols 0 s).1 = s.present.length := by
  rw [buildLeaves_count, Nat.zero_add, State.present]

theorem buildLeaves_of_absent {l : List Byte} (n : Nat) {s : State} (h : ∀ x ∈ l, s.freqAt x = 0#24) :
    buildLeaves l n s = (n, s) := by
  induction l with
  | nil => rfl
  | cons x l ih =>
    rw [buildLeaves, if_pos (h x List.mem_cons_self), ih fun y hy => h y (List.mem_cons_of_mem x hy)]

theorem present_length_le (s : State) : s.present.length ≤ 256 :=
  (List.length_filter_le _ symbols).trans_eq symbols_length

/-! ### The state `BUILD` leaves -/

theorem exec_build_of_quiet {s s1 s2 : State} {n m : Nat} {q : List Nat} (h : s.errCode = none)
    (hleaves : buildLeaves symbols 0 s = (n, s1)) (hmerge : mergeLoop n (List.range n) n s1 = (q, m, s2)) :
    exec .build s = .next (setTree q m s2).complete := by
  have hstage : buildStage s = .done (setTree q m s2) := by simp only [buildStage, hleaves, hmerge]
  show runCommand buildStage s = _
  rw [runCommand_of_quiet buildStage h, hstage, finish_done]

/-- Settles O21: the merge loop keeps every record's left child popping before its right child, and with `n` leaves it
ends with handle `2 * n - 1` free, so that every internal record is one it made. -/
theorem buildOrdersChildren : Obligations.BuildOrdersChildren := by
  refine ⟨fun fuel q m s a b q1 q2 hlen ha hb => ⟨innerNode s a b, rfl, rfl, mergeLoop_succ fuel m hlen ha hb⟩,
    fun s hquiet _ => ?_⟩
  obtain ⟨n, s1, hleaves⟩ : ∃ n s1, buildLeaves symbols 0 s = (n, s1) := ⟨_, _, rfl⟩
  have hn : n = s.present.length := by rw [← buildLeaves_symbols_count, hleaves]
  obtain ⟨q, m, s2, hmerge, hend, hmerging⟩ := mergeLoop_induction (P := Merging n)
    (merging_step (hn ▸ present_length_le s)) List.length_range.le (merging_leaves n s1)
  have hsize := hmerging.size
  refine ⟨_, exec_build_of_quiet hquiet hleaves hmerge, fun k hnk hk => ?_⟩
  have horder := (hmerging.ordered k (by omega) (by omega)).order
  simp only [complete_nodeAt, setTree_nodeAt]
  rw [popsBefore_iff] at horder
  refine ⟨by omega, fun hfreq => ?_⟩
  have hnat := congrArg BitVec.toNat hfreq
  omega

/-- Settles O22: no leaf is made and no handle queued, so only `N_NODES` and `ROOT` are written. -/
theorem buildOfEmptyTable : Obligations.BuildOfEmptyTable := by
  intro s hquiet hempty
  exact exec_build_of_quiet hquiet (buildLeaves_of_absent 0 fun x _ => hempty x)
    (mergeLoop_of_length_le_one 0 0 s (Nat.zero_le 1))

end Sys2Proof.Machine
end

section
/-! Proofs about `ASSIGN` where there is no tree to walk: no root, or a root that is a leaf. -/

namespace Sys2Proof.Machine

theorem exec_assign_of_done {s t : State} (h : s.errCode = none) (hstage : assignStage s = .done t) :
    exec .assign s = .next t.complete := by
  show runCommand assignStage s = _
  rw [runCommand_of_quiet assignStage h, hstage, finish_done]

theorem assignStage_of_no_root {s : State} (hroot : s.root = nilHandle) : assignStage s = .done s.clearCodes :=
  if_pos hroot

theorem assignStage_of_leaf {s : State} (hroot : s.root ≠ nilHandle) (hleaf : (s.nodeAt s.root.toNat).leaf = true) :
    assignStage s = .done (s.clearCodes.setCode (s.nodeAt s.root.toNat).sym [false]) :=
  (if_neg hroot).trans (if_pos hleaf)

/-- Settles O23: without a root all that is left of `ASSIGN` is `clearCodes`. -/
theorem assignWithoutTree : Obligations.AssignWithoutTree := by
  intro s hquiet hroot
  exact ⟨_, exec_assign_of_done hquiet (assignStage_of_no_root hroot), rfl,
    fun x => ⟨codeLenAt_clearCodes s x, fun _ hk => codeBitAt_clearCodes s x hk⟩⟩

/-- Settles O24: after `clearCodes` the leaf's symbol is the only one given a code. -/
theorem assignLoneLeaf : Obligations.AssignLoneLeaf := by
  intro s hquiet hroot hleaf
  refine ⟨_, exec_assign_of_done hquiet (assignStage_of_leaf hroot hleaf), rfl, ?_, ?_, fun y hy => ?_⟩
  · rw [complete_codeLenAt, codeLenAt_setCode, if_pos rfl, List.length_singleton]
  · rw [complete_code, code_setCode_same _ _ (by decide)]
  · rw [complete_codeLenAt, codeLenAt_setCode, if_neg hy.symm, codeLenAt_clearCodes]

end Sys2Proof.Machine
end

section
/-! Proofs about `PACK`: the bytes it writes, that they are the artifact of the encoded string, the state it leaves. -/

namespace Sys2Proof.Machine

/-! ### The bits of the padded string: 43_bit_packer.md R117 -/

@[simp] theorem encoded_length (s : State) : s.encoded.length = s.encLen.toNat := by simp [State.encoded]

/-- `pad[p]` is a bit of the encoded string with its padding. -/
theorem padBit_eq_getD (s : State) (n p : Nat) :
    s.padBit p = (s.encoded ++ List.replicate n false).getD p false := by
  rw [State.padBit, List.getD_eq_getElem?_getD, List.getElem?_append, encoded_length]
  by_cases hp : p < s.encLen.toNat
  · simp [State.encoded, hp]
  · rw [if_neg hp, if_neg hp, List.getElem?_replicate]
    split <;> rfl

theorem padBit_of_encLen_le {s : State} {p : Nat} (h : s.encLen.toNat ≤ p) : s.padBit p = false :=
  if_neg (Nat.not_lt.mpr h)

theorem getLsbD_payloadByte (s : State) (j : Nat) {k : Nat} (h : k < 8) :
    (s.payloadByte j).getLsbD (7 - k) = s.padBit (8 * j + k) := by
  rw [State.payloadByte, getLsbD_byte8 (by simp) h]
  simp

/-- The padding fills the low bits of the last payload byte: R118. -/
theorem getLsbD_payloadByte_last (s : State) {j : Nat} (h : j < extraBits s.encLen.toNat) :
    (s.payloadByte (s.encLen.toNat / 8)).getLsbD j = false := by
  have hextra := extraBits_le s.encLen.toNat
  have hbit := getLsbD_payloadByte s (s.encLen.toNat / 8) (k := 7 - j) (by omega)
  rw [show 7 - (7 - j) = j by omega] at hbit
  rw [hbit]
  unfold extraBits at h
  exact padBit_of_encLen_le (by omega)

/-- An aligned string ends in a byte of padding alone: R118. -/
theorem payloadByte_last_of_aligned {s : State} (h : s.encLen.toNat % 8 = 0) :
    s.payloadByte (s.encLen.toNat / 8) = 0#8 := by
  ext j hj
  rw [BitVec.getElem_zero, ← BitVec.getLsbD_eq_getElem]
  exact getLsbD_payloadByte_last s (by unfold extraBits; omega)

/-! ### The bytes `PACK` writes are `Packed(e)`: R117, 30_encoding.md R79, R80 -/

/-- The header byte and the payload bytes that `PACK` writes to `PK`, in the form of `packStage_eq`. -/
def State.packImage (s : State) : List Byte :=
  BitVec.ofNat 8 (extraBits s.encLen.toNat) :: (List.range (s.encLen.toNat / 8 + 1)).map s.payloadByte

@[simp] theorem packImage_length (s : State) : s.packImage.length = s.encLen.toNat / 8 + 2 := by
  simp [State.packImage]

theorem padded_length (e : List Bool) : (padded e).length = paddedLength e.length := by
  simp [padded, paddedLength, Nat.add_assoc]

theorem take_drop_eq_map_getD {l : List Bool} {i n : Nat} (h : i + n ≤ l.length) :
    (l.drop i).take n = (List.range n).map (fun k => l.getD (i + k) false) := by
  apply List.ext_getElem
  · rw [List.length_take, List.length_drop, List.length_map, List.length_range]
    omega
  · intro k hk _
    rw [List.length_take, List.length_drop] at hk
    have hlt : i + k < l.length := by omega
    simp [hlt]

theorem take_padded_header (e : List Bool) :
    (padded e).take 8 = bits8 (BitVec.ofNat 8 (extraBits e.length)) := by
  rw [padded, List.append_assoc, List.take_left' (bits8_length _)]

theorem take_drop_padded_payload {s : State} {j : Nat} (h : j < s.encLen.toNat / 8 + 1) :
    ((padded s.encoded).drop (8 * (j + 1))).take 8 = (List.range 8).map (fun k => s.padBit (8 * j + k)) := by
  have hheader := bits8_length (BitVec.ofNat 8 (extraBits s.encoded.length))
  have hfits : 8 * j + 8 ≤
      (s.encoded ++ List.replicate (extraBits s.encoded.length) false).length := by
    rw [List.length_append, List.length_replicate, encoded_length, extraBits]
    omega
  rw [padded, List.append_assoc, show 8 * (j + 1) = 8 + 8 * j by ring, ← List.drop_drop,
    List.drop_left' hheader, take_drop_eq_map_getD hfits]
  simp only [← padBit_eq_getD]

theorem packImage_eq_packed (s : State) : s.packImage = packed s.encoded := by
  rw [packed, padded_length, paddedLength_eq, Nat.mul_div_cancel_left _ (by norm_num), encoded_length,
    List.range_succ_eq_map, List.map_cons, List.map_map, State.packImage]
  congr 1
  · rw [Nat.mul_zero, List.drop_zero, take_padded_header, byte8_bits8, encoded_length]
  · refine List.map_congr_left fun j hj => ?_
    exact congrArg byte8 (take_drop_padded_payload (List.mem_range.mp hj)).symm

/-- An 8-bit string is the data byte, then a byte of padding: R118. -/
theorem packImage_of_eight {s : State} (h : s.encLen = 8#32) : s.packImage = [0x08#8, byte8 s.encoded, 0x00#8] := by
  have hlen : s.encLen.toNat = 8 := by rw [h]; rfl
  have hdata : s.payloadByte 0 = byte8 s.encoded := by
    rw [State.payloadByte, State.encoded, hlen]
    refine congrArg byte8 (List.map_congr_left fun k hk => ?_)
    rw [Nat.mul_zero, Nat.zero_add, State.padBit, hlen, if_pos (List.mem_range.mp hk)]
  have hlast := payloadByte_last_of_aligned (s := s) (by omega)
  rw [hlen] at hlast
  rw [State.packImage, hlen, ← hdata, ← hlast]
  rfl

/-- Zero bits are a byte of padding: R121. -/
theorem packImage_of_zero {s : State} (h : s.encLen = 0#32) : s.packImage = [0x08#8, 0x00#8] := by
  have hlen : s.encLen.toNat = 0 := by rw [h]; rfl
  have hlast := payloadByte_last_of_aligned (s := s) (by omega)
  rw [hlen] at hlast
  rw [State.packImage, hlen, ← hlast]
  rfl

/-! ### The state `PACK` leaves -/

/-- `PK`, `PK_LEN` and `BUSY` written; `exec_pack_of_quiet` says that this is where the command ends. -/
def State.afterPack (s : State) : State :=
  { s.putPk 0 s.packImage with pkLen := BitVec.ofNat 32 s.packImage.length, busy := false }

theorem exec_pack_of_quiet {s : State} (h : s.errCode = none) : exec .pack s = .next s.afterPack := by
  show runCommand packStage s = _
  rw [runCommand_of_quiet packStage h, packStage_eq, finish_done, State.afterPack, packImage_length]
  rfl

/-- The count fits the register: R120. -/
theorem afterPack_pkLen (s : State) : s.afterPack.pkLen.toNat = s.packImage.length := by
  have hlt := s.encLen.isLt
  rw [State.afterPack, BitVec.toNat_ofNat, Nat.mod_eq_of_lt (by rw [packImage_length]; omega)]

theorem afterPack_pkAt_inside {s : State} {i : Nat} (h : i < s.packImage.length) :
    s.afterPack.pkAt i = s.packImage[i] := by
  have hinside := pkAt_putPk_inside s (i := 0) h
  rwa [Nat.zero_add] at hinside

theorem afterPack_pkAt_outside {s : State} {i : Nat} (h : s.packImage.length ≤ i) :
    s.afterPack.pkAt i = s.pkAt i :=
  pkAt_putPk_outside s (.inr (by omega))

theorem afterPack_pkAt_header (s : State) : (s.afterPack.pkAt 0).toNat = extraBits s.encLen.toNat := by
  have hle := extraBits_le s.encLen.toNat
  rw [afterPack_pkAt_inside (by simp)]
  exact (BitVec.toNat_ofNat _ 8).trans (Nat.mod_eq_of_lt (by omega))

theorem afterPack_pkAt_last (s : State) :
    s.afterPack.pkAt (s.packImage.length - 1) = s.payloadByte (s.encLen.toNat / 8) := by
  rw [afterPack_pkAt_inside (by simp)]
  simp [State.packImage]

theorem afterPack_packedBytes (s : State) : s.afterPack.packedBytes = s.packImage := by
  rw [State.packedBytes, afterPack_pkLen]
  exact range_map_pkAt_putPk s s.packImage

/-- Settles O33: the bytes written are `Packed(e)`, byte by byte, and the write stops at `PK_LEN`. -/
theorem packProducesArtifact : Obligations.PackProducesArtifact := by
  intro s hquiet _
  refine ⟨_, exec_pack_of_quiet hquiet, rfl, ?_, ?_, fun i hi => ?_⟩
  · rw [afterPack_packedBytes, packImage_eq_packed]
  · rw [padded_length, paddedLength_eq, Nat.mul_mod_right]
  · exact afterPack_pkAt_outside (afterPack_pkLen s ▸ hi)

/-- Settles O34: the header is `extra`, never 0, and the last byte's `extra` low bits lie at and beyond `ENC_LEN`. -/
theorem packAlwaysPads : Obligations.PackAlwaysPads := by
  intro s hquiet _
  have hheader := afterPack_pkAt_header s
  have hpadded := paddedLength_eq s.encLen.toNat
  refine ⟨_, exec_pack_of_quiet hquiet, ?_⟩
  rw [hheader, afterPack_pkLen, afterPack_pkAt_last, packImage_length, afterPack_packedBytes]
  refine ⟨extraBits_pos _, extraBits_le _, rfl, ?_, rfl, fun j hj => getLsbD_payloadByte_last s hj,
    fun haligned => ⟨BitVec.eq_of_toNat_eq ?_, payloadByte_last_of_aligned haligned⟩, packImage_of_eight⟩
  · unfold paddedLength at hpadded
    omega
  · rw [hheader, extraBits, haligned]
    rfl

/-- A payload of padding alone unpacks to zero bits, and `ENC` is not written: 44_decoder.md R128. -/
theorem exec_unpack_of_padding_only {s : State} (h : s.errCode = none) (hlen : s.pkLen = 2#32)
    (hheader : s.pkAt 0 = 8#8) : exec .unpack s = .next { s with encLen := 0#32, busy := false } := by
  have hstage : unpackStage s = .done { s with encLen := 0#32 } := by
    simp [unpackStage, hlen, hheader, State.putEnc, Memory.putList]
  show runCommand unpackStage s = _
  rw [runCommand_of_quiet unpackStage h, hstage, finish_done]
  rfl

/-- Settles O35: the artifact is a header of 8 and a byte of padding, for which `UNPACK` sets `ENC_LEN` to 0 again. -/
theorem packOfZeroBits : Obligations.PackOfZeroBits := by
  rintro s ⟨hbusy, hquiet⟩ hzero
  have hbytes := packImage_of_zero hzero
  have hlen : s.afterPack.pkLen = 2#32 := by rw [State.afterPack, hbytes]; rfl
  have hheader : s.afterPack.pkAt 0 = 8#8 := BitVec.eq_of_toNat_eq (by rw [afterPack_pkAt_header, hzero]; rfl)
  refine ⟨_, exec_pack_of_quiet hquiet, ?_, ?_, ?_⟩
  · rw [← hlen, hbusy]
    rfl
  · rw [afterPack_packedBytes, hbytes]
  · rw [exec_unpack_of_padding_only (s := s.afterPack) hquiet hlen hheader, ← hzero]
    rfl

end Sys2Proof.Machine
end

section
/-! Proofs about `UNPACK`: the payload as a bit string, the three ways the command ends, its faults and corner cases. -/

namespace Sys2Proof.Machine

/-! ### The end of a command that raises: 60_exceptions.md R171 -/

theorem runCommand_of_raise {body : State → Stage} {s u : State} {e : ErrorCode} {info : Nat} (h : s.errCode = none)
    (hbody : body s = raise e info u) (hu : u.errCode = none) :
    runCommand body s = .next { u with errCode := some e, errInfo := BitVec.ofNat 32 info, busy := false } := by
  rw [runCommand_of_quiet body h, hbody, raise, finish_raised, record_of_quiet _ _ hu]
  rfl

theorem runCommand_of_done {body : State → Stage} {s u : State} (h : s.errCode = none) (hbody : body s = .done u) :
    runCommand body s = .next u.complete := by
  rw [runCommand_of_quiet body h, hbody, finish_done]

/-! ### The payload: 44_decoder.md R125, 30_encoding.md R82 (e) -/

theorem map_payloadBit_byte (s : State) (j : Nat) :
    (List.range 8).map (fun k => s.payloadBit (8 * j + k)) = bits8 (s.pkAt (1 + j)) := by
  refine List.map_congr_left fun k hk => ?_
  have hlt := List.mem_range.mp hk
  rw [State.payloadBit, show (8 * j + k) / 8 = j by omega, show (8 * j + k) % 8 = k by omega]

theorem map_payloadBit_bytes (s : State) (n : Nat) :
    (List.range (8 * n)).map s.payloadBit = (List.range n).flatMap (fun j => bits8 (s.pkAt (1 + j))) := by
  induction n with
  | zero => rfl
  | succ n ih =>
    rw [Nat.mul_succ, List.range_add, List.map_append, ih, List.map_map, List.range_succ (n := n), List.flatMap_append,
      List.flatMap_singleton, ← map_payloadBit_byte]
    rfl

theorem packedBytes_drop_one (s : State) :
    s.packedBytes.drop 1 = (List.range (s.pkLen.toNat - 1)).map (fun j => s.pkAt (1 + j)) := by
  rw [State.packedBytes, ← List.map_drop]
  cases s.pkLen.toNat with
  | zero => rfl
  | succ n =>
    rw [List.range_succ_eq_map, List.drop_one, List.tail_cons, List.map_map, Nat.add_sub_cancel]
    exact List.map_congr_left fun j _ => congrArg s.pkAt (Nat.add_comm j 1)

theorem payload_eq (s : State) : s.payload = (List.range (8 * (s.pkLen.toNat - 1))).map s.payloadBit := by
  rw [State.payload, packedBytes_drop_one, List.flatMap_map, map_payloadBit_bytes]

theorem payload_length (s : State) : s.payload.length = 8 * (s.pkLen.toNat - 1) := by
  rw [payload_eq, List.length_map, List.length_range]

theorem map_payloadBit_eq_take {s : State} {e : Nat} (h : e ≤ 8 * (s.pkLen.toNat - 1)) :
    (List.range e).map s.payloadBit = s.payload.take e := by
  rw [payload_eq, ← List.map_take, List.take_range, Nat.min_eq_left h]

/-! ### The state `UNPACK` leaves -/

/-- The number of payload bits less the padding the header states; 0 for the empty artifact. -/
def State.unpackLength (s : State) : Nat := 8 * (s.pkLen.toNat - 1) - (s.pkAt 0).toNat

/-- `PK` holds the empty artifact (R127), or a valid header and no more bits than `ENC` has places (R126, R128). -/
def State.Unpackable (s : State) : Prop :=
  s.pkLen.toNat = 0 ∨ 1 ≤ (s.pkAt 0).toNat ∧ (s.pkAt 0).toNat ≤ 8 ∧ (s.pkAt 0).toNat ≤ 8 * (s.pkLen.toNat - 1) ∧
    s.unpackLength ≤ s.cfg.encCapacity

/-- `ENC`, `ENC_LEN` and `BUSY` written; `exec_unpack_cases` says that this is where the command ends without a fault. -/
def State.afterUnpack (s : State) : State :=
  { s.putEnc 0 (s.payload.take s.unpackLength) with encLen := BitVec.ofNat 32 s.unpackLength, busy := false }

theorem afterUnpack_of_no_bits {s : State} (h : s.unpackLength = 0) :
    s.afterUnpack = { s with encLen := 0#32, busy := false } := by
  rw [State.afterUnpack, h]
  rfl

/-- The count fits the register: R128. -/
theorem afterUnpack_encLen {s : State} (h : s.Unpackable) : s.afterUnpack.encLen.toNat = s.unpackLength := by
  have hcap := s.cfg.inCap.isLt
  refine (BitVec.toNat_ofNat _ 32).trans (Nat.mod_eq_of_lt ?_)
  unfold State.Unpackable State.unpackLength Config.encCapacity at *
  omega

theorem afterUnpack_encoded {s : State} (h : s.Unpackable) :
    s.afterUnpack.encoded = s.payload.take s.unpackLength := by
  have hlen : (s.payload.take s.unpackLength).length = s.unpackLength := by
    rw [List.length_take, payload_length, State.unpackLength]
    omega
  rw [State.encoded, afterUnpack_encLen h]
  have hwritten := range_map_encAt_putEnc s (s.payload.take s.unpackLength)
  rwa [hlen] at hwritten

/-- Everything `UNPACK` can do from a quiet state: recover the bits, or raise one of its two faults with nothing else
written. -/
theorem exec_unpack_cases {s : State} (h : s.errCode = none) :
    (s.Unpackable ∧ exec .unpack s = .next s.afterUnpack) ∨
    (s.pkLen.toNat ≠ 0 ∧ ((s.pkAt 0).toNat < 1 ∨ (s.pkAt 0).toNat > 8 ∨ (s.pkAt 0).toNat > 8 * (s.pkLen.toNat - 1)) ∧
      exec .unpack s =
        .next { s with errCode := some .badHeader, errInfo := (s.pkAt 0).setWidth 32, busy := false }) ∨
    (1 ≤ (s.pkAt 0).toNat ∧ (s.pkAt 0).toNat ≤ 8 ∧ s.cfg.encCapacity < s.unpackLength ∧
      exec .unpack s =
        .next { s with errCode := some .capacity, errInfo := BitVec.ofNat 32 s.unpackLength, busy := false }) := by
  rcases unpackStage_cases s with ⟨hlen, hstage⟩ | ⟨hlen, hheader, hstage⟩ |
    ⟨-, hpos, hle, hpayload, ⟨hover, hstage⟩ | ⟨hfits, hstage⟩⟩
  · refine .inl ⟨.inl hlen, (runCommand_of_done h hstage).trans ?_⟩
    rw [afterUnpack_of_no_bits (by unfold State.unpackLength; omega)]
    rfl
  · refine .inr (.inl ⟨hlen, hheader, ?_⟩)
    rw [← BitVec.ofNat_toNat]
    exact runCommand_of_raise h hstage h
  · exact .inr (.inr ⟨hpos, hle, hover, runCommand_of_raise h hstage h⟩)
  · refine .inl ⟨.inr ⟨hpos, hle, hpayload, hfits⟩, (runCommand_of_done h hstage).trans ?_⟩
    rw [map_payloadBit_eq_take (Nat.sub_le _ _)]
    rfl

theorem exec_unpack_of_unpackable {s : State} (h : s.errCode = none) (hpk : s.Unpackable) :
    exec .unpack s = .next s.afterUnpack := by
  have hinv := hpk
  unfold State.Unpackable at hinv
  rcases exec_unpack_cases h with ⟨-, hexec⟩ | ⟨hlen, hheader, -⟩ | ⟨-, -, hover, -⟩
  · exact hexec
  · omega
  · unfold State.unpackLength at *
    omega

/-- A command that ends without a fault has recovered the bits. -/
theorem unpack_without_fault {s t : State} (h : s.errCode = none) (hexec : exec .unpack s = .next t)
    (ht : t.errCode = none) : s.Unpackable ∧ t = s.afterUnpack := by
  rcases exec_unpack_cases h with ⟨hpk, heq⟩ | ⟨-, -, heq⟩ | ⟨-, -, -, heq⟩
  all_goals obtain rfl := Host.Outcome.next.inj (hexec.symm.trans heq)
  · exact ⟨hpk, rfl⟩
  · cases ht
  · cases ht

/-! ### Faults and corner cases: 44_decoder.md R126 to R128 -/

/-- Settles O37: each of the three forms fails the header's check, the last because a payload of no bits holds no
padding. -/
theorem unpackRejectsBadHeader : Obligations.UnpackRejectsBadHeader := by
  intro s hquiet hlen hheader
  rcases exec_unpack_cases hquiet with ⟨hpk, -⟩ | ⟨-, -, hexec⟩ | ⟨hpos, hle, hover, -⟩
  · unfold State.Unpackable at hpk
    omega
  · exact hexec
  · unfold State.unpackLength at hover
    omega

/-- Whether the bits can be recovered depends on the count and the header alone. -/
theorem unpackable_of_eq {s s' : State} (hcfg : s'.cfg = s.cfg) (hlen : s'.pkLen = s.pkLen)
    (hheader : s'.pkAt 0 = s.pkAt 0) (h : s.Unpackable) : s'.Unpackable := by
  unfold State.Unpackable State.unpackLength at *
  rwa [hcfg, hlen, hheader]

/-- More bits than `ENC` has places come only from a full `PK` with less than a byte of padding: R128 (b). -/
theorem pk_full_of_overfull {s : State} (hlen : s.pkLen.toNat ≤ s.cfg.pkCapacity)
    (hover : s.cfg.encCapacity < s.unpackLength) : s.pkLen.toNat = s.cfg.pkCapacity ∧ (s.pkAt 0).toNat < 8 := by
  unfold Config.encCapacity State.unpackLength Config.pkCapacity at *
  omega

/-- Settles O38: the empty artifact has no bits, the string recovered does not depend on the padding, and only a full
`PK` can hold too many bits. -/
theorem unpackCornerCases : Obligations.UnpackCornerCases := by
  intro s hquiet
  refine ⟨fun hlen => ?_, fun s' t t' hquiet' hcfg hlen hheader hbits hexec hexec' ht => ?_,
    fun hcap _ hpos hle hover => ?_, exec_unpack_of_padding_only hquiet⟩
  · have hzero : s.pkLen.toNat = 0 := by rw [hlen]; rfl
    rw [exec_unpack_of_unpackable hquiet (.inl hzero), afterUnpack_of_no_bits]
    unfold State.unpackLength
    omega
  · obtain ⟨hpk, rfl⟩ := unpack_without_fault hquiet hexec ht
    have hpk' := unpackable_of_eq hcfg hlen hheader hpk
    have hcount : s'.unpackLength = s.unpackLength := by unfold State.unpackLength; rw [hlen, hheader]
    obtain rfl := Host.Outcome.next.inj (hexec'.symm.trans (exec_unpack_of_unpackable hquiet' hpk'))
    refine ⟨hquiet', congrArg (BitVec.ofNat 32) hcount, ?_⟩
    rw [afterUnpack_encoded hpk', afterUnpack_encoded hpk, hcount]
    exact hbits
  · obtain ⟨hfull, hpad⟩ := pk_full_of_overfull hcap hover
    refine ⟨hfull, hpad, ?_⟩
    rcases exec_unpack_cases hquiet with ⟨hpk, -⟩ | ⟨-, hheader, -⟩ | ⟨-, -, -, hexec⟩
    · unfold State.Unpackable State.unpackLength at hpk
      omega
    · omega
    · exact hexec

end Sys2Proof.Machine
end

section
/-! Proofs about `DECODE`: what `Match` answers, and that the scan emits what the greedy scan of the bit string emits. -/

namespace Sys2Proof.Machine

/-! ### `Match`: 44_decoder.md R130 -/

/-- A search through the symbols in ascending value finds the smallest one. -/
theorem find?_symbols_eq_some_iff (p : Byte → Bool) (x : Byte) :
    symbols.find? p = some x ↔ p x = true ∧ ∀ y : Byte, y.toNat < x.toNat → p y = false := by
  rw [List.find?_eq_some_iff_getElem]
  refine and_congr_right fun _ => ⟨?_, fun hleast => ?_⟩
  · rintro ⟨i, hi, rfl, hbefore⟩ y hy
    have hlt : i < 256 := by rwa [symbols_length] at hi
    rw [symbols_getElem, BitVec.toNat_ofNat, Nat.mod_eq_of_lt hlt] at hy
    have hfail := hbefore y.toNat hy
    rw [symbols_getElem, BitVec.ofNat_toNat, BitVec.setWidth_eq] at hfail
    simpa using hfail
  · refine ⟨x.toNat, by rw [symbols_length]; exact x.isLt, ?_, fun j hj => ?_⟩
    · rw [symbols_getElem, BitVec.ofNat_toNat, BitVec.setWidth_eq]
    · have hx := x.isLt
      rw [symbols_getElem, hleast _ (by rw [BitVec.toNat_ofNat, Nat.mod_eq_of_lt (by omega)]; exact hj)]
      rfl

/-- The condition `Match` tests, as a proposition. -/
theorem codeTest_iff (s : State) (c : List Bool) (x : Byte) :
    ((s.codeLenAt x).toNat == c.length && s.code x == c) = true ↔ (s.codeLenAt x).toNat = c.length ∧ s.code x = c := by
  rw [Bool.and_eq_true, beq_iff_eq, beq_iff_eq]

theorem matchCode_eq_some_iff (s : State) (c : List Bool) (x : Byte) :
    s.matchCode c = some x ↔ (s.codeLenAt x).toNat = c.length ∧ s.code x = c ∧
      ∀ y : Byte, y.toNat < x.toNat → ¬ ((s.codeLenAt y).toNat = c.length ∧ s.code y = c) := by
  rw [State.matchCode, find?_symbols_eq_some_iff, codeTest_iff, and_assoc]
  simp only [← Bool.not_eq_true, codeTest_iff]

theorem matchCode_eq_none_iff (s : State) (c : List Bool) :
    s.matchCode c = none ↔ ∀ x, ¬ ((s.codeLenAt x).toNat = c.length ∧ s.code x = c) := by
  rw [State.matchCode, List.find?_eq_none]
  simp only [codeTest_iff]
  exact ⟨fun h x => h x (mem_symbols x), fun h x _ => h x⟩

/-- Settles O40: the search is over all symbols in ascending value, and no `CODE_LEN` is above 255. -/
theorem matchIsSmallestSymbol : Obligations.MatchIsSmallestSymbol := by
  intro s c _
  refine ⟨matchCode_eq_some_iff s c, matchCode_eq_none_iff s c, fun hlong => ?_⟩
  rw [matchCode_eq_none_iff]
  rintro x ⟨hlen, -⟩
  have hlt := (s.codeLenAt x).isLt
  omega

/-! ### The symbols written to `DEC` -/

/-- `DEC[i..] <- xs`: `putDec` for each symbol in turn, as `putDecList_cons` says. -/
def State.putDecList (s : State) (i : Nat) (xs : List Byte) : State := { s with dec := s.dec.putList i xs }

theorem putDecList_cons (s : State) (i : Nat) (x : Byte) (xs : List Byte) :
    s.putDecList i (x :: xs) = (s.putDec i x).putDecList (i + 1) xs := rfl

theorem decAt_putDecList_outside (s : State) {i j : Nat} {xs : List Byte} (h : j < i ∨ i + xs.length ≤ j) :
    (s.putDecList i xs).decAt j = s.decAt j := by
  simp only [State.decAt, State.putDecList, get_putList_outside _ h]

theorem decAt_putDecList_inside (s : State) {i j : Nat} {xs : List Byte} (h : j < xs.length) :
    (s.putDecList i xs).decAt (i + j) = xs[j] := by
  simp [State.decAt, State.putDecList, get_putList_inside _ h, h]

/-! ### The scan: R129 -/

theorem scan_cons_of_none {lookup : List Bool → Option Byte} {cand : List Bool} {b : Bool}
    (h : lookup (cand ++ [b]) = none) (rest : List Bool) :
    scan lookup cand (b :: rest) = scan lookup (cand ++ [b]) rest := by
  rw [scan, h]

theorem scan_cons_of_some {lookup : List Bool → Option Byte} {cand : List Bool} {b : Bool} {x : Byte}
    (h : lookup (cand ++ [b]) = some x) (rest : List Bool) :
    scan lookup cand (b :: rest) = (x :: (scan lookup [] rest).1, (scan lookup [] rest).2) := by
  rw [scan, h]

theorem scan_left_over_length_le (lookup : List Bool → Option Byte) (cand bits : List Bool) :
    (scan lookup cand bits).2.length ≤ cand.length + bits.length := by
  induction bits generalizing cand with
  | nil => exact Nat.le_refl _
  | cons b bits ih =>
    cases hmatch : lookup (cand ++ [b]) with
    | none =>
      have hle := ih (cand ++ [b])
      rw [List.length_append, List.length_singleton] at hle
      rw [scan_cons_of_none hmatch, List.length_cons]
      omega
    | some x =>
      have hle := ih []
      rw [List.length_nil] at hle
      rw [scan_cons_of_some hmatch, List.length_cons]
      show (scan lookup [] bits).2.length ≤ _
      omega

/-- While the symbols fit `DEC`, the loop over the positions `l` writes what the scan of their bits emits, and goes on
from the candidate it leaves over. -/
theorem decodeLoop_append {l : List Nat} (l' : List Nat) {d : Nat} {cand : List Bool} {s : State}
    (h : d + (scan s.matchCode cand (l.map s.encAt)).1.length ≤ s.cfg.decCapacity) :
    decodeLoop (l ++ l') d cand s =
      decodeLoop l' (d + (scan s.matchCode cand (l.map s.encAt)).1.length)
        (scan s.matchCode cand (l.map s.encAt)).2 (s.putDecList d (scan s.matchCode cand (l.map s.encAt)).1) := by
  induction l generalizing d cand s with
  | nil => rfl
  | cons p l ih =>
    rw [List.map_cons] at h ⊢
    rw [List.cons_append]
    cases hmatch : s.matchCode (cand ++ [s.encAt p]) with
    | none =>
      rw [scan_cons_of_none hmatch] at h ⊢
      simp only [decodeLoop, hmatch]
      exact ih h
    | some x =>
      rw [scan_cons_of_some hmatch, List.length_cons] at h
      rw [scan_cons_of_some hmatch, List.length_cons, putDecList_cons]
      have hroom : d ≠ s.cfg.decCapacity := by omega
      simp only [decodeLoop, hmatch, if_neg hroom]
      have hrest : d + 1 + (scan s.matchCode [] (l.map s.encAt)).1.length ≤ s.cfg.decCapacity := by omega
      rw [← Nat.add_assoc, Nat.add_right_comm]
      exact ih (s := s.putDec d x) hrest

/-! ### The state `DECODE` leaves: R131 -/

/-- `DEC`, `DEC_LEN` and `BUSY` written; `exec_decode_of_no_bits_left` and `exec_decode_of_bits_left` say that this is
where the command ends, with `TRUNCATED_STREAM` recorded in the second. -/
def State.afterDecode (s : State) (out : List Byte) : State :=
  { s.putDecList 0 out with decLen := BitVec.ofNat 32 out.length, busy := false }

/-- The count fits the register. -/
theorem afterDecode_decLen {s : State} {out : List Byte} (h : out.length ≤ s.cfg.decCapacity) :
    (s.afterDecode out).decLen.toNat = out.length := by
  have hcap := s.cfg.inCap.isLt
  unfold Config.decCapacity at h
  exact (BitVec.toNat_ofNat _ 32).trans (Nat.mod_eq_of_lt (by omega))

theorem afterDecode_decAt_outside {s : State} {out : List Byte} {i : Nat} (h : out.length ≤ i) :
    (s.afterDecode out).decAt i = s.decAt i :=
  decAt_putDecList_outside s (.inr (by omega))

theorem afterDecode_decoded {s : State} {out : List Byte} (h : out.length ≤ s.cfg.decCapacity) :
    (s.afterDecode out).decoded = out := by
  rw [State.decoded, afterDecode_decLen h]
  refine List.ext_getElem (by simp) fun i _ hi => ?_
  have hinside := decAt_putDecList_inside s (i := 0) hi
  rw [List.getElem_map, List.getElem_range, ← hinside, Nat.zero_add]
  rfl

section
variable {s : State} {out : List Byte} {left : List Bool} (h : s.errCode = none)
  (hscan : scan s.matchCode [] s.encoded = (out, left)) (hfits : out.length ≤ s.cfg.decCapacity)
include hscan hfits

theorem decodeStage_of_fits : decodeStage s = decodeLoop [] out.length left (s.putDecList 0 out) := by
  have hloop := decodeLoop_append (l := List.range s.encLen.toNat) [] (d := 0) (cand := []) (s := s)
  rw [← State.encoded, hscan, List.append_nil, Nat.zero_add] at hloop
  exact hloop hfits

include h

theorem exec_decode_of_no_bits_left (hleft : left = []) : exec .decode s = .next (s.afterDecode out) := by
  refine runCommand_of_done (u := (s.putDecList 0 out).setDecLen out.length) h ?_
  rw [decodeStage_of_fits hscan hfits, hleft]
  rfl

theorem exec_decode_of_bits_left (hleft : left ≠ []) :
    exec .decode s = .next { s.afterDecode out with
      errCode := some .truncatedStream, errInfo := BitVec.ofNat 32 left.length } := by
  refine runCommand_of_raise (u := (s.putDecList 0 out).setDecLen out.length) h ?_ h
  rw [decodeStage_of_fits hscan hfits, decodeLoop, if_pos (List.length_pos_iff.mpr hleft)]

end

/-- Settles O41: the loop of `DECODE` is the scan of the encoded string, and the left-over bits, being some of
`ENC_LEN`, are counted exactly in `ERR_INFO`. -/
theorem decodeScansGreedily : Obligations.DecodeScansGreedily := by
  intro s hquiet hfits
  have hshort := scan_left_over_length_le s.matchCode [] s.encoded
  rw [encoded_length, List.length_nil, Nat.zero_add] at hshort
  rcases hscan : scan s.matchCode [] s.encoded with ⟨out, left⟩
  simp only [hscan] at hfits hshort
  have hdecoded := afterDecode_decoded hfits
  have houtside : ∀ i, (s.afterDecode out).decLen.toNat ≤ i → (s.afterDecode out).decAt i = s.decAt i :=
    fun i hi => afterDecode_decAt_outside (afterDecode_decLen hfits ▸ hi)
  by_cases hleft : left = []
  · exact ⟨_, exec_decode_of_no_bits_left hquiet hscan hfits hleft, rfl, hdecoded, houtside,
      fun _ => ⟨hquiet, rfl⟩, fun hne => absurd hleft hne⟩
  · refine ⟨_, exec_decode_of_bits_left hquiet hscan hfits hleft, rfl, hdecoded, houtside,
      fun hnil => absurd hnil hleft, fun _ => ⟨rfl, ?_⟩⟩
    have hlt := s.encLen.isLt
    exact (BitVec.toNat_ofNat _ 32).trans (Nat.mod_eq_of_lt (by omega))

end Sys2Proof.Machine
end

section
/-! Proofs about commands in sequence: what a stage leaves for the next command to meet, that no stage reads `BUSY`, and
that `COMPRESS` and `EXPAND` are their stages' commands one after the other. -/

namespace Sys2Proof.Machine

/-! ### One iteration of a stage's loop -/

/-- 41_tree_builder.md R95. -/
theorem buildLeaves_cons_of_absent {s : State} {x : Byte} (h : s.freqAt x = 0#24) (l : List Byte) (n : Nat) :
    buildLeaves (x :: l) n s = buildLeaves l n s := if_pos h

theorem buildLeaves_cons_of_present {s : State} {x : Byte} (h : s.freqAt x ≠ 0#24) (l : List Byte) (n : Nat) :
    buildLeaves (x :: l) n s = buildLeaves l (n + 1) (s.putNode n (leafNode x (s.freqAt x))) := if_neg h

section
variable {s : State} {i : Nat} (l : List Nat) (e : Nat)

/-- 43_bit_packer.md R114. -/
theorem encodeLoop_cons_of_no_code (h : (s.codeLenAt (s.inAt i)).toNat = 0) :
    encodeLoop (i :: l) e s = raise .noCode i (s.setEncLen e) := if_pos h

variable {e} (hcode : (s.codeLenAt (s.inAt i)).toNat ≠ 0)
include hcode

/-- R115. -/
theorem encodeLoop_cons_of_overfull (h : e + (s.codeLenAt (s.inAt i)).toNat > s.cfg.encCapacity) :
    encodeLoop (i :: l) e s = raise .capacity i (s.setEncLen e) :=
  (if_neg hcode).trans (if_pos h)

/-- R113. -/
theorem encodeLoop_cons_of_fits (h : ¬ e + (s.codeLenAt (s.inAt i)).toNat > s.cfg.encCapacity) :
    encodeLoop (i :: l) e s =
      encodeLoop l (e + (s.codeLenAt (s.inAt i)).toNat) (s.putEnc e (s.code (s.inAt i))) :=
  (if_neg hcode).trans (if_neg h)

end

section
variable {s : State} {p d : Nat} {cand : List Bool} {x : Byte} (l : List Nat)

/-- 44_decoder.md R129. -/
theorem decodeLoop_cons_of_no_match (h : s.matchCode (cand ++ [s.encAt p]) = none) :
    decodeLoop (p :: l) d cand s = decodeLoop l d (cand ++ [s.encAt p]) s := by
  simp only [decodeLoop, h]

variable (hmatch : s.matchCode (cand ++ [s.encAt p]) = some x)
include hmatch

/-- R132. -/
theorem decodeLoop_cons_of_full (h : d = s.cfg.decCapacity) :
    decodeLoop (p :: l) d cand s = raise .capacity p (s.setDecLen d) := by
  simp only [decodeLoop, hmatch, if_pos h]

theorem decodeLoop_cons_of_room (h : d ≠ s.cfg.decCapacity) :
    decodeLoop (p :: l) d cand s = decodeLoop l (d + 1) [] (s.putDec d x) := by
  simp only [decodeLoop, hmatch, if_neg h]

end

/-! ### The fault a stage leaves: 60_exceptions.md R171 -/

/-- After the stage a fault is recorded exactly if the stage raised it. -/
def Stage.FaultIffRaised : Stage → Prop
  | .done s => s.errCode = none
  | .raised s => s.errCode ≠ none
  | .stuck _ => True

theorem faultIffRaised_raise (e : ErrorCode) (info : Nat) (s : State) : (raise e info s).FaultIffRaised :=
  record_errCode_ne_none s e _

theorem faultIffRaised_andThen {g : Stage} {f : State → Stage} (hg : g.FaultIffRaised)
    (hf : ∀ s, s.errCode = none → (f s).FaultIffRaised) : (g.andThen f).FaultIffRaised := by
  cases g with
  | done s => exact hf s hg
  | raised s => exact hg
  | stuck r => trivial

theorem faultIffRaised_analyzeStage {s : State} (h : s.errCode = none) : (analyzeStage s).FaultIffRaised := h

theorem faultIffRaised_buildStage {s : State} (h : s.errCode = none) : (buildStage s).FaultIffRaised := by
  obtain ⟨t, hstage, hframe⟩ := buildStage_frame s
  rw [hstage]
  show t.errCode = none
  rw [hframe]
  exact h

theorem faultIffRaised_assignStage {s : State} (h : s.errCode = none) : (assignStage s).FaultIffRaised := by
  cases hstage : assignStage s with
  | done t =>
    obtain ⟨-, hframe⟩ := assignStage_frame (.inl hstage)
    show t.errCode = none
    rw [hframe]
    exact h
  | raised t =>
    obtain ⟨hdone, -⟩ := assignStage_frame (.inr hstage)
    cases hstage.symm.trans hdone
  | stuck r => trivial

theorem faultIffRaised_encodeLoop (l : List Nat) (e : Nat) {s : State} (h : s.errCode = none) :
    (encodeLoop l e s).FaultIffRaised := by
  induction l generalizing e s with
  | nil => exact h
  | cons i l ih =>
    by_cases hcode : (s.codeLenAt (s.inAt i)).toNat = 0
    · rw [encodeLoop_cons_of_no_code l e hcode]
      exact faultIffRaised_raise _ _ _
    by_cases hfull : e + (s.codeLenAt (s.inAt i)).toNat > s.cfg.encCapacity
    · rw [encodeLoop_cons_of_overfull l hcode hfull]
      exact faultIffRaised_raise _ _ _
    · rw [encodeLoop_cons_of_fits l hcode hfull]
      exact ih _ h

theorem faultIffRaised_unpackStage {s : State} (h : s.errCode = none) : (unpackStage s).FaultIffRaised := by
  rcases unpackStage_cases s with ⟨-, hstage⟩ | ⟨-, -, hstage⟩ | ⟨-, -, -, -, ⟨-, hstage⟩ | ⟨-, hstage⟩⟩ <;>
    rw [hstage]
  · exact h
  · exact faultIffRaised_raise _ _ _
  · exact faultIffRaised_raise _ _ _
  · exact h

/-! ### No stage reads `BUSY`: 10_state.md R25 -/

theorem record_complete (s : State) (e : ErrorCode) (info : Word) :
    s.complete.record e info = (s.record e info).complete := by
  by_cases h : s.errCode = none
  · rw [record_of_quiet e info h, record_of_quiet (s := s.complete) e info h]
    rfl
  · rw [record_of_fault e info h, record_of_fault (s := s.complete) e info h]

theorem finish_raise_complete (e : ErrorCode) (info : Nat) (s : State) :
    (raise e info s.complete).finish = (raise e info s).finish := by
  rw [raise, record_complete]
  rfl

theorem buildLeaves_complete (l : List Byte) (n : Nat) (s : State) :
    buildLeaves l n s.complete = ((buildLeaves l n s).1, (buildLeaves l n s).2.complete) := by
  induction l generalizing n s with
  | nil => rfl
  | cons x l ih =>
    by_cases hx : s.freqAt x = 0#24
    · rw [buildLeaves_cons_of_absent hx, buildLeaves_cons_of_absent (s := s.complete) hx]
      exact ih n s
    · rw [buildLeaves_cons_of_present hx, buildLeaves_cons_of_present (s := s.complete) hx]
      exact ih (n + 1) (s.putNode n (leafNode x (s.freqAt x)))

theorem smallest_complete (s : State) (best : Nat) (l : List Nat) :
    smallest s.complete best l = smallest s best l := by
  induction l generalizing best with
  | nil => rfl
  | cons k l ih => exact ih _

theorem popMin_complete (s : State) (q : List Nat) : popMin s.complete q = popMin s q := by
  cases q with
  | nil => rfl
  | cons k q => simp only [popMin, smallest_complete]

theorem mergeLoop_complete (fuel : Nat) (q : List Nat) (m : Nat) (s : State) :
    mergeLoop fuel q m s.complete =
      ((mergeLoop fuel q m s).1, (mergeLoop fuel q m s).2.1, (mergeLoop fuel q m s).2.2.complete) := by
  induction fuel generalizing q m s with
  | zero => rfl
  | succ fuel ih =>
    rcases Nat.lt_or_ge 1 q.length with hlen | hlen
    · obtain ⟨a, b, q1, q2, ha, hb⟩ := two_pops s hlen
      have ha' := (popMin_complete s q).trans ha
      have hb' := (popMin_complete s q1).trans hb
      rw [mergeLoop_succ fuel m hlen ha hb, mergeLoop_succ fuel m hlen ha' hb']
      exact ih (q2 ++ [m]) (m + 1) (s.putNode m (innerNode s a b))
    · simp only [mergeLoop_of_length_le_one _ m _ hlen]

theorem finish_buildStage_complete (s : State) : (buildStage s.complete).finish = (buildStage s).finish := by
  simp only [buildStage, buildLeaves_complete, mergeLoop_complete]
  rfl

theorem walk_complete (fuel : Nat) (k : Handle) (p : List Bool) (s : State) :
    walk fuel k p s.complete = (walk fuel k p s).map State.complete := by
  induction fuel generalizing k p s with
  | zero =>
    simp only [walk]
    split <;> rfl
  | succ fuel ih =>
    simp only [walk, complete_nodeAt, ih]
    split
    · rfl
    · split
      · rfl
      · cases walk fuel (s.nodeAt k.toNat).left (p ++ [false]) s with
        | none => rfl
        | some s1 => exact ih _ _ s1

theorem finish_walkStage_complete (s : State) : (walkStage s.complete).finish = (walkStage s).finish := by
  simp only [walkStage, complete_root, walk_complete]
  cases walk 256 s.root [] s <;> rfl

theorem finish_assignStage_complete (s : State) : (assignStage s.complete).finish = (assignStage s).finish := by
  have hclear : s.complete.clearCodes = s.clearCodes.complete := rfl
  simp only [assignStage, hclear, complete_root, complete_nodeAt]
  split
  · rfl
  · split
    · rfl
    · exact finish_walkStage_complete s.clearCodes

theorem finish_encodeLoop_complete (l : List Nat) (e : Nat) (s : State) :
    (encodeLoop l e s.complete).finish = (encodeLoop l e s).finish := by
  induction l generalizing e s with
  | nil => rfl
  | cons i l ih =>
    by_cases hcode : (s.codeLenAt (s.inAt i)).toNat = 0
    · rw [encodeLoop_cons_of_no_code l e hcode, encodeLoop_cons_of_no_code (s := s.complete) l e hcode]
      exact finish_raise_complete .noCode i (s.setEncLen e)
    by_cases hfull : e + (s.codeLenAt (s.inAt i)).toNat > s.cfg.encCapacity
    · rw [encodeLoop_cons_of_overfull l hcode hfull, encodeLoop_cons_of_overfull (s := s.complete) l hcode hfull]
      exact finish_raise_complete .capacity i (s.setEncLen e)
    · rw [encodeLoop_cons_of_fits l hcode hfull, encodeLoop_cons_of_fits (s := s.complete) l hcode hfull]
      exact ih _ (s.putEnc e (s.code (s.inAt i)))

theorem finish_packStage_complete (s : State) : (packStage s.complete).finish = (packStage s).finish := by
  simp only [packStage_eq]
  rfl

theorem finish_decodeLoop_complete (l : List Nat) (d : Nat) (cand : List Bool) (s : State) :
    (decodeLoop l d cand s.complete).finish = (decodeLoop l d cand s).finish := by
  induction l generalizing d cand s with
  | nil =>
    simp only [decodeLoop]
    split
    · exact finish_raise_complete .truncatedStream cand.length (s.setDecLen d)
    · rfl
  | cons p l ih =>
    cases hmatch : s.matchCode (cand ++ [s.encAt p]) with
    | none =>
      rw [decodeLoop_cons_of_no_match l hmatch, decodeLoop_cons_of_no_match (s := s.complete) l hmatch]
      exact ih d _ s
    | some x =>
      by_cases hfull : d = s.cfg.decCapacity
      · rw [decodeLoop_cons_of_full l hmatch hfull, decodeLoop_cons_of_full (s := s.complete) l hmatch hfull]
        exact finish_raise_complete .capacity p (s.setDecLen d)
      · rw [decodeLoop_cons_of_room l hmatch hfull, decodeLoop_cons_of_room (s := s.complete) l hmatch hfull]
        exact ih (d + 1) [] (s.putDec d x)

/-! ### A stage, then commands: 45_control.md R143 -/

/-- The commands run after a command whose pseudocode ended as the stage says. -/
def Stage.thenAll (g : Stage) (cmds : List Instr) : Host.Outcome State Fault Refusal :=
  match g.finish with
  | .next t => execAll cmds t
  | .fault r => .fault r
  | .refused r => .refused r

theorem thenAll_nil (g : Stage) : g.thenAll [] = g.finish := by
  cases g <;> rfl

section
variable {i : Instr} {body : State → Stage} (hexec : ∀ s, exec i s = runCommand body s)
include hexec

theorem execAll_cons_of_quiet {s : State} (h : s.errCode = none) (cmds : List Instr) :
    execAll (i :: cmds) s = (body s).thenAll cmds := by
  rw [execAll, hexec, runCommand_of_quiet body h]
  rfl

/-- A recorded fault passes over the command: 60_exceptions.md R173. -/
theorem execAll_cons_of_fault {s : State} (h : s.errCode ≠ none) (cmds : List Instr) :
    execAll (i :: cmds) s = execAll cmds s.complete := by
  rw [execAll, hexec, runCommand_of_fault body h]

/-- A command after a stage is its own stage chained to that one. -/
theorem thenAll_cons (hbusy : ∀ s, (body s.complete).finish = (body s).finish) {g : Stage} (hg : g.FaultIffRaised)
    (cmds : List Instr) : g.thenAll (i :: cmds) = (g.andThen body).thenAll cmds := by
  cases g with
  | done s =>
    show execAll (i :: cmds) s.complete = (body s).thenAll cmds
    rw [execAll_cons_of_quiet hexec (s := s.complete) hg, Stage.thenAll, hbusy]
    rfl
  | raised s => exact execAll_cons_of_fault hexec (s := s.complete) hg cmds
  | stuck r => rfl

end

/-! ### The composites: 45_control.md R140 to R143 -/

/-- The state a stage of `COMPRESS` meets has a fault exactly if an earlier stage raised it, so the command refused there
is the stage that R143 leaves out. -/
theorem finish_encoderStages_eq_execAll {s : State} (h : s.errCode = none) :
    (encoderStages s).finish = execAll [.analyze, .build, .assign, .encode, .pack] s := by
  have hanalyze := faultIffRaised_analyzeStage h
  have hbuild := faultIffRaised_andThen hanalyze fun _ => faultIffRaised_buildStage
  have hassign := faultIffRaised_andThen hbuild fun _ => faultIffRaised_assignStage
  have hencode := faultIffRaised_andThen (f := encodeStage) hassign fun t ht =>
    faultIffRaised_encodeLoop (List.range t.inLen.toNat) 0 ht
  rw [execAll_cons_of_quiet (body := analyzeStage) (fun _ => rfl) h,
    thenAll_cons (body := buildStage) (fun _ => rfl) finish_buildStage_complete hanalyze,
    thenAll_cons (body := assignStage) (fun _ => rfl) finish_assignStage_complete hbuild,
    thenAll_cons (body := encodeStage) (fun _ => rfl) (fun t => finish_encodeLoop_complete _ 0 t) hassign,
    thenAll_cons (body := packStage) (fun _ => rfl) finish_packStage_complete hencode, thenAll_nil]
  rfl

theorem exec_compress_of_no_input {s : State} (h : s.errCode = none) (hlen : s.inLen = 0#32) :
    exec .compress s = .next (shortCircuit s).complete :=
  runCommand_of_done h (if_pos hlen)

theorem exec_compress_of_input {s : State} (h : s.errCode = none) (hlen : s.inLen ≠ 0#32) :
    exec .compress s = (encoderStages (s.setEmpty false)).finish :=
  (runCommand_of_quiet compressStage h).trans (congrArg Stage.finish (if_neg hlen))

/-- Settles O44: the short circuit writes out its result, and otherwise the stages chained inside `COMPRESS` are the five
commands in sequence, which differ only in clearing `BUSY` in between. -/
theorem compressFollowsStages : Obligations.CompressFollowsStages := by
  intro s hquiet
  refine ⟨fun hlen => ⟨_, exec_compress_of_no_input hquiet hlen, rfl, fun x => ⟨?_, ?_, fun k hk => ?_⟩⟩,
    fun hlen => ?_⟩
  · rw [complete_freqAt, State.freqAt, shortCircuit_freq, Vector.getElem_replicate]
  · exact codeLenAt_clearCodes s x
  · exact codeBitAt_clearCodes s x hk
  · rw [exec_compress_of_input hquiet hlen]
    exact finish_encoderStages_eq_execAll (s := s.setEmpty false) hquiet

theorem finish_expandStage_eq_execAll {s : State} (h : s.errCode = none) :
    (expandStage s).finish = execAll [.unpack, .decode] s := by
  rw [execAll_cons_of_quiet (body := unpackStage) (fun _ => rfl) h,
    thenAll_cons (body := decodeStage) (fun _ => rfl) (fun t => finish_decodeLoop_complete _ 0 [] t)
      (faultIffRaised_unpackStage h), thenAll_nil]
  rfl

theorem expandStage_of_no_bytes {s : State} (h : s.pkLen = 0#32) :
    expandStage s = .done { s with encLen := 0#32, decLen := 0#32 } := by
  have hunpack : unpackStage s = .done { s with encLen := 0#32 } := if_pos (by rw [h]; rfl)
  rw [expandStage, hunpack]
  rfl

/-- Settles O50: `DECODE` runs on the state `UNPACK` left, where a fault is recorded exactly if `UNPACK` raised it; the
empty artifact gives zero bits, hence no symbols. -/
theorem expandFollowsStages : Obligations.ExpandFollowsStages := by
  intro s hquiet
  refine ⟨?_, fun hlen => runCommand_of_done hquiet (expandStage_of_no_bytes hlen)⟩
  rw [← finish_expandStage_eq_execAll hquiet]
  exact runCommand_of_quiet expandStage hquiet

end Sys2Proof.Machine
end

section
/-! Proofs about the control commands, and about what no command writes. -/

namespace Sys2Proof.Machine

/-! ### `NOP`, `CLRERR` and `RESET`: 45_control.md R139, R144, R145 -/

/-- Settles O13: refused or not, all that is left of `NOP` is the end of `BUSY`. -/
theorem nopChangesNothing : Obligations.NopChangesNothing := by
  intro s
  by_cases h : s.errCode = none
  · exact runCommand_of_quiet .done h
  · exact runCommand_of_fault .done h

/-- Settles O14: a recorded fault does not refuse `CLRERR`, and `STATUS.ERR` is read off the code it clears. -/
theorem clrerrClearsOnlyTheFault : Obligations.ClrerrClearsOnlyTheFault :=
  fun _ => ⟨_, rfl, rfl, rfl⟩

/-- Settles O15: a recorded fault does not refuse `RESET`, and the two tables it writes are vectors of zeros. -/
theorem resetCommandRestoresRegisters : Obligations.ResetCommandRestoresRegisters := by
  refine fun s => ⟨_, rfl, rfl, fun x => ⟨?_, ?_⟩⟩
  · rw [complete_freqAt, State.freqAt, softReset_freq, Vector.getElem_replicate]
  · rw [complete_codeLenAt, State.codeLenAt, softReset_codeLen, Vector.getElem_replicate]

/-! ### What no command writes: 20_memory.md R58 -/

/-- The parameter, the input symbols and what belongs to the outside world are in `t` as they are in `s`. -/
structure SameOutside (s t : State) : Prop where
  cfg : t.cfg = s.cfg
  inMem : t.inMem = s.inMem
  epoch : t.epoch = s.epoch
  hostIn : t.hostIn = s.hostIn
  hostOut : t.hostOut = s.hostOut

theorem sameOutside_refl (s : State) : SameOutside s s := ⟨rfl, rfl, rfl, rfl, rfl⟩

theorem sameOutside_trans {s t u : State} (h : SameOutside s t) (h' : SameOutside t u) : SameOutside s u :=
  ⟨h'.cfg.trans h.cfg, h'.inMem.trans h.inMem, h'.epoch.trans h.epoch, h'.hostIn.trans h.hostIn,
    h'.hostOut.trans h.hostOut⟩

theorem sameOutside_complete {s t : State} (h : SameOutside s t) : SameOutside s t.complete :=
  sameOutside_trans h ⟨rfl, rfl, rfl, rfl, rfl⟩

theorem sameOutside_raise {e : ErrorCode} {info : Nat} {s t : State} (h : (raise e info s).Ends t) :
    SameOutside s t := by
  rw [ends_raise] at h
  subst h
  constructor <;> simp

theorem sameOutside_analyzeStage {s t : State} (h : (analyzeStage s).Ends t) : SameOutside s t := by
  rw [analyzeStage, ends_done] at h
  subst h
  exact ⟨rfl, rfl, rfl, rfl, rfl⟩

theorem sameOutside_buildStage {s t : State} (h : (buildStage s).Ends t) : SameOutside s t := by
  obtain ⟨u, hstage, hframe⟩ := buildStage_frame s
  rw [hstage, ends_done] at h
  subst h
  constructor <;> rw [hframe]

theorem sameOutside_assignStage {s t : State} (h : (assignStage s).Ends t) : SameOutside s t := by
  obtain ⟨-, hframe⟩ := assignStage_frame h
  constructor <;> rw [hframe]

theorem sameOutside_encodeStage {s t : State} (h : (encodeStage s).Ends t) : SameOutside s t := by
  constructor <;> rw [encodeLoop_frame h]

theorem sameOutside_packStage {s t : State} (h : (packStage s).Ends t) : SameOutside s t := by
  rw [packStage_eq, ends_done] at h
  subst h
  exact ⟨rfl, rfl, rfl, rfl, rfl⟩

theorem sameOutside_unpackStage {s t : State} (h : (unpackStage s).Ends t) : SameOutside s t := by
  rcases unpackStage_cases s with ⟨-, hstage⟩ | ⟨-, -, hstage⟩ | ⟨-, -, -, -, ⟨-, hstage⟩ | ⟨-, hstage⟩⟩ <;>
    rw [hstage] at h
  case inl | inr.inr.inr =>
    rw [ends_done] at h
    subst h
    exact ⟨rfl, rfl, rfl, rfl, rfl⟩
  all_goals exact sameOutside_raise h

theorem sameOutside_decodeStage {s t : State} (h : (decodeStage s).Ends t) : SameOutside s t := by
  constructor <;> rw [decodeLoop_frame h]

theorem sameOutside_andThen {g : Stage} {f : State → Stage} {s t : State} (hg : ∀ {u}, g.Ends u → SameOutside s u)
    (hf : ∀ {u v}, (f u).Ends v → SameOutside u v) (h : (g.andThen f).Ends t) : SameOutside s t := by
  rcases andThen_ends h with hraised | ⟨u, hdone, hend⟩
  · exact hg (.inr hraised)
  · exact sameOutside_trans (hg (.inl hdone)) (hf hend)

theorem sameOutside_compressStage {s t : State} (h : (compressStage s).Ends t) : SameOutside s t := by
  rw [compressStage] at h
  split at h
  · rw [ends_done] at h
    subst h
    exact ⟨rfl, rfl, rfl, rfl, rfl⟩
  · have hempty : SameOutside s (s.setEmpty false) := ⟨rfl, rfl, rfl, rfl, rfl⟩
    refine sameOutside_trans hempty (sameOutside_andThen ?_ sameOutside_packStage h)
    refine sameOutside_andThen ?_ sameOutside_encodeStage
    refine sameOutside_andThen ?_ sameOutside_assignStage
    exact sameOutside_andThen sameOutside_analyzeStage sameOutside_buildStage

theorem sameOutside_expandStage {s t : State} (h : (expandStage s).Ends t) : SameOutside s t :=
  sameOutside_andThen sameOutside_unpackStage sameOutside_decodeStage h

theorem sameOutside_runCommand {body : State → Stage} (hbody : ∀ {s u}, (body s).Ends u → SameOutside s u)
    {s t : State} (h : runCommand body s = .next t) : SameOutside s t := by
  rcases runCommand_eq_next h with ⟨-, rfl⟩ | ⟨-, u, hend, rfl⟩
  · exact sameOutside_complete (sameOutside_refl s)
  · exact sameOutside_complete (hbody hend)

theorem sameOutside_exec {i : Instr} {s t : State} (h : exec i s = .next t) : SameOutside s t := by
  cases i with
  | nop => exact sameOutside_runCommand (fun hend => (ends_done _ _).mp hend ▸ sameOutside_refl _) h
  | analyze => exact sameOutside_runCommand sameOutside_analyzeStage h
  | build => exact sameOutside_runCommand sameOutside_buildStage h
  | assign => exact sameOutside_runCommand sameOutside_assignStage h
  | encode => exact sameOutside_runCommand sameOutside_encodeStage h
  | pack => exact sameOutside_runCommand sameOutside_packStage h
  | unpack => exact sameOutside_runCommand sameOutside_unpackStage h
  | decode => exact sameOutside_runCommand sameOutside_decodeStage h
  | compress => exact sameOutside_runCommand sameOutside_compressStage h
  | expand => exact sameOutside_runCommand sameOutside_expandStage h
  | clrerr | reset =>
    cases h
    exact ⟨rfl, rfl, rfl, rfl, rfl⟩

end Sys2Proof.Machine
end

section
/-! Proofs about the step of a block with a command pending: an illegal word, and an access that is held. -/

namespace Sys2Proof.Machine

/-! ### The core's step: 45_control.md R138, R146 -/

theorem step_of_busy {s : State} (hbusy : s.busy = true) (hfirst : s.hostGoesFirst = false) : step s = coreStep s := by
  simp [step, hbusy, hfirst]

theorem coreStep_of_legal {s : State} {i : Instr} (h : decode s.pending = .ok i) : coreStep s = exec i s := by
  rw [coreStep, h]

theorem coreStep_of_illegal {s : State} {r : Illegal} (h : decode s.pending = .error r) :
    coreStep s = execIllegal s.pending s := by
  rw [coreStep, h]

/-- Settles O4: the word is executed as a command whose whole body is `raise BAD_COMMAND`. -/
theorem illegalWordRecordsBadCommand : Obligations.IllegalWordRecordsBadCommand := by
  intro s r hbusy hfirst hillegal
  rw [step_of_busy hbusy hfirst, coreStep_of_illegal hillegal]
  refine ⟨fun hquiet => ?_, fun hfault => runCommand_of_fault _ hfault⟩
  rw [execIllegal, runCommand_of_raise hquiet rfl hquiet, BitVec.ofNat_toNat, BitVec.setWidth_eq]

theorem sameOutside_coreStep {s t : State} (h : coreStep s = .next t) : SameOutside s t := by
  cases hdecode : decode s.pending with
  | ok i => exact sameOutside_exec ((coreStep_of_legal hdecode).symm.trans h)
  | error r => exact sameOutside_runCommand sameOutside_raise ((coreStep_of_illegal hdecode).symm.trans h)

/-! ### A write of `CMD`: R137 -/

theorem act_write_cmd (s : State) (w : Word) : act (.write 0#4 0#28 w) s = acceptCommand s w := rfl

/-- A write never comes before the pending command: 20_memory.md R53. -/
theorem hostGoesFirst_of_write {s : State} {early : Bool} {n : BitVec 4} {i : BitVec 28} {w : Word}
    {rest : List HostEvent} (hin : s.hostIn = ⟨early, .write n i w⟩ :: rest) : s.hostGoesFirst = false := by
  simp [State.hostGoesFirst, hin, completesWhileBusy]

/-- Settles O5: an idle block accepts whatever the word is; a pending command comes before a write, and no command
touches the stream that holds it. -/
theorem commandAcceptance : Obligations.CommandAcceptance := by
  intro s early w rest hin
  refine ⟨fun hidle => ?_, fun hbusy => ?_⟩
  · rw [step_of_idle hidle hin, act_write_cmd]
    rfl
  · have hcore := step_of_busy hbusy (hostGoesFirst_of_write hin)
    exact ⟨hcore, fun t hstep => (sameOutside_coreStep (hcore.symm.trans hstep)).hostIn⟩

end Sys2Proof.Machine
end

section
/-! Proofs about code trees: the paths to their leaves, none of which continues another. -/

namespace Sys2Proof.Machine

/-- A tree of symbols as a term. `HoldsTree` ties it to the records of a state. -/
inductive CodeTree where
  | leaf (x : Byte)
  | node (l r : CodeTree)

namespace CodeTree

/-- The number of edges of the longest path. -/
def height : CodeTree → Nat
  | leaf _ => 0
  | node l r => max l.height r.height + 1

/-- The symbols of the leaves, from left to right. -/
def leaves : CodeTree → List Byte
  | leaf x => [x]
  | node l r => l.leaves ++ r.leaves

/-- Each leaf's symbol with the path to it, `p` being the path to the root: 42_code_assigner.md R105. -/
def paths : List Bool → CodeTree → List (Byte × List Bool)
  | p, leaf x => [(x, p)]
  | p, node l r => l.paths (p ++ [false]) ++ r.paths (p ++ [true])

/-- The codes `ASSIGN` gives for the tree: the paths, or "0" for a lone leaf (R105, R106). -/
def codes : CodeTree → List (Byte × List Bool)
  | leaf x => [(x, [false])]
  | node l r => (node l r).paths []

theorem leaves_length_pos (t : CodeTree) : 0 < t.leaves.length := by
  induction t with
  | leaf x => exact Nat.one_pos
  | node l r ihl ihr => exact Nat.lt_of_lt_of_le ihl (by rw [leaves, List.length_append]; omega)

/-- 46_laws.md R158: each edge of a path leaves the leaves of a sibling behind. -/
theorem height_lt_leaves_length (t : CodeTree) : t.height < t.leaves.length := by
  induction t with
  | leaf x => exact Nat.one_pos
  | node l r ihl ihr =>
    have hl := l.leaves_length_pos
    have hr := r.leaves_length_pos
    rw [height, leaves, List.length_append]
    omega

theorem map_fst_paths (p : List Bool) (t : CodeTree) : (t.paths p).map Prod.fst = t.leaves := by
  induction t generalizing p with
  | leaf x => rfl
  | node l r ihl ihr => rw [paths, List.map_append, ihl, ihr, leaves]

theorem map_fst_codes (t : CodeTree) : t.codes.map Prod.fst = t.leaves := by
  cases t with
  | leaf x => rfl
  | node l r => exact map_fst_paths [] (node l r)

/-- The path to a leaf continues the path to the root. -/
theorem exists_of_mem_paths {t : CodeTree} {p : List Bool} {e : Byte × List Bool} (h : e ∈ t.paths p) :
    ∃ r, e.2 = p ++ r ∧ r.length ≤ t.height := by
  induction t generalizing p with
  | leaf x =>
    rw [List.mem_singleton.mp h]
    exact ⟨[], (List.append_nil p).symm, Nat.le_refl 0⟩
  | node l r ihl ihr =>
    rw [height]
    rcases List.mem_append.mp h with h | h
    · obtain ⟨q, hq, hlen⟩ := ihl h
      exact ⟨false :: q, by rw [hq, List.append_assoc, List.singleton_append], by rw [List.length_cons]; omega⟩
    · obtain ⟨q, hq, hlen⟩ := ihr h
      exact ⟨true :: q, by rw [hq, List.append_assoc, List.singleton_append], by rw [List.length_cons]; omega⟩

/-- Paths that part at a node differ at a position both have. -/
theorem not_prefix_of_mem_sides {l r : CodeTree} {p : List Bool} {b : Bool} {d e : Byte × List Bool}
    (hd : d ∈ l.paths (p ++ [b])) (he : e ∈ r.paths (p ++ [!b])) : ¬ d.2 <+: e.2 := by
  obtain ⟨q, hq, -⟩ := exists_of_mem_paths hd
  obtain ⟨q', hq', -⟩ := exists_of_mem_paths he
  simp [hq, hq', List.prefix_append_right_inj]

/-- 46_laws.md R151: a path ends at its leaf, so none continues another. -/
theorem eq_of_prefix_of_mem_paths {t : CodeTree} {p : List Bool} {d e : Byte × List Bool} (hd : d ∈ t.paths p)
    (he : e ∈ t.paths p) (h : d.2 <+: e.2) : d = e := by
  induction t generalizing p with
  | leaf x => rw [List.mem_singleton.mp hd, List.mem_singleton.mp he]
  | node l r ihl ihr =>
    rcases List.mem_append.mp hd with hd | hd <;> rcases List.mem_append.mp he with he | he
    · exact ihl hd he
    · exact absurd h (not_prefix_of_mem_sides (b := false) hd he)
    · exact absurd h (not_prefix_of_mem_sides (b := true) hd he)
    · exact ihr hd he

theorem eq_of_prefix_of_mem_codes {t : CodeTree} {d e : Byte × List Bool} (hd : d ∈ t.codes) (he : e ∈ t.codes)
    (h : d.2 <+: e.2) : d = e := by
  cases t with
  | leaf x => rw [List.mem_singleton.mp hd, List.mem_singleton.mp he]
  | node l r => exact eq_of_prefix_of_mem_paths (p := []) hd he h

theorem length_le_of_mem_codes {t : CodeTree} (ht : t.height ≤ 255) {e : Byte × List Bool} (he : e ∈ t.codes) :
    e.2.length ≤ 255 := by
  cases t with
  | leaf x =>
    rw [List.mem_singleton.mp he]
    exact Nat.le_add_left 1 254
  | node l r =>
    obtain ⟨q, hq, hlen⟩ := exists_of_mem_paths (t := node l r) (p := []) he
    rw [hq, List.nil_append]
    exact hlen.trans ht

end CodeTree

end Sys2Proof.Machine
end

section
/-! Proofs about the tree that the records of a state hold, and about the codes `ASSIGN` makes of it. -/

namespace Sys2Proof.Machine

/-! ### The tree below a handle: 10_state.md R35, R36 -/

/-- The records below handle `k` are this tree, every child below its parent. -/
inductive HoldsTree (s : State) : Nat → CodeTree → Prop
  | leaf {k : Nat} (hk : k < 511) (hleaf : (s.nodeAt k).leaf = true) : HoldsTree s k (.leaf (s.nodeAt k).sym)
  | node {k : Nat} {l r : CodeTree} (hk : k < 511) (hleaf : (s.nodeAt k).leaf = false)
      (hleft : (s.nodeAt k).left.toNat < k) (hright : (s.nodeAt k).right.toNat < k)
      (hl : HoldsTree s (s.nodeAt k).left.toNat l) (hr : HoldsTree s (s.nodeAt k).right.toNat r) :
      HoldsTree s k (.node l r)

/-- The tree below a handle is not disturbed by what happens to records above it. -/
theorem holdsTree_congr {s u : State} {k : Nat} {t : CodeTree} (h : HoldsTree s k t)
    (hnode : ∀ j, j ≤ k → u.nodeAt j = s.nodeAt j) : HoldsTree u k t := by
  induction h with
  | @leaf k hk hleaf =>
    have heq := hnode k (Nat.le_refl k)
    rw [← heq] at hleaf ⊢
    exact .leaf hk hleaf
  | @node k l r hk hleaf hleft hright _ _ ihl ihr =>
    have heq := hnode k (Nat.le_refl k)
    have hl := ihl fun j hj => hnode j (hj.trans hleft.le)
    have hr := ihr fun j hj => hnode j (hj.trans hright.le)
    rw [← heq] at hleaf hleft hright hl hr
    exact .node hk hleaf hleft hright hl hr

theorem holdsTree_ne_nil {s : State} {k : Handle} {t : CodeTree} (h : HoldsTree s k.toNat t) : k ≠ nilHandle := by
  rintro rfl
  have hlt : nilHandle.toNat < 511 := by cases h <;> assumption
  exact Nat.lt_irrefl 511 hlt

/-- The tree invariant gives a tree below every handle. Only internal records add to its height, and a path through
them descends. -/
theorem exists_holdsTree_of_treeShape {s : State} {n : Nat} (h : TreeShape s n) (k : Nat) (hk : k < 2 * n - 1) :
    ∃ t, HoldsTree s k t ∧ t.height ≤ k + 1 - n := by
  induction k using Nat.strong_induction_on with
  | h k ih =>
    have hle := h.le
    rcases Nat.lt_or_ge k n with hkn | hkn
    · exact ⟨_, .leaf (by omega) (h.leaves k hkn).1, Nat.zero_le _⟩
    · obtain ⟨hleaf, -, hleft, hright, -, -⟩ := h.inner k hkn hk
      obtain ⟨l, hl, hlh⟩ := ih _ hleft (by omega)
      obtain ⟨r, hr, hrh⟩ := ih _ hright (by omega)
      exact ⟨_, .node (by omega) hleaf hleft hright hl hr, by rw [CodeTree.height]; omega⟩

/-- R36: no tree, or one whose paths fit a code (42_code_assigner.md R110). -/
theorem root_of_treeOK {s : State} (h : TreeOK s) :
    s.root = nilHandle ∨ ∃ t, HoldsTree s s.root.toNat t ∧ t.height ≤ 255 := by
  rcases h with ⟨-, hroot⟩ | ⟨n, h⟩
  · exact .inl hroot
  · have hpos := h.pos
    have hle := h.le
    have hroot := h.root
    obtain ⟨t, ht, hheight⟩ := exists_holdsTree_of_treeShape h s.root.toNat (by omega)
    exact .inr ⟨t, ht, by omega⟩

/-! ### A table written code by code -/

/-- `SetCode` for each entry in turn: 42_code_assigner.md R105. -/
def State.setCodes (s : State) (l : List (Byte × List Bool)) : State := l.foldl (fun s e => s.setCode e.1 e.2) s

theorem setCodes_cons (s : State) (e : Byte × List Bool) (l : List (Byte × List Bool)) :
    s.setCodes (e :: l) = (s.setCode e.1 e.2).setCodes l := rfl

theorem setCodes_append (s : State) (l l' : List (Byte × List Bool)) :
    s.setCodes (l ++ l') = (s.setCodes l).setCodes l' := List.foldl_append

theorem setCodes_frame (s : State) (l : List (Byte × List Bool)) :
    s.setCodes l = { s with codeLen := (s.setCodes l).codeLen, codeBits := (s.setCodes l).codeBits } := by
  induction l generalizing s with
  | nil => rfl
  | cons e l ih =>
    rw [setCodes_cons, ih]
    rfl

@[simp] theorem setCodes_nodeAt (s : State) (l : List (Byte × List Bool)) (k : Nat) :
    (s.setCodes l).nodeAt k = s.nodeAt k := by
  rw [setCodes_frame]
  rfl

/-- The last entry for a symbol is its code; a symbol without an entry keeps the code it had. -/
theorem code_setCodes {l : List (Byte × List Bool)} (hlen : ∀ e ∈ l, e.2.length ≤ 255) (s : State) (y : Byte) :
    (y, (s.setCodes l).code y) ∈ l ∨ (y ∉ l.map Prod.fst ∧ (s.setCodes l).code y = s.code y) := by
  induction l generalizing s with
  | nil => exact .inr ⟨List.not_mem_nil, rfl⟩
  | cons e l ih =>
    rw [setCodes_cons]
    rcases ih (fun d hd => hlen d (List.mem_cons_of_mem e hd)) (s.setCode e.1 e.2) with hmem | ⟨hnot, hcode⟩
    · exact .inl (List.mem_cons_of_mem e hmem)
    · rw [hcode]
      by_cases he : e.1 = y
      · subst he
        rw [code_setCode_same s e.1 (hlen e List.mem_cons_self)]
        exact .inl List.mem_cons_self
      · rw [code_setCode_other s e.2 he]
        exact .inr ⟨List.not_mem_cons_of_ne_of_not_mem (Ne.symm he) hnot, rfl⟩

@[simp] theorem code_length (s : State) (x : Byte) : (s.code x).length = (s.codeLenAt x).toNat := by
  simp [State.code]

theorem hasCode_iff (s : State) (x : Byte) : s.hasCode x ↔ s.code x ≠ [] := by
  rw [State.hasCode, ne_eq, ne_eq, ← List.length_eq_zero_iff, code_length, ← BitVec.toNat_inj]
  rfl

/-- In a cleared table the codes are the entries written to it. -/
theorem mem_of_hasCode_setCodes {l : List (Byte × List Bool)} (hlen : ∀ e ∈ l, e.2.length ≤ 255) {s : State} {y : Byte}
    (h : (s.clearCodes.setCodes l).hasCode y) : (y, (s.clearCodes.setCodes l).code y) ∈ l := by
  rw [hasCode_iff] at h
  rcases code_setCodes hlen s.clearCodes y with hmem | ⟨-, hcode⟩
  · exact hmem
  · exact absurd (hcode.trans (code_clearCodes s y)) h

/-! ### `ASSIGN`: 42_code_assigner.md R105 to R107 -/

/-- `Walk` writes the paths of the tree it walks. -/
theorem walk_of_holdsTree {t : CodeTree} {s : State} {k : Handle} {fuel : Nat} (p : List Bool)
    (h : HoldsTree s k.toNat t) (hfuel : t.height < fuel) : walk fuel k p s = some (s.setCodes (t.paths p)) := by
  induction t generalizing s k p fuel with
  | leaf x =>
    obtain ⟨fuel, rfl⟩ := Nat.exists_eq_add_of_lt hfuel
    have hnil := holdsTree_ne_nil h
    cases h with
    | leaf _ hleaf =>
      rw [walk, if_neg hnil, if_pos hleaf]
      rfl
  | node l r ihl ihr =>
    obtain ⟨fuel, rfl⟩ : ∃ f, fuel = f + 1 := Nat.exists_eq_succ_of_ne_zero (Nat.ne_zero_of_lt hfuel)
    rw [CodeTree.height] at hfuel
    have hnil := holdsTree_ne_nil h
    cases h with
    | node _ hleaf _ _ hl hr =>
      have hright := holdsTree_congr hr fun j _ => setCodes_nodeAt s (l.paths (p ++ [false])) j
      rw [walk, if_neg hnil, if_neg (by rw [hleaf]; exact Bool.false_ne_true), ihl _ hl (by omega)]
      simp only
      rw [ihr _ hright (by omega), CodeTree.paths, setCodes_append]

theorem assignStage_of_holdsTree {s : State} {t : CodeTree} (h : HoldsTree s s.root.toNat t) (ht : t.height ≤ 255) :
    assignStage s = .done (s.clearCodes.setCodes t.codes) := by
  have hroot := holdsTree_ne_nil h
  have hclear : HoldsTree s.clearCodes s.root.toNat t := holdsTree_congr h fun j _ => clearCodes_nodeAt s j
  cases h with
  | leaf _ hleaf => exact assignStage_of_leaf hroot hleaf
  | node _ hleaf =>
    have hwalk := walk_of_holdsTree (fuel := 256) [] hclear (Nat.lt_succ_of_le ht)
    have hstage : assignStage s = walkStage s.clearCodes :=
      (if_neg hroot).trans (if_neg (by rw [clearCodes_nodeAt, clearCodes_root, hleaf]; exact Bool.false_ne_true))
    rw [hstage, walkStage, clearCodes_root, hwalk]
    rfl

/-- `PrefixFree` reads nothing but the codes. -/
theorem prefixFree_of_code_eq {s t : State} (hcode : ∀ x, t.code x = s.code x) (h : PrefixFree s) : PrefixFree t := by
  intro a b hab ha hb
  rw [hasCode_iff, hcode, ← hasCode_iff] at ha hb
  rw [hcode, hcode]
  exact h a b hab ha hb

/-- 46_laws.md R151: every code is the path to a leaf of the same tree. -/
theorem prefixFree_setCodes_codes (s : State) {t : CodeTree} (ht : t.height ≤ 255) :
    PrefixFree (s.clearCodes.setCodes t.codes) := by
  intro a b hab ha hb hprefix
  have hlen := fun e => CodeTree.length_le_of_mem_codes (e := e) ht
  have hpair := CodeTree.eq_of_prefix_of_mem_codes (mem_of_hasCode_setCodes hlen ha) (mem_of_hasCode_setCodes hlen hb)
    hprefix
  exact hab (congrArg Prod.fst hpair)

theorem prefixFree_clearCodes (s : State) : PrefixFree s.clearCodes :=
  fun a _ _ ha => absurd (codeLenAt_clearCodes s a) ha

/-- A state with no tree, or with one whose paths fit a code, is all that `ASSIGN` needs. -/
theorem exec_assign_prefixFree {s : State} (h : s.errCode = none)
    (hroot : s.root = nilHandle ∨ ∃ t, HoldsTree s s.root.toNat t ∧ t.height ≤ 255) :
    ∃ t, exec .assign s = .next t ∧ PrefixFree t := by
  rcases hroot with hroot | ⟨t, ht, hheight⟩
  · exact ⟨_, exec_assign_of_done h (assignStage_of_no_root hroot),
      prefixFree_of_code_eq (complete_code _) (prefixFree_clearCodes s)⟩
  · exact ⟨_, exec_assign_of_done h (assignStage_of_holdsTree ht hheight),
      prefixFree_of_code_eq (complete_code _) (prefixFree_setCodes_codes s hheight)⟩

end Sys2Proof.Machine
end

section
/-! Proofs about the lengths of codes of which none continues another: Kraft's inequality, and that the two least
weights can share the greatest length at no cost. This is the mathematics behind 46_laws.md R152, without a state. -/

namespace Sys2Proof.Machine

/-- Kraft's inequality for binary words of these lengths. -/
def Kraft {ι : Type} (q : List ι) (len : ι → ℕ) : Prop := (q.map fun i => (1 / 2 : ℝ) ^ len i).sum ≤ 1

/-- The weighted sum of the lengths. -/
def weightedSum {ι : Type} (q : List ι) (w len : ι → ℕ) : ℕ := (q.map fun i => w i * len i).sum

/-! ### Codes of which none continues another -/

/-- The first word of a concatenation is determined where no word continues another. -/
theorem uniquelyDecodable_of_prefixFree {S : Set (List Bool)} (hne : [] ∉ S)
    (hfree : ∀ u ∈ S, ∀ v ∈ S, u <+: v → u = v) : InformationTheory.UniquelyDecodable S := by
  have hcons : ∀ {u : List Bool} {L : List (List Bool)}, u ∈ S → [] ≠ (u :: L).flatten := by
    intro u L hu h
    rw [List.flatten_cons, eq_comm, List.append_eq_nil_iff] at h
    exact hne (h.1 ▸ hu)
  intro L₁
  induction L₁ with
  | nil =>
    intro L₂ _ h₂ hflat
    cases L₂ with
    | nil => rfl
    | cons v L₂ => exact absurd hflat (hcons (h₂ v List.mem_cons_self))
  | cons u L₁ ih =>
    intro L₂ h₁ h₂ hflat
    have hu := h₁ u List.mem_cons_self
    cases L₂ with
    | nil => exact absurd hflat.symm (hcons hu)
    | cons v L₂ =>
      have hv := h₂ v List.mem_cons_self
      rw [List.flatten_cons, List.flatten_cons] at hflat
      have huv : u = v := by
        rcases List.prefix_or_prefix_of_prefix (hflat ▸ List.prefix_append u _) (List.prefix_append v _) with h | h
        · exact hfree u hu v hv h
        · exact (hfree v hv u hu h).symm
      subst huv
      rw [ih L₂ (fun x hx => h₁ x (List.mem_cons_of_mem u hx)) (fun x hx => h₂ x (List.mem_cons_of_mem u hx))
        (List.append_cancel_left hflat)]

/-- The library's inequality is about the set of words, in which different symbols' words do not coincide. -/
theorem kraft_of_prefixFree {ι : Type} [DecidableEq ι] {q : List ι} (hq : q.Nodup) {c : ι → List Bool}
    (hne : ∀ x ∈ q, c x ≠ []) (hfree : ∀ x ∈ q, ∀ y ∈ q, x ≠ y → ¬ c x <+: c y) :
    Kraft q (fun x => (c x).length) := by
  have heq : ∀ x ∈ q, ∀ y ∈ q, c x <+: c y → x = y := fun x hx y hy h => by
    by_contra hxy
    exact hfree x hx y hy hxy h
  have hdecode : InformationTheory.UniquelyDecodable ((q.toFinset.image c : Finset (List Bool)) : Set (List Bool)) := by
    apply uniquelyDecodable_of_prefixFree
    · simpa using hne
    · simp only [Finset.coe_image, Set.mem_image, Finset.mem_coe, List.mem_toFinset]
      rintro _ ⟨x, hx, rfl⟩ _ ⟨y, hy, rfl⟩ h
      exact congrArg c (heq x hx y hy h)
  have hkraft := InformationTheory.kraft_mcmillan_inequality hdecode
  rw [Finset.sum_image, List.sum_toFinset _ hq, Fintype.card_bool, Nat.cast_ofNat] at hkraft
  · exact hkraft
  · intro x hx y hy h
    exact heq x (List.mem_toFinset.mp hx) y (List.mem_toFinset.mp hy) (h ▸ List.prefix_rfl)

/-! ### Sums over the weights -/

section
variable {ι : Type} {q q' : List ι} {w len len' : ι → ℕ}

theorem kraft_perm (h : q.Perm q') : Kraft q len ↔ Kraft q' len := by
  rw [Kraft, Kraft, (h.map _).sum_eq]

theorem kraft_cons (i : ι) :
    Kraft (i :: q) len ↔ (1 / 2 : ℝ) ^ len i + (q.map fun i => (1 / 2 : ℝ) ^ len i).sum ≤ 1 := by
  rw [Kraft, List.map_cons, List.sum_cons]

theorem weightedSum_perm (h : q.Perm q') : weightedSum q w len = weightedSum q' w len := (h.map _).sum_eq

theorem weightedSum_cons (i : ι) : weightedSum (i :: q) w len = w i * len i + weightedSum q w len := by
  rw [weightedSum, List.map_cons, List.sum_cons, weightedSum]

theorem weightedSum_congr {w' : ι → ℕ} (hw : ∀ i ∈ q, w i = w' i) (hlen : ∀ i ∈ q, len i = len' i) :
    weightedSum q w len = weightedSum q w' len' :=
  congrArg List.sum (List.map_congr_left fun i hi => by rw [hw i hi, hlen i hi])

theorem weightedSum_mono (h : ∀ i ∈ q, len i ≤ len' i) : weightedSum q w len ≤ weightedSum q w len' :=
  List.sum_le_sum fun i hi => Nat.mul_le_mul_left _ (h i hi)

/-- Kraft's inequality in whole numbers, `L` being no less than any length. -/
theorem kraft_iff_scaled {L : ℕ} (h : ∀ i ∈ q, len i ≤ L) :
    Kraft q len ↔ (q.map fun i => 2 ^ (L - len i)).sum ≤ 2 ^ L := by
  have hscale :
      (((q.map fun i => 2 ^ (L - len i)).sum : ℕ) : ℝ) = 2 ^ L * (q.map fun i => (1 / 2 : ℝ) ^ len i).sum := by
    rw [Nat.cast_list_sum, List.map_map, ← List.sum_map_mul_left]
    refine congrArg List.sum (List.map_congr_left fun i hi => ?_)
    have hpow : (2 : ℝ) ^ L = 2 ^ (L - len i) * 2 ^ len i := by rw [← pow_add, Nat.sub_add_cancel (h i hi)]
    rw [Function.comp_apply, hpow, mul_assoc, ← mul_pow]
    norm_num
  have hpos : (0 : ℝ) < 2 ^ L := by positivity
  rw [Kraft, ← Nat.cast_le (α := ℝ), hscale, Nat.cast_pow, Nat.cast_ofNat, mul_le_iff_le_one_right hpos]

end

/-! ### Two longest words -/

section
variable {ι : Type} [DecidableEq ι] {q : List ι} {w len : ι → ℕ}

/-- Two words exchange their lengths; the lighter one gets the greater length. -/
theorem exists_swapped_lengths (hq : q.Nodup) {a i : ι} (ha : a ∈ q) (hi : i ∈ q) (hw : w a ≤ w i)
    (hlen : len a ≤ len i) (hkraft : Kraft q len) :
    ∃ len', Kraft q len' ∧ weightedSum q w len' ≤ weightedSum q w len ∧ len' a = len i ∧ len' i = len a ∧
      ∀ k, k ≠ a → k ≠ i → len' k = len k := by
  by_cases hai : a = i
  · exact ⟨len, hkraft, Nat.le_refl _, congrArg len hai, congrArg len hai.symm, fun _ _ _ => rfl⟩
  have hswap_a : (len ∘ Equiv.swap a i) a = len i := congrArg len (Equiv.swap_apply_left a i)
  have hswap_i : (len ∘ Equiv.swap a i) i = len a := congrArg len (Equiv.swap_apply_right a i)
  have hswap : ∀ k, k ≠ a → k ≠ i → (len ∘ Equiv.swap a i) k = len k :=
    fun k hka hki => congrArg len (Equiv.swap_apply_of_ne_of_ne hka hki)
  have hperm : q.Perm (a :: i :: (q.erase a).erase i) :=
    (List.perm_cons_erase ha).trans ((List.perm_cons_erase ((List.mem_erase_of_ne (Ne.symm hai)).mpr hi)).cons a)
  have hrest : ∀ k ∈ (q.erase a).erase i, (len ∘ Equiv.swap a i) k = len k := by
    intro k hk
    obtain ⟨hki, hk⟩ := (hq.erase a).mem_erase_iff.mp hk
    exact hswap k (hq.mem_erase_iff.mp hk).1 hki
  refine ⟨len ∘ Equiv.swap a i, ?_, ?_, hswap_a, hswap_i, hswap⟩
  · rw [kraft_perm hperm, kraft_cons, List.map_cons, List.sum_cons] at hkraft ⊢
    rw [hswap_a, hswap_i, List.map_congr_left fun k hk => by rw [hrest k hk]]
    linarith
  · rw [weightedSum_perm hperm, weightedSum_perm hperm]
    simp only [weightedSum_cons, hswap_a, hswap_i, weightedSum_congr (fun _ _ => rfl) hrest]
    nlinarith

/-- A word longer than all others can lose its last bit: scaled to whole numbers every other summand is even, so the
sum falls short of the power of two. -/
theorem kraft_shorten (hq : q.Nodup) {i : ι} (hi : i ∈ q) (hpos : 0 < len i)
    (hless : ∀ k ∈ q, k ≠ i → len k < len i) (hkraft : Kraft q len) :
    Kraft q (Function.update len i (len i - 1)) := by
  have hother : ∀ k ∈ q.erase i, k ≠ i ∧ len k < len i := fun k hk =>
    have ⟨hki, hk⟩ := hq.mem_erase_iff.mp hk
    ⟨hki, hless k hk hki⟩
  have hperm := List.perm_cons_erase hi
  have heven : 2 ∣ ((q.erase i).map fun k => 2 ^ (len i - len k)).sum := by
    refine List.dvd_sum fun y hy => ?_
    obtain ⟨k, hk, rfl⟩ := List.mem_map.mp hy
    exact dvd_pow_self 2 (Nat.sub_ne_zero_of_lt (hother k hk).2)
  have htwo : 2 ∣ 2 ^ len i := dvd_pow_self 2 hpos.ne'
  have hupdate : ∀ k ∈ q.erase i, Function.update len i (len i - 1) k = len k :=
    fun k hk => Function.update_of_ne (hother k hk).1 _ _
  rw [kraft_perm hperm, kraft_iff_scaled (L := len i)] at hkraft ⊢
  · rw [List.map_cons, List.sum_cons, Function.update_self, List.map_congr_left fun k hk => by rw [hupdate k hk],
      show len i - (len i - 1) = 1 by omega, pow_one]
    rw [List.map_cons, List.sum_cons, Nat.sub_self, pow_zero] at hkraft
    omega
  · intro k hk
    rcases List.mem_cons.mp hk with rfl | hk
    · rw [Function.update_self]
      omega
    · rw [hupdate k hk]
      exact (hother k hk).2.le
  · intro k hk
    rcases List.mem_cons.mp hk with rfl | hk
    · exact Nat.le_refl _
    · exact (hother k hk).2.le

/-- With two words or more, some lengths at no greater cost have two words of the greatest length. -/
theorem exists_two_longest (w : ι → ℕ) (hq : q.Nodup) (htwo : 1 < q.length) (hkraft : Kraft q len) :
    ∃ (len' : ι → ℕ) (i j : ι), Kraft q len' ∧ weightedSum q w len' ≤ weightedSum q w len ∧ i ∈ q ∧ j ∈ q ∧ i ≠ j ∧
      0 < len' i ∧ len' j = len' i ∧ ∀ k ∈ q, len' k ≤ len' i := by
  induction hsum : (q.map len).sum using Nat.strong_induction_on generalizing len with
  | h total ih =>
    obtain ⟨i, hi, hmax⟩ := q.toFinset.exists_max_image len
      ((List.toFinset_nonempty_iff q).mpr (List.ne_nil_of_length_pos (Nat.zero_lt_of_lt htwo)))
    simp only [List.mem_toFinset] at hi hmax
    have hpos : 0 < len i := by
      by_contra hzero
      have hall : ∀ k ∈ q, len k = 0 := fun k hk => by have := hmax k hk; omega
      rw [kraft_iff_scaled (L := 0) fun k hk => (hall k hk).le] at hkraft
      simp at hkraft
      omega
    by_cases hsecond : ∃ j ∈ q, j ≠ i ∧ len j = len i
    · obtain ⟨j, hj, hji, hlen⟩ := hsecond
      exact ⟨len, i, j, hkraft, Nat.le_refl _, hi, hj, Ne.symm hji, hpos, hlen, hmax⟩
    · have hless : ∀ k ∈ q, k ≠ i → len k < len i := fun k hk hki =>
        lt_of_le_of_ne (hmax k hk) fun hlen => hsecond ⟨k, hk, hki, hlen⟩
      have hle : ∀ k, Function.update len i (len i - 1) k ≤ len k := fun k => by
        by_cases hki : k = i
        · rw [hki, Function.update_self]
          omega
        · rw [Function.update_of_ne hki]
      have hdecrease : (q.map (Function.update len i (len i - 1))).sum < (q.map len).sum :=
        List.sum_lt_sum _ _ (fun k _ => hle k) ⟨i, hi, by rw [Function.update_self]; omega⟩
      obtain ⟨len', i', j', hkraft', hcost, hlongest⟩ :=
        ih _ (hsum ▸ hdecrease) (kraft_shorten hq hi hpos hless hkraft) rfl
      exact ⟨len', i', j', hkraft', hcost.trans (weightedSum_mono fun k _ => hle k), hlongest⟩

/-- The two words of least weight may be taken to share the greatest length. -/
theorem exists_least_share_length {a b : ι} (hq : q.Nodup) (ha : a ∈ q) (hb : b ∈ q) (hab : a ≠ b)
    (hleast : ∀ k ∈ q, w a ≤ w k) (hsecond : ∀ k ∈ q, k ≠ a → w b ≤ w k) (hkraft : Kraft q len) :
    ∃ len', Kraft q len' ∧ weightedSum q w len' ≤ weightedSum q w len ∧ 0 < len' a ∧ len' b = len' a := by
  have htwo : 1 < q.length := by
    have hlen := List.length_erase_add_one ha
    have hpos := List.length_pos_of_mem ((List.mem_erase_of_ne (Ne.symm hab)).mpr hb)
    omega
  obtain ⟨len1, i, j, hkraft1, hcost1, hi, hj, hij, hpos, hji, hmax⟩ := exists_two_longest w hq htwo hkraft
  obtain ⟨len2, hkraft2, hcost2, ha2, hi2, hkeep2⟩ :=
    exists_swapped_lengths (w := w) hq ha hi (hleast i hi) (hmax a ha) hkraft1
  obtain ⟨j2, hj2, hj2a, hlong⟩ : ∃ j2 ∈ q, j2 ≠ a ∧ len2 j2 = len1 i := by
    by_cases hja : j = a
    · exact ⟨i, hi, hja ▸ hij, hi2.trans (hja ▸ hji)⟩
    · exact ⟨j, hj, hja, (hkeep2 j hja (Ne.symm hij)).trans hji⟩
  have hle : len2 b ≤ len2 j2 := by
    rw [hlong]
    by_cases hbi : b = i
    · rw [hbi, hi2]
      exact hmax a ha
    · rw [hkeep2 b (Ne.symm hab) hbi]
      exact hmax b hb
  obtain ⟨len3, hkraft3, hcost3, hb3, -, hkeep3⟩ :=
    exists_swapped_lengths (w := w) hq hb hj2 (hsecond j2 hj2 hj2a) hle hkraft2
  have ha3 : len3 a = len1 i := (hkeep3 a hab (Ne.symm hj2a)).trans ha2
  exact ⟨len3, hkraft3, (hcost3.trans hcost2).trans hcost1, by rwa [ha3], by rw [hb3, hlong, ha3]⟩

/-- Merging the two least weights into one word `m`, a bit shorter than they are, saves one bit of each. -/
theorem exists_merged_lengths {a b m : ι} (hq : (a :: b :: q).Nodup) (hm : m ∉ q)
    (hleast : ∀ k ∈ a :: b :: q, w a ≤ w k) (hsecond : ∀ k ∈ a :: b :: q, k ≠ a → w b ≤ w k)
    (hkraft : Kraft (a :: b :: q) len) :
    ∃ len', Kraft (m :: q) len' ∧
      (w a + w b) * (len' m + 1) + weightedSum q w len' ≤ weightedSum (a :: b :: q) w len := by
  have hab : a ≠ b := fun hab => (List.nodup_cons.mp hq).1 (hab ▸ List.mem_cons_self)
  obtain ⟨len1, hkraft1, hcost, hpos, hshare⟩ := exists_least_share_length hq List.mem_cons_self
    (List.mem_cons_of_mem a List.mem_cons_self) hab hleast hsecond hkraft
  obtain ⟨n, hn⟩ := Nat.exists_eq_add_one_of_ne_zero hpos.ne'
  have hkeep : ∀ k ∈ q, Function.update len1 m n k = len1 k :=
    fun k hk => Function.update_of_ne (ne_of_mem_of_not_mem hk hm) _ _
  refine ⟨Function.update len1 m n, ?_, ?_⟩
  · rw [kraft_cons, List.map_cons, List.sum_cons, hshare, hn, pow_succ] at hkraft1
    rw [kraft_cons, Function.update_self, List.map_congr_left fun k hk => by rw [hkeep k hk]]
    linarith
  · rw [Function.update_self, weightedSum_congr (fun _ _ => rfl) hkeep]
    refine le_trans (le_of_eq ?_) hcost
    rw [weightedSum_cons, weightedSum_cons, hshare, hn]
    ring

end

end Sys2Proof.Machine
end

section
/-! Proofs about the tree `BUILD` makes: the queue of the merge loop stands for a forest, whose trees `innerNode` joins;
joining the two lightest keeps a bound on what any code must cost. -/

namespace Sys2Proof.Machine

/-! ### Weight and cost of a tree -/

namespace CodeTree

/-- The sum of the leaves' weights. -/
def weight (w : Byte → Nat) (t : CodeTree) : Nat := (t.leaves.map w).sum

/-- The sum of the weights of the internal nodes, each of which adds a bit to the codes below it: `sum_paths`. -/
def cost (w : Byte → Nat) : CodeTree → Nat
  | leaf _ => 0
  | node l r => l.cost w + r.cost w + (node l r).weight w

theorem weight_node (w : Byte → Nat) (l r : CodeTree) : (node l r).weight w = l.weight w + r.weight w := by
  rw [weight, leaves, List.map_append, List.sum_append, weight, weight]

theorem sum_paths (w : Byte → Nat) (p : List Bool) (t : CodeTree) :
    ((t.paths p).map fun e => w e.1 * e.2.length).sum = t.weight w * p.length + t.cost w := by
  induction t generalizing p with
  | leaf x => rfl
  | node l r ihl ihr =>
    rw [paths, List.map_append, List.sum_append, ihl, ihr, cost, weight_node]
    simp only [List.length_append, List.length_singleton]
    ring

end CodeTree

/-! ### The records written -/

theorem buildLeaves_nodeAt_of_lt (l : List Byte) {n k : Nat} (s : State) (hk : k < n) :
    (buildLeaves l n s).2.nodeAt k = s.nodeAt k := by
  induction l generalizing n s with
  | nil => rfl
  | cons x l ih =>
    by_cases hx : s.freqAt x = 0#24
    · rw [buildLeaves_cons_of_absent hx, ih s hk]
    · rw [buildLeaves_cons_of_present hx, ih _ (Nat.lt_succ_of_lt hk), nodeAt_putNode_other s _ (by omega)]

/-- 41_tree_builder.md R95: one leaf for each symbol present, in the order of the list. -/
theorem buildLeaves_nodeAt (l : List Byte) (n : Nat) (s : State) {i : Nat}
    (hi : i < (l.filter (fun x => s.freqAt x != 0#24)).length) :
    (buildLeaves l n s).2.nodeAt (n + i) =
      leafNode (l.filter (fun x => s.freqAt x != 0#24))[i] (s.freqAt (l.filter (fun x => s.freqAt x != 0#24))[i]) := by
  induction l generalizing n s i with
  | nil => exact absurd hi (Nat.not_lt_zero i)
  | cons x l ih =>
    by_cases hx : s.freqAt x = 0#24
    · have hfilter : (x :: l).filter (fun x => s.freqAt x != 0#24) = l.filter (fun x => s.freqAt x != 0#24) :=
        List.filter_cons_of_neg (by simp [hx])
      simp only [hfilter] at hi ⊢
      rw [buildLeaves_cons_of_absent hx]
      exact ih n s hi
    · have hfilter : (x :: l).filter (fun x => s.freqAt x != 0#24) = x :: l.filter (fun x => s.freqAt x != 0#24) :=
        List.filter_cons_of_pos (by simp [hx])
      simp only [hfilter] at hi ⊢
      rw [buildLeaves_cons_of_present hx]
      cases i with
      | zero =>
        exact (buildLeaves_nodeAt_of_lt l _ (Nat.lt_add_one n)).trans (nodeAt_putNode_same s n _)
      | succ i =>
        rw [show n + (i + 1) = n + 1 + i by omega]
        exact ih (n + 1) (s.putNode n (leafNode x (s.freqAt x))) (Nat.lt_of_succ_lt_succ hi)

/-- The record over two handles holds the tree over their trees. -/
theorem holdsTree_innerNode {s : State} {a b m : Nat} {l r : CodeTree} (ha : a < m) (hb : b < m) (hm : m < 511)
    (hl : HoldsTree s a l) (hr : HoldsTree s b r) : HoldsTree (s.putNode m (innerNode s a b)) m (.node l r) := by
  have hold : ∀ {k t}, k < m → HoldsTree s k t → HoldsTree (s.putNode m (innerNode s a b)) k t := fun hk h =>
    holdsTree_congr h fun j hj => nodeAt_putNode_other s _ (by omega)
  have hnode := nodeAt_putNode_same s m (innerNode s a b)
  have hleft : ((s.putNode m (innerNode s a b)).nodeAt m).left.toNat = a := by
    rw [hnode, innerNode, BitVec.toNat_ofNat]
    omega
  have hright : ((s.putNode m (innerNode s a b)).nodeAt m).right.toNat = b := by
    rw [hnode, innerNode, BitVec.toNat_ofNat]
    omega
  refine .node hm (by rw [hnode]; rfl) (by rwa [hleft]) (by rwa [hright]) ?_ ?_
  · rw [hleft]
    exact hold ha hl
  · rw [hright]
    exact hold hb hr

/-! ### The forest of the queue -/

/-- The handles of the queue `q` hold the trees `tree`, which partition the symbols `xs` of weights `w`; with fitting
lengths for its trees the forest costs no more than any lengths for the symbols that meet Kraft's inequality. -/
structure Forest (w : Byte → Nat) (xs : List Byte) (tree : Nat → CodeTree) (q : List Nat) (s : State) : Prop where
  holds : ∀ k ∈ q, HoldsTree s k (tree k)
  freq : ∀ k ∈ q, (s.nodeAt k).freq.toNat = (tree k).weight w
  leaves : (q.flatMap fun k => (tree k).leaves).Perm xs
  bound : ∀ len, Kraft xs len → ∃ len', Kraft q len' ∧
    (q.map fun k => (tree k).cost w).sum + weightedSum q (fun k => (tree k).weight w) len' ≤ weightedSum xs w len

theorem forest_perm {w : Byte → Nat} {xs : List Byte} {tree : Nat → CodeTree} {q q' : List Nat} {s : State}
    (hq : q.Perm q') (h : Forest w xs tree q s) : Forest w xs tree q' s where
  holds k hk := h.holds k (hq.mem_iff.mpr hk)
  freq k hk := h.freq k (hq.mem_iff.mpr hk)
  leaves := (hq.symm.flatMap_right _).trans h.leaves
  bound len hlen := by
    obtain ⟨len', hkraft, hle⟩ := h.bound len hlen
    refine ⟨len', (kraft_perm hq).mp hkraft, ?_⟩
    rwa [← (hq.map _).sum_eq, ← weightedSum_perm hq]

/-- The frequencies fit the 32 bits of a record: 00_scope.md R7. -/
theorem sum_present_lt (s : State) : (s.present.map fun x => (s.freqAt x).toNat).sum < 2 ^ 32 := by
  have hle := List.sum_le_card_nsmul (s.present.map fun x => (s.freqAt x).toNat) (2 ^ 24 - 1) (by
    intro n hn
    obtain ⟨x, -, rfl⟩ := List.mem_map.mp hn
    exact Nat.le_sub_one_of_lt (s.freqAt x).isLt)
  have hlen := present_length_le s
  rw [List.length_map, smul_eq_mul] at hle
  omega

/-- The trees of the handles once `a` and `b` are joined under `m`. -/
def joinTrees (tree : Nat → CodeTree) (a b m : Nat) : Nat → CodeTree :=
  Function.update tree m (.node (tree a) (tree b))

@[simp] theorem joinTrees_same (tree : Nat → CodeTree) (a b m : Nat) :
    joinTrees tree a b m m = .node (tree a) (tree b) := Function.update_self ..

theorem joinTrees_other (tree : Nat → CodeTree) (a b : Nat) {m k : Nat} (h : k ≠ m) :
    joinTrees tree a b m k = tree k := Function.update_of_ne h ..

section
variable {w : Byte → Nat} {xs : List Byte} {tree : Nat → CodeTree} {a b m : Nat} {q : List Nat} {s : State}

/-- The merged lengths pay for the node that joins the two lightest trees. -/
theorem forest_join_bound (h : Forest w xs tree (a :: b :: q) s) (hq : (a :: b :: q).Nodup) (hm : ∀ k ∈ q, k ≠ m)
    (hleast : ∀ k ∈ a :: b :: q, (tree a).weight w ≤ (tree k).weight w)
    (hsecond : ∀ k ∈ a :: b :: q, k ≠ a → (tree b).weight w ≤ (tree k).weight w) {len : Byte → ℕ}
    (hlen : Kraft xs len) :
    ∃ len', Kraft (m :: q) len' ∧ ((m :: q).map fun k => (joinTrees tree a b m k).cost w).sum +
      weightedSum (m :: q) (fun k => (joinTrees tree a b m k).weight w) len' ≤ weightedSum xs w len := by
  obtain ⟨len1, hkraft1, hle1⟩ := h.bound len hlen
  obtain ⟨len2, hkraft2, hle2⟩ := exists_merged_lengths (w := fun k => (tree k).weight w) hq
    (fun hmq => hm m hmq rfl) hleast hsecond hkraft1
  have hcost : (q.map fun k => (joinTrees tree a b m k).cost w) = q.map fun k => (tree k).cost w :=
    List.map_congr_left fun k hk => by rw [joinTrees_other tree a b (hm k hk)]
  have hweight : weightedSum q (fun k => (joinTrees tree a b m k).weight w) len2 =
      weightedSum q (fun k => (tree k).weight w) len2 :=
    weightedSum_congr (fun k hk => congrArg (CodeTree.weight w) (joinTrees_other tree a b (hm k hk))) fun _ _ => rfl
  refine ⟨len2, hkraft2, le_trans (le_of_eq ?_) (le_trans (Nat.add_le_add_left hle2 _) hle1)⟩
  rw [weightedSum_cons, hweight, List.map_cons, hcost, joinTrees_same, CodeTree.cost, CodeTree.weight_node]
  simp only [List.map_cons, List.sum_cons]
  ring

/-- Joining the two lightest trees under the next handle `m`. -/
theorem forest_join (h : Forest w xs tree (a :: b :: q) s) (hq : (a :: b :: q).Nodup) (hlt : ∀ k ∈ a :: b :: q, k < m)
    (hm : m < 511) (hsum : (xs.map w).sum < 2 ^ 32)
    (hleast : ∀ k ∈ a :: b :: q, (tree a).weight w ≤ (tree k).weight w)
    (hsecond : ∀ k ∈ a :: b :: q, k ≠ a → (tree b).weight w ≤ (tree k).weight w) :
    Forest w xs (joinTrees tree a b m) (m :: q) (s.putNode m (innerNode s a b)) := by
  have ha := List.mem_cons_self (a := a) (l := b :: q)
  have hb := List.mem_cons_of_mem a (List.mem_cons_self (a := b) (l := q))
  have hmem : ∀ k ∈ q, k ∈ a :: b :: q := fun k hk => List.mem_cons_of_mem a (List.mem_cons_of_mem b hk)
  have hne : ∀ k ∈ q, k ≠ m := fun k hk => (hlt k (hmem k hk)).ne
  refine ⟨fun k hk => ?_, fun k hk => ?_, ?_, fun len hlen => forest_join_bound h hq hne hleast hsecond hlen⟩
  · rcases List.mem_cons.mp hk with rfl | hk
    · rw [joinTrees_same]
      exact holdsTree_innerNode (hlt a ha) (hlt b hb) hm (h.holds a ha) (h.holds b hb)
    · have hkm := hlt k (hmem k hk)
      rw [joinTrees_other tree a b (hne k hk)]
      exact holdsTree_congr (h.holds k (hmem k hk)) fun j hj => nodeAt_putNode_other s _ (by omega)
  · rcases List.mem_cons.mp hk with rfl | hk
    · have hfits : (tree a).weight w + (tree b).weight w ≤ (xs.map w).sum := by
        rw [← (h.leaves.map w).sum_eq, List.flatMap_cons, List.flatMap_cons, List.map_append, List.map_append,
          List.sum_append, List.sum_append, CodeTree.weight, CodeTree.weight]
        omega
      rw [joinTrees_same, nodeAt_putNode_same, innerNode, BitVec.toNat_add, h.freq a ha, h.freq b hb,
        CodeTree.weight_node, Nat.mod_eq_of_lt (by omega)]
    · rw [joinTrees_other tree a b (hne k hk), nodeAt_putNode_other s _ (hne k hk).symm]
      exact h.freq k (hmem k hk)
  · refine List.Perm.trans (List.Perm.of_eq ?_) h.leaves
    rw [List.flatMap_cons, List.flatMap_cons, List.flatMap_cons, joinTrees_same,
      List.flatMap_congr fun k hk => by rw [joinTrees_other tree a b (hne k hk)], CodeTree.leaves, List.append_assoc]

end

/-- Before the first merge every tree is a leaf. -/
theorem forest_leaves (s : State) :
    Forest (fun x => (s.freqAt x).toNat) s.present (fun k => .leaf (s.present.getD k 0#8)) (List.range s.present.length)
      (buildLeaves symbols 0 s).2 := by
  have hnode : ∀ k ∈ List.range s.present.length, (buildLeaves symbols 0 s).2.nodeAt k =
      leafNode (s.present.getD k 0#8) (s.freqAt (s.present.getD k 0#8)) := by
    intro k hk
    have hlt := List.mem_range.mp hk
    rw [List.getD_eq_getElem _ _ hlt]
    have hleaf := buildLeaves_nodeAt symbols 0 s hlt
    rwa [Nat.zero_add] at hleaf
  have hlist : (List.range s.present.length).map (fun k => s.present.getD k 0#8) = s.present :=
    List.ext_getElem (by simp) fun k _ hk => by simp [hk]
  refine ⟨fun k hk => ?_, fun k hk => ?_, ?_, fun len hlen => ⟨fun k => len (s.present.getD k 0#8), ?_, ?_⟩⟩
  · have hlt := List.mem_range.mp hk
    have hle := present_length_le s
    have hleaf := HoldsTree.leaf (s := (buildLeaves symbols 0 s).2) (k := k) (by omega) (by rw [hnode k hk]; rfl)
    rwa [hnode k hk] at hleaf
  · rw [hnode k hk, CodeTree.weight, CodeTree.leaves, List.map_singleton, List.sum_singleton]
    exact (BitVec.toNat_setWidth ..).trans (Nat.mod_eq_of_lt (by omega))
  · refine List.Perm.of_eq (Eq.trans ?_ hlist)
    exact List.flatMap_pure_eq_map _ _
  · rw [← hlist, Kraft, List.map_map] at hlen
    exact hlen
  · conv_rhs => rw [weightedSum, ← hlist, List.map_map]
    simp [weightedSum, CodeTree.cost, CodeTree.weight, CodeTree.leaves, Function.comp_def]

theorem forest_step {n : Nat} (hn : n ≤ 256) {w : Byte → Nat} {xs : List Byte} (hsum : (xs.map w).sum < 2 ^ 32)
    {q q1 q2 : List Nat} {m a b : Nat} {s : State} (hmerging : Merging n q m s)
    (h : ∃ tree, Forest w xs tree q s) (ha : popMin s q = some (a, q1)) (hb : popMin s q1 = some (b, q2)) :
    ∃ tree, Forest w xs tree (q2 ++ [m]) (s.putNode m (innerNode s a b)) := by
  obtain ⟨tree, h⟩ := h
  have hlen1 := length_of_popMin ha
  have hlen2 := length_of_popMin hb
  obtain ⟨haq, rfl, hleast⟩ := popMin_eq_some ha
  obtain ⟨hbq, rfl, hsecond⟩ := popMin_eq_some hb
  have hsize := hmerging.size
  have hperm : q.Perm (a :: b :: (q.erase a).erase b) :=
    (List.perm_cons_erase haq).trans ((List.perm_cons_erase hbq).cons a)
  have hmem : ∀ k ∈ a :: b :: (q.erase a).erase b, k ∈ q := fun k hk => hperm.mem_iff.mpr hk
  have hbmem := List.mem_of_mem_erase hbq
  have hfreq : ∀ {j k : Nat}, j ∈ q → k ∈ q → ¬ popsBefore s k j → (tree j).weight w ≤ (tree k).weight w := by
    intro j k hj hk hnot
    rw [not_popsBefore_iff, h.freq j hj, h.freq k hk] at hnot
    omega
  refine ⟨_, forest_perm (List.perm_append_singleton m _).symm (forest_join (forest_perm hperm h)
    (hperm.nodup hmerging.nodup) (fun k hk => hmerging.lt k (hmem k hk)) (by omega) hsum
    (fun k hk => hfreq haq (hmem k hk) (hleast k (hmem k hk)))
    (fun k hk hka => hfreq hbmem (hmem k hk) (hsecond k ((List.mem_erase_of_ne hka).mpr (hmem k hk)))))⟩

/-! ### The tree `BUILD` leaves -/

/-- What `BUILD` leaves in `t` when symbols are present in `s`: a tree over them, the least costly there is. -/
structure BuiltTree (s t : State) (tree : CodeTree) : Prop where
  holds : HoldsTree t t.root.toNat tree
  leaves : tree.leaves.Perm s.present
  optimal : ∀ len, Kraft s.present len →
    tree.cost (fun x => (s.freqAt x).toNat) ≤ weightedSum s.present (fun x => (s.freqAt x).toNat) len
  nNodes : t.nNodes.toNat = 2 * s.present.length - 1
  root_lt : t.root.toNat < 2 * s.present.length - 1

theorem exec_build_frame {s t : State} (h : s.errCode = none) (hexec : exec .build s = .next t) :
    t = { s with node := t.node, nNodes := t.nNodes, root := t.root, busy := false } := by
  obtain ⟨u, hstage, hframe⟩ := buildStage_frame s
  obtain rfl := Host.Outcome.next.inj (hexec.symm.trans (runCommand_of_done h hstage))
  rw [hframe]
  rfl

/-- The merge loop ends with one tree, under the last handle used: 41_tree_builder.md R100. -/
theorem mergeLoop_leaves {s s1 : State} {n : Nat} (hpresent : s.present ≠ [])
    (hleaves : buildLeaves symbols 0 s = (n, s1)) :
    ∃ k s2 tree, mergeLoop n (List.range n) n s1 = ([k], 2 * s.present.length - 1, s2) ∧
      k < 2 * s.present.length - 1 ∧ Forest (fun x => (s.freqAt x).toNat) s.present tree [k] s2 := by
  obtain rfl : n = s.present.length := by rw [← buildLeaves_symbols_count, hleaves]
  have hforest := forest_leaves s
  rw [hleaves] at hforest
  obtain ⟨q, m, s2, hmerge, hend, ⟨-, hlt, hsize, -⟩, tree, hforest⟩ := mergeLoop_induction
    (P := fun q m s' => Merging s.present.length q m s' ∧ ∃ tree, Forest _ s.present tree q s')
    (fun hP ha hb => ⟨merging_step (present_length_le s) hP.1 ha hb,
      forest_step (present_length_le s) (sum_present_lt s) hP.1 hP.2 ha hb⟩)
    List.length_range.le ⟨merging_leaves _ s1, _, hforest⟩
  cases q with
  | nil => exact absurd hforest.leaves.nil_eq.symm hpresent
  | cons k q =>
    rw [List.length_cons] at hend hsize
    obtain rfl : q = [] := List.eq_nil_of_length_eq_zero (by omega)
    obtain rfl : m = 2 * s.present.length - 1 := by omega
    exact ⟨k, s2, tree, hmerge, hlt k List.mem_cons_self, hforest⟩

theorem exec_build_of_present {s : State} (h : s.errCode = none) (hpresent : s.present ≠ []) :
    ∃ t tree, exec .build s = .next t ∧ BuiltTree s t tree := by
  obtain ⟨n, s1, hleaves⟩ : ∃ n s1, buildLeaves symbols 0 s = (n, s1) := ⟨_, _, rfl⟩
  obtain ⟨k, s2, tree, hmerge, hk, hforest⟩ := mergeLoop_leaves hpresent hleaves
  have hle := present_length_le s
  have hroot : (setTree [k] (2 * s.present.length - 1) s2).complete.root.toNat = k :=
    (BitVec.toNat_ofNat k 9).trans (Nat.mod_eq_of_lt (by omega))
  refine ⟨_, tree k, exec_build_of_quiet h hleaves hmerge, ?_, ?_, fun len hlen => ?_, ?_, ?_⟩
  · rw [hroot]
    exact holdsTree_congr (hforest.holds k List.mem_cons_self) fun _ _ => rfl
  · have hperm := hforest.leaves
    rwa [List.flatMap_singleton] at hperm
  · obtain ⟨len', -, hbound⟩ := hforest.bound len hlen
    rw [List.map_singleton, List.sum_singleton] at hbound
    exact (Nat.le_add_right _ _).trans hbound
  · exact (BitVec.toNat_ofNat _ 32).trans (Nat.mod_eq_of_lt (by omega))
  · rwa [hroot]

/-- Every path of a tree over the symbols present fits a code: 42_code_assigner.md R110. -/
theorem height_le_of_builtTree {s t : State} {tree : CodeTree} (h : BuiltTree s t tree) : tree.height ≤ 255 := by
  have hheight := tree.height_lt_leaves_length
  have hle := present_length_le s
  rw [h.leaves.length_eq] at hheight
  omega

end Sys2Proof.Machine
end

section
/-! Proofs about the code table after `ASSIGN` and `COMPRESS`: 46_laws.md R151. -/

namespace Sys2Proof.Machine

/-! ### What the stages after `ASSIGN` leave of the codes -/

theorem finish_of_ends {g : Stage} {t : State} (h : g.Ends t) : g.finish = .next t.complete := by
  rcases h with rfl | rfl
  · exact finish_done t
  · exact finish_raised t

/-- A command whose stage ends with the codes as they were keeps them, refused or not. -/
theorem runCommand_keeps_code {body : State → Stage} {s u : State} (hends : (body s).Ends u)
    (hcode : ∀ x, u.code x = s.code x) : ∃ t, runCommand body s = .next t ∧ ∀ x, t.code x = s.code x := by
  by_cases h : s.errCode = none
  · exact ⟨u.complete, (runCommand_of_quiet body h).trans (finish_of_ends hends), hcode⟩
  · exact ⟨s.complete, runCommand_of_fault body h, complete_code s⟩

theorem exec_encode_keeps_code (s : State) : ∃ t, exec .encode s = .next t ∧ ∀ x, t.code x = s.code x := by
  obtain ⟨u, hends⟩ := encodeLoop_ends (List.range s.inLen.toNat) 0 s
  refine runCommand_keeps_code (body := encodeStage) hends fun x => ?_
  rw [encodeLoop_frame hends]
  rfl

theorem exec_pack_keeps_code (s : State) : ∃ t, exec .pack s = .next t ∧ ∀ x, t.code x = s.code x :=
  runCommand_keeps_code (body := packStage) (.inl (packStage_eq s)) fun _ => rfl

/-! ### The tree that `ASSIGN` meets after `BUILD` -/

theorem freqAt_of_present_eq_nil {s : State} (h : s.present = []) (x : Byte) : s.freqAt x = 0#24 := by
  simpa using List.filter_eq_nil_iff.mp h x (mem_symbols x)

/-- Whatever the counts are, `BUILD` leaves no tree or one whose paths fit a code. -/
theorem exec_build_root {s : State} (h : s.errCode = none) :
    ∃ t, exec .build s = .next t ∧ t.errCode = none ∧
      (t.root = nilHandle ∨ ∃ tree, HoldsTree t t.root.toNat tree ∧ tree.height ≤ 255) := by
  by_cases hpresent : s.present = []
  · exact ⟨_, buildOfEmptyTable s h (freqAt_of_present_eq_nil hpresent), h, .inl rfl⟩
  · obtain ⟨t, tree, hexec, htree⟩ := exec_build_of_present h hpresent
    refine ⟨t, hexec, ?_, .inr ⟨tree, htree.holds, height_le_of_builtTree htree⟩⟩
    rw [exec_build_frame h hexec]
    exact h

theorem execAll_cons_of_next {i : Instr} {s t : State} (h : exec i s = .next t) (cmds : List Instr) :
    execAll (i :: cmds) s = execAll cmds t := by
  rw [execAll, h]

theorem exec_compress_eq_execAll {s : State} (h : s.errCode = none) (hlen : s.inLen ≠ 0#32) :
    exec .compress s = execAll [.analyze, .build, .assign, .encode, .pack] (s.setEmpty false) :=
  (compressFollowsStages s h).2 hlen

theorem exec_compress_prefixFree {s : State} (h : s.errCode = none) :
    ∃ t, exec .compress s = .next t ∧ PrefixFree t := by
  by_cases hlen : s.inLen = 0#32
  · exact ⟨_, exec_compress_of_no_input h hlen,
      prefixFree_of_code_eq (s := s.clearCodes) (fun _ => rfl) (prefixFree_clearCodes s)⟩
  · obtain ⟨s1, hanalyze, hquiet1⟩ : ∃ s1, exec .analyze (s.setEmpty false) = .next s1 ∧ s1.errCode = none :=
      ⟨_, exec_analyze_of_quiet (s := s.setEmpty false) h, h⟩
    obtain ⟨s2, hbuild, hquiet2, hroot⟩ := exec_build_root hquiet1
    obtain ⟨s3, hassign, hfree⟩ := exec_assign_prefixFree hquiet2 hroot
    obtain ⟨s4, hencode, hcode4⟩ := exec_encode_keeps_code s3
    obtain ⟨s5, hpack, hcode5⟩ := exec_pack_keeps_code s4
    refine ⟨s5, ?_, prefixFree_of_code_eq (fun x => (hcode5 x).trans (hcode4 x)) hfree⟩
    rw [exec_compress_eq_execAll h hlen, execAll_cons_of_next hanalyze, execAll_cons_of_next hbuild,
      execAll_cons_of_next hassign, execAll_cons_of_next hencode, execAll_cons_of_next hpack, execAll]

/-- Settles O26: each code is the path to a leaf of one tree, `TreeOK` or `BUILD` giving the tree and its height, and
what follows `ASSIGN` in `COMPRESS` keeps the codes. -/
theorem assignedCodesPrefixFree : Obligations.AssignedCodesPrefixFree := by
  rintro s i ⟨-, hquiet⟩ htree (rfl | rfl)
  · exact exec_assign_prefixFree hquiet (root_of_treeOK htree)
  · exact exec_compress_prefixFree hquiet

end Sys2Proof.Machine
end

section
/-! Proofs about the weighted length of the codes after `BUILD` and `ASSIGN`: 46_laws.md R152. -/

namespace Sys2Proof

/-- 30_encoding.md R72. -/
theorem decode_encode (i : Instr) : decode (encode i) = .ok i := by
  cases i <;> rfl

end Sys2Proof

namespace Sys2Proof.Machine

/-! ### Commands from the host: 46_laws.md, introduction -/

theorem issue_eq_exec (i : Instr) (s : State) : issue i s = exec i (acceptCommand s (encode i)) :=
  coreStep_of_legal (decode_encode i)

theorem issueAll_cons_of_next {i : Instr} {s t : State} (h : exec i (acceptCommand s (encode i)) = .next t)
    (cmds : List Instr) : issueAll (i :: cmds) s = issueAll cmds t := by
  rw [issueAll, issue_eq_exec, h]

/-! ### The codes as entries of the tree -/

theorem present_nodup (s : State) : s.present.Nodup := symbols_nodup.filter _

/-- With one entry for each symbol, every entry is its symbol's code. -/
theorem code_setCodes_of_nodup {l : List (Byte × List Bool)} (hlen : ∀ e ∈ l, e.2.length ≤ 255)
    (hnodup : (l.map Prod.fst).Nodup) (s : State) {e : Byte × List Bool} (he : e ∈ l) :
    (s.setCodes l).code e.1 = e.2 := by
  rcases code_setCodes hlen s e.1 with hmem | ⟨hnot, -⟩
  · exact congrArg Prod.snd (List.inj_on_of_nodup_map hnodup hmem he rfl)
  · exact absurd (List.mem_map_of_mem he) hnot

/-- `BUILD` then `ASSIGN` give every symbol present the path to its leaf in the tree `BUILD` made. -/
theorem issueAll_build_assign {s : State} (h : s.errCode = none) (hpresent : s.present ≠ []) :
    ∃ t u tree, issueAll [.build, .assign] s = .next t ∧ t.errCode = none ∧ BuiltTree s u tree ∧
      ∀ e ∈ tree.codes, t.code e.1 = e.2 := by
  obtain ⟨u, tree, hbuild, htree⟩ := exec_build_of_present (s := acceptCommand s (encode .build)) h hpresent
  have hquiet : u.errCode = none := by
    rw [exec_build_frame (s := acceptCommand s (encode .build)) h hbuild]
    exact h
  have hheight := height_le_of_builtTree htree
  have hassign := exec_assign_of_done (s := acceptCommand u (encode .assign)) hquiet
    (assignStage_of_holdsTree (holdsTree_congr htree.holds fun _ _ => rfl) hheight)
  refine ⟨((acceptCommand u (encode .assign)).clearCodes.setCodes tree.codes).complete, u, tree, ?_, ?_,
    ⟨htree.holds, htree.leaves, htree.optimal, htree.nNodes, htree.root_lt⟩, fun e he => ?_⟩
  · rw [issueAll_cons_of_next hbuild, issueAll_cons_of_next hassign, issueAll]
  · rw [complete_errCode, setCodes_frame]
    exact hquiet
  · have hnodup : (tree.codes.map Prod.fst).Nodup := by
      rw [tree.map_fst_codes, htree.leaves.nodup_iff]
      exact present_nodup s
    exact code_setCodes_of_nodup (fun e he => CodeTree.length_le_of_mem_codes hheight he) hnodup _ he

/-! ### Its weighted length -/

/-- A symbol that is not present adds nothing. -/
theorem weightedLength_eq (s : State) (len : Byte → Nat) :
    s.weightedLength len = weightedSum s.present (fun x => (s.freqAt x).toNat) len := by
  rw [State.weightedLength, State.present]
  induction symbols with
  | nil => rfl
  | cons x l ih =>
    rw [List.map_cons, List.sum_cons, ih]
    by_cases hx : s.freqAt x = 0#24
    · rw [List.filter_cons_of_neg (by simp [hx]), hx, BitVec.toNat_zero, Nat.zero_mul, Nat.zero_add]
    · rw [List.filter_cons_of_pos (by simp [hx]), weightedSum_cons]

/-- The sum over the symbols present is the sum over the entries of the tree. -/
theorem weightedLength_eq_sum_codes {s t u : State} {tree : CodeTree} (htree : BuiltTree s u tree)
    (hcode : ∀ e ∈ tree.codes, t.code e.1 = e.2) :
    s.weightedLength (fun x => (t.codeLenAt x).toNat) =
      (tree.codes.map fun e => (s.freqAt e.1).toNat * e.2.length).sum := by
  rw [weightedLength_eq, ← weightedSum_perm htree.leaves, ← tree.map_fst_codes, weightedSum, List.map_map]
  refine congrArg List.sum (List.map_congr_left fun e he => ?_)
  rw [Function.comp_apply, ← code_length, hcode e he]

/-- R152: a tree of two leaves or more costs what its codes do, and a lone leaf's code has the least length there is. -/
theorem sum_codes_le {s t : State} {tree : CodeTree} (htree : BuiltTree s t tree) {len : Byte → Nat}
    (hpos : ∀ x ∈ s.present, 0 < len x) (hkraft : Kraft s.present len) :
    (tree.codes.map fun e => (s.freqAt e.1).toNat * e.2.length).sum ≤
      weightedSum s.present (fun x => (s.freqAt x).toNat) len := by
  cases tree with
  | leaf x =>
    have hx : x ∈ s.present := htree.leaves.mem_iff.mp List.mem_cons_self
    rw [← weightedSum_perm htree.leaves]
    exact List.sum_le_sum (l := [x]) (f := fun x => (s.freqAt x).toNat * 1) fun y hy =>
      Nat.mul_le_mul_left _ (List.mem_singleton.mp hy ▸ hpos x hx)
  | node l r =>
    have hsum := (CodeTree.node l r).sum_paths (fun x => (s.freqAt x).toNat) []
    rw [List.length_nil, Nat.mul_zero, Nat.zero_add] at hsum
    exact hsum.le.trans (htree.optimal len hkraft)

/-- A tree over one symbol is its leaf. -/
theorem eq_leaf_of_builtTree {s t : State} {tree : CodeTree} {x : Byte} (htree : BuiltTree s t tree)
    (hpresent : s.present = [x]) : tree = .leaf x := by
  have hleaves := htree.leaves
  rw [hpresent, List.perm_singleton] at hleaves
  cases tree with
  | leaf y => rw [List.singleton_inj.mp hleaves]
  | node l r =>
    have hlen := congrArg List.length hleaves
    have hl := l.leaves_length_pos
    have hr := r.leaves_length_pos
    rw [CodeTree.leaves, List.length_append, List.length_singleton] at hlen
    omega

/-- The weighted length after the two commands, or 0 if they do not end in a next state. -/
def weightedLengthAfter (o : Host.Outcome State Fault Refusal) : Nat :=
  match o with
  | .next t => t.weightedLength (fun x => (t.codeLenAt x).toNat)
  | .fault _ => 0
  | .refused _ => 0

theorem next_of_weightedLengthAfter {o : Host.Outcome State Fault Refusal} {n : Nat} (h : weightedLengthAfter o = n)
    (hn : n ≠ 0) : ∃ t, o = .next t ∧ t.weightedLength (fun x => (t.codeLenAt x).toNat) = n := by
  cases o with
  | next t => exact ⟨t, rfl, h⟩
  | fault r => exact absurd h.symm hn
  | refused r => exact absurd h.symm hn

theorem weightedLengthAfter_reference :
    weightedLengthAfter (issueAll [.build, .assign] { State.reset with freq := referenceCounts }) = 224 := by
  decide +kernel

/-- Settles O29: merging the two least weights keeps the forest's cost within that of any lengths that meet Kraft's
inequality, as those of the codes compared do; one symbol has the code "0"; the reference value is evaluated. -/
theorem huffmanCodeIsOptimal : Obligations.HuffmanCodeIsOptimal := by
  refine ⟨fun s ⟨_, hquiet⟩ hpresent => ?_, fun s x ⟨_, hquiet⟩ hpresent => ?_, ?_⟩
  · obtain ⟨t, u, tree, hissue, ht, htree, hcode⟩ := issueAll_build_assign hquiet hpresent
    refine ⟨t, hissue, ht, fun c hne hfree => ?_⟩
    rw [weightedLength_eq_sum_codes htree hcode, weightedLength_eq]
    exact sum_codes_le htree (fun x hx => List.length_pos_iff.mpr (hne x hx))
      (kraft_of_prefixFree (present_nodup s) hne hfree)
  · obtain ⟨t, u, tree, hissue, -, htree, hcode⟩ := issueAll_build_assign hquiet (hpresent ▸ List.cons_ne_nil x [])
    refine ⟨t, hissue, ?_⟩
    rw [weightedLength_eq_sum_codes htree hcode, eq_leaf_of_builtTree htree hpresent]
    exact Nat.mul_one _
  · exact next_of_weightedLengthAfter weightedLengthAfter_reference (by decide)

end Sys2Proof.Machine
end

section
/-! Proofs about an input of one distinct symbol, through `COMPRESS` and back through `EXPAND`: 46_laws.md R154. What
`ENCODE` writes, and that `UNPACK` gets it back from the artifact, is stated for any input. -/

namespace Sys2Proof.Machine

/-! ### `ENCODE` with a code for every input symbol: 43_bit_packer.md R113 -/

theorem putEnc_append (s : State) (p : Nat) (bits bits' : List Bool) :
    (s.putEnc p bits).putEnc (p + bits.length) bits' = s.putEnc p (bits ++ bits') := by
  simp only [State.putEnc, putList_append]

theorem encodeLoop_of_codes {l : List Nat} {e : Nat} {s : State} (hcode : ∀ i ∈ l, s.hasCode (s.inAt i))
    (hfits : e + (l.flatMap fun i => s.code (s.inAt i)).length ≤ s.cfg.encCapacity) :
    encodeLoop l e s = .done ((s.putEnc e (l.flatMap fun i => s.code (s.inAt i))).setEncLen
      (e + (l.flatMap fun i => s.code (s.inAt i)).length)) := by
  induction l generalizing e s with
  | nil => rfl
  | cons i l ih =>
    have hlen := code_length s (s.inAt i)
    have hne : (s.codeLenAt (s.inAt i)).toNat ≠ 0 := by
      rw [← hlen, ne_eq, List.length_eq_zero_iff, ← ne_eq, ← hasCode_iff]
      exact hcode i List.mem_cons_self
    rw [List.flatMap_cons, List.length_append] at hfits ⊢
    rw [encodeLoop_cons_of_fits l hne (by omega), ← hlen, ← Nat.add_assoc, ← putEnc_append]
    exact ih (s := s.putEnc e (s.code (s.inAt i))) (fun j hj => hcode j (List.mem_cons_of_mem i hj))
      (by rw [Nat.add_assoc]; exact hfits)

/-- `ENC`, `ENC_LEN` and `BUSY` written; `exec_encode_of_codes` says that this is where the command ends. -/
def State.afterEncode (s : State) : State :=
  { s.putEnc 0 (s.input.flatMap s.code) with
    encLen := BitVec.ofNat 32 (s.input.flatMap s.code).length, busy := false }

theorem exec_encode_of_codes {s : State} (h : s.errCode = none) (hcode : ∀ x ∈ s.input, s.hasCode x)
    (hfits : (s.input.flatMap s.code).length ≤ s.cfg.encCapacity) : exec .encode s = .next s.afterEncode := by
  have hinput : s.input.flatMap s.code = (List.range s.inLen.toNat).flatMap fun i => s.code (s.inAt i) := by
    rw [State.input, List.flatMap_map]
  have hloop := encodeLoop_of_codes (l := List.range s.inLen.toNat) (e := 0)
    (fun i hi => hcode _ (List.mem_map_of_mem hi)) (by rwa [Nat.zero_add, ← hinput])
  rw [Nat.zero_add, ← hinput] at hloop
  exact runCommand_of_done (body := encodeStage) h hloop

section
variable {s : State} (hfits : (s.input.flatMap s.code).length ≤ s.cfg.encCapacity)
include hfits

theorem afterEncode_encLen : s.afterEncode.encLen.toNat = (s.input.flatMap s.code).length := by
  have hcap := s.cfg.inCap.isLt
  unfold Config.encCapacity at hfits
  exact (BitVec.toNat_ofNat _ 32).trans (Nat.mod_eq_of_lt (by omega))

theorem afterEncode_encoded : s.afterEncode.encoded = s.input.flatMap s.code := by
  rw [State.encoded, afterEncode_encLen hfits]
  exact range_map_encAt_putEnc s _

end

/-! ### `UNPACK` of an artifact: 46_laws.md R150 -/

section
variable {s : State}

theorem afterPack_unpackLength (s : State) : s.afterPack.unpackLength = s.encLen.toNat := by
  rw [State.unpackLength, afterPack_pkLen, afterPack_pkAt_header, packImage_length, extraBits]
  omega

theorem afterPack_unpackable (h : s.encLen.toNat ≤ s.cfg.encCapacity) : s.afterPack.Unpackable := by
  have hpos := extraBits_pos s.encLen.toNat
  have hle := extraBits_le s.encLen.toNat
  refine .inr ⟨?_, ?_, ?_, by rw [afterPack_unpackLength]; exact h⟩ <;>
    rw [afterPack_pkAt_header]
  · exact hpos
  · exact hle
  · rw [afterPack_pkLen, packImage_length]
    omega

/-- The payload bits before the padding are the encoded string. -/
theorem afterPack_payloadBit {p : Nat} (h : p < s.encLen.toNat) : s.afterPack.payloadBit p = s.encAt p := by
  have hinside : 1 + p / 8 < s.packImage.length := by
    rw [packImage_length]
    omega
  have hbyte : s.packImage[1 + p / 8] = s.payloadByte (p / 8) := by
    simp [State.packImage, Nat.add_comm 1 (p / 8)]
  rw [State.payloadBit, afterPack_pkAt_inside hinside, hbyte, getLsbD_payloadByte s _ (by omega), Nat.div_add_mod,
    State.padBit, if_pos h]

theorem afterUnpack_afterPack_encoded (h : s.encLen.toNat ≤ s.cfg.encCapacity) :
    s.afterPack.afterUnpack.encoded = s.encoded := by
  have hunpack := afterPack_unpackable h
  rw [afterUnpack_encoded hunpack, ← map_payloadBit_eq_take (e := s.afterPack.unpackLength) (Nat.sub_le _ _),
    afterPack_unpackLength]
  exact List.map_congr_left fun p hp => afterPack_payloadBit (List.mem_range.mp hp)

end

/-! ### One code, "0" -/

/-- The code of `x` is "0" and no other symbol has one. -/
structure OnlyCodeZero (s : State) (x : Byte) : Prop where
  code : s.code x = [false]
  others : ∀ y, y ≠ x → s.codeLenAt y = 0#8

theorem onlyCodeZero_codeLenAt {s : State} {x : Byte} (h : OnlyCodeZero s x) : s.codeLenAt x = 1#8 :=
  BitVec.eq_of_toNat_eq (by rw [← code_length, h.code]; rfl)

theorem onlyCodeZero_hasCode {s : State} {x : Byte} (h : OnlyCodeZero s x) : s.hasCode x := by
  rw [hasCode_iff, h.code]
  exact List.cons_ne_nil false []

theorem flatMap_code_replicate {s : State} {x : Byte} (h : OnlyCodeZero s x) (n : Nat) :
    (List.replicate n x).flatMap s.code = List.replicate n false := by
  rw [List.flatMap_replicate, h.code]
  exact List.flatten_replicate_singleton

theorem matchCode_zero {s : State} {x : Byte} (h : OnlyCodeZero s x) : s.matchCode [false] = some x := by
  rw [matchCode_eq_some_iff, onlyCodeZero_codeLenAt h]
  refine ⟨rfl, h.code, fun y hy hmatch => ?_⟩
  have hother := h.others y (by rintro rfl; exact Nat.lt_irrefl _ hy)
  rw [hother] at hmatch
  exact absurd hmatch.1 (by decide)

theorem scan_zeros {lookup : List Bool → Option Byte} {x : Byte} (h : lookup [false] = some x) (n : Nat) :
    scan lookup [] (List.replicate n false) = (List.replicate n x, []) := by
  induction n with
  | zero => rfl
  | succ n ih => rw [List.replicate_succ, scan_cons_of_some h, ih, List.replicate_succ]

theorem exec_decode_of_zeros {s : State} {x : Byte} {n : Nat} (h : s.errCode = none) (hcode : OnlyCodeZero s x)
    (hbits : s.encoded = List.replicate n false) (hfits : n ≤ s.cfg.decCapacity) :
    exec .decode s = .next (s.afterDecode (List.replicate n x)) := by
  refine exec_decode_of_no_bits_left (left := []) h ?_ (by rwa [List.length_replicate]) rfl
  rw [hbits]
  exact scan_zeros (matchCode_zero hcode) n

/-! ### The tree of one symbol -/

/-- `ASSIGN` on the tree of one symbol: 42_code_assigner.md R106. -/
theorem exec_assign_of_leaf {s : State} {x : Byte} (h : s.errCode = none)
    (htree : HoldsTree s s.root.toNat (.leaf x)) :
    ∃ t, exec .assign s = .next t ∧ t = { s with codeLen := t.codeLen, codeBits := t.codeBits, busy := false } ∧
      OnlyCodeZero t x := by
  have hroot := holdsTree_ne_nil htree
  cases htree with
  | leaf _ hleaf =>
    obtain ⟨t, hexec, hframe, -, hcode, hothers⟩ := assignLoneLeaf s h hroot hleaf
    exact ⟨t, hexec, hframe, hcode, hothers⟩

theorem input_eq_replicate {s : State} {x : Byte} (h : ∀ y ∈ s.input, y = x) :
    s.input = List.replicate s.inLen.toNat x :=
  List.eq_replicate_iff.mpr ⟨input_length s, h⟩

/-- The symbols present after `ANALYZE` are those of the input. -/
theorem present_eq_singleton {s : State} {x : Byte} (hpresent : ∀ y, s.freqAt y ≠ 0#24 ↔ y ∈ s.input)
    (hne : s.input ≠ []) (h : ∀ y ∈ s.input, y = x) : s.present = [x] := by
  obtain ⟨y, hy⟩ := List.exists_mem_of_ne_nil _ hne
  have hx : x ∈ s.input := h y hy ▸ hy
  rw [← List.perm_singleton, List.perm_ext_iff_of_nodup (present_nodup s) (List.nodup_singleton x)]
  intro y
  simp only [State.present, List.mem_filter, mem_symbols, bne_iff_ne, true_and, List.mem_singleton, hpresent]
  exact ⟨h y, fun hyx => hyx ▸ hx⟩

/-- The first three stages on an input of one distinct symbol. -/
theorem exec_analyze_build_assign_single {s : State} {x : Byte} (h : s.errCode = none) (hpos : 1 ≤ s.inLen.toNat)
    (hcap : s.inLen.toNat ≤ s.cfg.inCapacity) (hall : ∀ y ∈ s.input, y = x) :
    ∃ t, (∀ cmds, execAll (.analyze :: .build :: .assign :: cmds) s = execAll cmds t) ∧
      t = { s with
        freq := t.freq, node := t.node, nNodes := 1#32, root := 0#9, codeLen := t.codeLen, codeBits := t.codeBits,
        busy := false } ∧ OnlyCodeZero t x := by
  obtain ⟨t1, hanalyze, hframe1, -, -, hpresent⟩ := analyzeCountsInput s h hcap
  have hquiet1 : t1.errCode = none := by rw [hframe1]; exact h
  have hinput1 : t1.input = s.input := by rw [hframe1]; rfl
  rw [← hinput1] at hpresent hall
  have hne : t1.input ≠ [] := by
    rw [hinput1, ← List.length_pos_iff, input_length]
    exact hpos
  have hsingle := present_eq_singleton hpresent hne hall
  obtain ⟨t2, tree, hbuild, htree⟩ := exec_build_of_present hquiet1 (hsingle ▸ List.cons_ne_nil x [])
  have hframe2 := exec_build_frame hquiet1 hbuild
  have hquiet2 : t2.errCode = none := by rw [hframe2]; exact hquiet1
  have hleaf := htree.holds
  rw [eq_leaf_of_builtTree htree hsingle] at hleaf
  have hnNodes := htree.nNodes
  have hroot := htree.root_lt
  rw [hsingle] at hnNodes hroot
  have hnNodes : t2.nNodes = 1#32 := BitVec.eq_of_toNat_eq hnNodes
  have hroot : t2.root = 0#9 := BitVec.eq_of_toNat_eq (Nat.lt_one_iff.mp hroot)
  obtain ⟨t3, hassign, hframe3, hcode⟩ := exec_assign_of_leaf hquiet2 hleaf
  refine ⟨t3, fun cmds => ?_, ?_, hcode⟩
  · rw [execAll_cons_of_next hanalyze, execAll_cons_of_next hbuild, execAll_cons_of_next hassign]
  · rw [hframe3, hnNodes, hroot, hframe2, hframe1]

/-! ### `COMPRESS` and `EXPAND` -/

/-- `ENCODE` under the code "0" writes a zero bit for each input symbol, which is within `ENC_CAP`. -/
theorem encode_single {s : State} {x : Byte} (h : s.errCode = none) (hcap : s.inLen.toNat ≤ s.cfg.inCapacity)
    (hinput : s.input = List.replicate s.inLen.toNat x) (hcode : OnlyCodeZero s x) :
    exec .encode s = .next s.afterEncode ∧ s.afterEncode.encLen = s.inLen ∧
      s.afterEncode.encoded = List.replicate s.inLen.toNat false := by
  have hbits : s.input.flatMap s.code = List.replicate s.inLen.toNat false := by
    rw [hinput, flatMap_code_replicate hcode]
  have hlen : (s.input.flatMap s.code).length = s.inLen.toNat := by rw [hbits, List.length_replicate]
  have hfits : (s.input.flatMap s.code).length ≤ s.cfg.encCapacity := by
    unfold Config.inCapacity at hcap
    unfold Config.encCapacity
    omega
  refine ⟨exec_encode_of_codes h (fun y hy => ?_) hfits, ?_, ?_⟩
  · rw [hinput] at hy
    rw [List.eq_of_mem_replicate hy]
    exact onlyCodeZero_hasCode hcode
  · exact BitVec.eq_of_toNat_eq ((afterEncode_encLen hfits).trans hlen)
  · rw [afterEncode_encoded hfits, hbits]

/-- `EXPAND` of the artifact of zero bits under the code "0": 44_decoder.md R125, R131. -/
theorem issue_expand_single {s : State} {x : Byte} {n : Nat} (h : s.errCode = none) (hcode : OnlyCodeZero s x)
    (hbits : s.encoded = List.replicate n false) (hfits : n ≤ s.cfg.inCapacity) :
    ∃ u, issueAll [.expand] s.afterPack = .next u ∧ u.errCode = none ∧ u.decLen = BitVec.ofNat 32 n ∧
      u.decoded = List.replicate n x := by
  have hlen : s.encLen.toNat = n := by rw [← encoded_length, hbits, List.length_replicate]
  have hcap : s.encLen.toNat ≤ s.cfg.encCapacity := by
    unfold Config.inCapacity at hfits
    unfold Config.encCapacity
    omega
  have hunpack := exec_unpack_of_unpackable (s := acceptCommand s.afterPack (encode .expand)) h
    (afterPack_unpackable hcap)
  have hdecode := exec_decode_of_zeros (s := (acceptCommand s.afterPack (encode .expand)).afterUnpack) h
    (x := x) ⟨hcode.code, hcode.others⟩ ((afterUnpack_afterPack_encoded hcap).trans hbits) hfits
  have hdecoded : (List.replicate n x).length ≤ s.cfg.decCapacity := by rwa [List.length_replicate]
  have hexpand := (expandFollowsStages (acceptCommand s.afterPack (encode .expand)) h).1
  rw [execAll_cons_of_next hunpack, execAll_cons_of_next hdecode, execAll] at hexpand
  exact ⟨_, issueAll_cons_of_next hexpand [], h, congrArg (BitVec.ofNat 32) List.length_replicate,
    afterDecode_decoded hdecoded⟩

/-- Settles O48: the tree is a lone leaf, so every stage's state after `ANALYZE` is known, and the scan of `EXPAND`
meets one match a bit. -/
theorem compressSingleSymbol : Obligations.CompressSingleSymbol := by
  rintro s x ⟨-, hquiet⟩ hpos hcap hall
  have hlen : s.inLen ≠ 0#32 := by
    rintro hzero
    rw [hzero] at hpos
    exact absurd hpos (by decide)
  obtain ⟨t, hstages, hframe, hcode⟩ :=
    exec_analyze_build_assign_single (s := s.setEmpty false) hquiet hpos hcap hall
  have ht : t.errCode = none := by rw [hframe]; exact hquiet
  have hcfg : t.cfg = s.cfg := by rw [hframe]; rfl
  have hinLen : t.inLen = s.inLen := by rw [hframe]; rfl
  have hinput : t.input = s.input := by rw [hframe]; rfl
  have hreplicate := input_eq_replicate hall
  obtain ⟨hencode, hencLen, hencoded⟩ := encode_single ht (by rwa [hinLen, hcfg])
    (by rw [hinput, hinLen, hreplicate]) hcode
  rw [hinLen] at hencLen hencoded
  have hpack := exec_pack_of_quiet (s := t.afterEncode) ht
  obtain ⟨u, hexpand, hu, hdecLen, hdecoded⟩ := issue_expand_single (s := t.afterEncode) ht
    ⟨hcode.code, hcode.others⟩ hencoded (by rw [← hcfg] at hcap; exact hcap)
  have hcode5 : OnlyCodeZero t.afterEncode.afterPack x := ⟨hcode.code, hcode.others⟩
  refine ⟨t.afterEncode.afterPack, ?_, ht, onlyCodeZero_codeLenAt hcode5, hcode5.code, hcode5.others, ?_, ?_, hencLen,
    ?_, u, hexpand, hu, ?_, ?_⟩
  · rw [exec_compress_eq_execAll hquiet hlen, hstages, execAll_cons_of_next hencode, execAll_cons_of_next hpack,
      execAll]
  · exact (congrArg State.nNodes hframe :)
  · exact (congrArg State.root hframe :)
  · intro b hb
    exact List.eq_of_mem_replicate (hencoded ▸ hb)
  · rw [hdecLen, BitVec.ofNat_toNat, BitVec.setWidth_eq]
  · rw [hdecoded, hreplicate]

end Sys2Proof.Machine
end

section
/-! Proofs about a recorded fault: what keeps it, and the three events that clear it. -/

namespace Sys2Proof

/-! ### Command words -/

theorem encode_instr_of_mem_opcodeMap {row : OpcodeRow} (h : row ∈ opcodeMap) :
    encode row.instr = row.op.setWidth 32 := by
  revert row
  decide

/-- The lower byte of a word whose bits 31:8 are zero is the word: 30_encoding.md R71. -/
theorem setWidth_opcodeField {w : Word} (h : upperField w = 0#24) : (opcodeField w).setWidth 32 = w := by
  have hupper := congrArg BitVec.toNat h
  rw [upperField, BitVec.extractLsb'_toNat, BitVec.toNat_ofNat, Nat.shiftRight_eq_div_pow] at hupper
  apply BitVec.eq_of_toNat_eq
  rw [opcodeField, BitVec.toNat_setWidth, BitVec.extractLsb'_toNat, Nat.shiftRight_zero]
  omega

/-- Only its own word decodes to a command: 30_encoding.md R72. -/
theorem encode_of_decode {w : Word} {i : Instr} (h : decode w = .ok i) : encode i = w := by
  unfold decode at h
  split at h
  · cases h
  · next hupper =>
    split at h
    · next row hrow =>
      cases h
      have hop : row.op = opcodeField w := by simpa using List.find?_some hrow
      rw [encode_instr_of_mem_opcodeMap (List.mem_of_find?_eq_some hrow), hop, setWidth_opcodeField (not_not.mp hupper)]
    · cases h

end Sys2Proof

namespace Sys2Proof.Machine

/-! ### The core's step with a fault recorded: 45_control.md R138, 60_exceptions.md R173 -/

theorem exec_of_fault {i : Instr} {s : State} (h : s.errCode ≠ none) (hclrerr : i ≠ .clrerr) (hreset : i ≠ .reset) :
    exec i s = .next s.complete := by
  cases i
  case clrerr => exact absurd rfl hclrerr
  case reset => exact absurd rfl hreset
  all_goals exact runCommand_of_fault _ h

/-- Every word, legal or not, is refused, but those of `CLRERR` and `RESET`. -/
theorem coreStep_of_fault {s : State} (h : s.errCode ≠ none) (hclrerr : s.pending ≠ encode .clrerr)
    (hreset : s.pending ≠ encode .reset) : coreStep s = .next s.complete := by
  cases hdecode : decode s.pending with
  | ok i =>
    have hword := encode_of_decode hdecode
    rw [coreStep_of_legal hdecode]
    exact exec_of_fault h (fun hi => hclrerr (hi ▸ hword.symm)) (fun hi => hreset (hi ▸ hword.symm))
  | error r =>
    rw [coreStep_of_illegal hdecode]
    exact runCommand_of_fault _ h

theorem coreStep_of_clrerr {s : State} (h : s.pending = encode .clrerr) :
    coreStep s = .next s.clearError.complete :=
  coreStep_of_legal (h ▸ decode_encode .clrerr)

theorem coreStep_of_reset {s : State} (h : s.pending = encode .reset) : coreStep s = .next s.softReset.complete :=
  coreStep_of_legal (h ▸ decode_encode .reset)

/-! ### The host's action with a fault recorded: 20_memory.md R51, R52 -/

/-- `ERR_CODE` and `ERR_INFO` are in `t` as they are in `s`. -/
def SameFault (s t : State) : Prop := t.errCode = s.errCode ∧ t.errInfo = s.errInfo

theorem sameFault_writeCsr {s t : State} {i : Nat} {v : Word} (h : writeCsr s i v = some t) : SameFault s t := by
  unfold writeCsr at h
  split at h
  case h_1 =>
    cases h
    exact ⟨rfl, rfl⟩
  case h_2 | h_3 | h_4 =>
    obtain ⟨-, h⟩ := Option.ite_none_right_eq_some.mp h
    cases h
    exact ⟨rfl, rfl⟩
  case h_5 => cases h

/-- No register or memory a host may write is part of the fault: 20_memory.md R52 (c). -/
theorem sameFault_writeElement {s t : State} {space : Space} {i : Nat} {v : Word}
    (h : writeElement s space i v = some t) : SameFault s t := by
  cases space
  case csr => exact sameFault_writeCsr h
  case codeBits =>
    cases h
    exact ⟨rfl, rfl⟩
  case nodeFreq | nodeLink | nodeSym | dec => cases h
  case inp | freq | codeLen | enc | pk =>
    obtain ⟨-, h⟩ := Option.ite_none_right_eq_some.mp h
    cases h
    exact ⟨rfl, rfl⟩

theorem sameFault_hostWrite {s t : State} {n : BitVec 4} {i : BitVec 28} {v : Word} (h : hostWrite s n i v = some t) :
    SameFault s t := by
  cases ht : readTarget s.cfg n i with
  | none => simp [hostWrite, ht] at h
  | some space => exact sameFault_writeElement (by simpa only [hostWrite, ht] using h)

/-- The `BAD_ACCESS` of an illegal access is not recorded over the first fault. -/
theorem sameFault_act {s : State} {a : HostAction} (h : s.errCode ≠ none) (ha : a ≠ .hardReset) :
    SameFault s (act a s) := by
  cases a with
  | read n i =>
    cases hread : hostRead s n i with
    | some v =>
      simp only [act, hread]
      exact ⟨rfl, rfl⟩
    | none =>
      simp only [act, hread, record_of_fault _ _ h]
      exact ⟨rfl, rfl⟩
  | write n i v =>
    cases hwrite : hostWrite s n i v with
    | some t =>
      simp only [act, hwrite]
      exact sameFault_hostWrite hwrite
    | none =>
      simp only [act, hwrite, record_of_fault _ _ h]
      exact ⟨rfl, rfl⟩
  | hardReset => exact absurd rfl ha

theorem hostStep_of_cons {s : State} {ev : HostEvent} {rest : List HostEvent} (hin : s.hostIn = ev :: rest) :
    hostStep s = act ev.action { s with hostIn := rest } := by
  simp only [hostStep, hin]

theorem early_of_hostGoesFirst {s : State} {ev : HostEvent} {rest : List HostEvent} (hin : s.hostIn = ev :: rest)
    (h : s.hostGoesFirst = true) : ev.early = true := by
  simp only [State.hostGoesFirst, hin, Bool.and_eq_true] at h
  exact h.1

/-! ### Every step with a fault recorded: 60_exceptions.md R172 -/

/-- A step is the core's, or it is the host's because the block is idle or because the host goes first. -/
theorem step_cases (s : State) :
    (s.busy = true ∧ s.hostGoesFirst = false ∧ step s = coreStep s) ∨
    ((s.busy = false ∨ s.hostGoesFirst = true) ∧ step s = .next (hostStep s)) := by
  cases hbusy : s.busy with
  | false => exact .inr ⟨.inl rfl, by simp [step, hbusy]⟩
  | true =>
    cases hfirst : s.hostGoesFirst with
    | false => exact .inl ⟨rfl, rfl, step_of_busy hbusy hfirst⟩
    | true => exact .inr ⟨.inr rfl, by simp [step, hfirst]⟩

theorem coreStep_fault_cases {s t : State} (h : s.errCode ≠ none) (hstep : coreStep s = .next t) :
    SameFault s t ∨
    (t.errCode = none ∧ t.errInfo = 0#32 ∧ (s.pending = encode .clrerr ∨ s.pending = encode .reset)) := by
  by_cases hclrerr : s.pending = encode .clrerr
  · rw [coreStep_of_clrerr hclrerr] at hstep
    cases hstep
    exact .inr ⟨rfl, rfl, .inl hclrerr⟩
  by_cases hreset : s.pending = encode .reset
  · rw [coreStep_of_reset hreset] at hstep
    cases hstep
    exact .inr ⟨rfl, rfl, .inr hreset⟩
  rw [coreStep_of_fault h hclrerr hreset] at hstep
  cases hstep
  exact .inl ⟨rfl, rfl⟩

theorem hostStep_fault_cases {s : State} (h : s.errCode ≠ none) :
    SameFault s (hostStep s) ∨
    ((hostStep s).errCode = none ∧ (hostStep s).errInfo = 0#32 ∧
      ∃ early rest, s.hostIn = ⟨early, .hardReset⟩ :: rest) := by
  cases hin : s.hostIn with
  | nil =>
    simp only [hostStep, hin]
    exact .inl ⟨rfl, rfl⟩
  | cons ev rest =>
    obtain ⟨early, a⟩ := ev
    rw [hostStep_of_cons hin]
    by_cases ha : a = .hardReset
    · subst ha
      exact .inr ⟨rfl, rfl, early, rest, rfl⟩
    · exact .inl (sameFault_act (s := { s with hostIn := rest }) h ha)

/-- Settles O11: a core step refuses every word but two, and of the host's actions only a hardware reset reaches the
fault, which `record` never writes over. -/
theorem firstFaultStays : Obligations.FirstFaultStays := by
  intro s t h hstep
  rcases step_cases s with ⟨hbusy, hfirst, hcore⟩ | ⟨hhost, hact⟩
  · rcases coreStep_fault_cases h (hcore.symm.trans hstep) with hsame | ⟨hcode, hinfo, hword⟩
    · exact .inl hsame
    · exact .inr ⟨hcode, hinfo, .inl ⟨hbusy, hfirst, hword⟩⟩
  · rw [hact] at hstep
    cases hstep
    rcases hostStep_fault_cases h with hsame | ⟨hcode, hinfo, early, rest, hin⟩
    · exact .inl hsame
    · exact .inr ⟨hcode, hinfo, .inr ⟨early, rest, hin, hhost.imp_right (early_of_hostGoesFirst hin)⟩⟩

end Sys2Proof.Machine
end

section
/-! Proofs about artifacts and concatenations of codes: `UNPACK` gives back the string an artifact was made of, and
`DECODE` the symbols whose codes were concatenated. -/

namespace Sys2Proof.Machine

/-! ### `UNPACK` of an artifact: 44_decoder.md R125 -/

@[simp] theorem packedBytes_length (s : State) : s.packedBytes.length = s.pkLen.toNat := by simp [State.packedBytes]

/-- The bit string `e` written as the encoded string: `withEncoded_encoded`. -/
def State.withEncoded (s : State) (e : List Bool) : State := (s.putEnc 0 e).setEncLen e.length

theorem withEncoded_encLen (s : State) {e : List Bool} (h : e.length ≤ s.cfg.encCapacity) :
    (s.withEncoded e).encLen.toNat = e.length := by
  have hcap := s.cfg.inCap.isLt
  unfold Config.encCapacity at h
  exact (BitVec.toNat_ofNat _ 32).trans (Nat.mod_eq_of_lt (by omega))

theorem withEncoded_encoded (s : State) {e : List Bool} (h : e.length ≤ s.cfg.encCapacity) :
    (s.withEncoded e).encoded = e := by
  rw [State.encoded, withEncoded_encLen s h]
  exact range_map_encAt_putEnc s e

theorem pkLen_eq_of_packedBytes_eq {s u : State} (h : s.packedBytes = u.packedBytes) : s.pkLen = u.pkLen :=
  BitVec.eq_of_toNat_eq (by rw [← packedBytes_length, h, packedBytes_length])

theorem packedBytes_head? {s : State} (h : 0 < s.pkLen.toNat) : s.packedBytes[0]? = some (s.pkAt 0) := by
  simp [State.packedBytes, h]

theorem pkAt_zero_eq_of_packedBytes_eq {s u : State} (h : s.packedBytes = u.packedBytes) (hpos : 0 < s.pkLen.toNat) :
    s.pkAt 0 = u.pkAt 0 := by
  have hhead := packedBytes_head? hpos
  rw [h, packedBytes_head? (pkLen_eq_of_packedBytes_eq h ▸ hpos)] at hhead
  exact (Option.some.inj hhead).symm

/-- `PACK` of the string would write these very bytes, so what `UNPACK` makes of them is known from there. -/
theorem afterUnpack_of_artifact {s : State} {e : List Bool} (hbytes : s.packedBytes = packed e)
    (hfits : e.length ≤ s.cfg.encCapacity) :
    s.Unpackable ∧ s.afterUnpack.encLen.toNat = e.length ∧ s.afterUnpack.encoded = e := by
  have hencLen := withEncoded_encLen s hfits
  have hcap : (s.withEncoded e).encLen.toNat ≤ (s.withEncoded e).cfg.encCapacity := hencLen ▸ hfits
  have hsame : s.packedBytes = (s.withEncoded e).afterPack.packedBytes := by
    rw [afterPack_packedBytes, packImage_eq_packed, withEncoded_encoded s hfits, hbytes]
  have hlen := pkLen_eq_of_packedBytes_eq hsame
  have hheader := pkAt_zero_eq_of_packedBytes_eq hsame (by rw [hlen, afterPack_pkLen, packImage_length]; omega)
  have hpk : s.Unpackable :=
    unpackable_of_eq (s := (s.withEncoded e).afterPack) rfl hlen hheader (afterPack_unpackable hcap)
  have hcount : s.unpackLength = (s.withEncoded e).afterPack.unpackLength := by
    rw [State.unpackLength, hlen, hheader, State.unpackLength]
  refine ⟨hpk, ?_, ?_⟩
  · rw [afterUnpack_encLen hpk, hcount, afterPack_unpackLength, hencLen]
  · have hback := afterUnpack_afterPack_encoded hcap
    rw [afterUnpack_encoded (afterPack_unpackable hcap), withEncoded_encoded s hfits] at hback
    rw [afterUnpack_encoded hpk, hcount, State.payload, hsame]
    exact hback

theorem afterUnpack_encAt_outside {s : State} (h : s.Unpackable) {p : Nat} (hp : s.afterUnpack.encLen.toNat ≤ p) :
    s.afterUnpack.encAt p = s.encAt p := by
  rw [afterUnpack_encLen h] at hp
  exact encAt_putEnc_outside s (.inr (by rw [List.length_take]; omega))

/-- Settles O36: a valid header leaves `UNPACK` no fault to raise, and the bytes of `Packed(e)` are those of `PACK`. -/
theorem unpackRecoversBits : Obligations.UnpackRecoversBits := by
  refine ⟨fun s hquiet _ hpos hle hpayload hfits => ?_, fun s e hquiet hbytes hfits => ?_⟩
  · have hpk : s.Unpackable := .inr ⟨hpos, hle, hpayload, hfits⟩
    exact ⟨_, exec_unpack_of_unpackable hquiet hpk, rfl, afterUnpack_encLen hpk, afterUnpack_encoded hpk,
      fun p hp => afterUnpack_encAt_outside hpk hp⟩
  · obtain ⟨hpk, hlen, hencoded⟩ := afterUnpack_of_artifact hbytes hfits
    exact ⟨_, exec_unpack_of_unpackable hquiet hpk, hquiet, hlen, hencoded⟩

/-- Settles O39: `PACK` leaves the artifact of the encoded string, and `UNPACK` meets it with only `PENDING` and `BUSY`
written in between. -/
theorem unpackInvertsPack : Obligations.UnpackInvertsPack := by
  rintro s ⟨-, hquiet⟩ hcap
  have hpack := exec_pack_of_quiet (s := acceptCommand s (encode .pack)) hquiet
  have hunpack := exec_unpack_of_unpackable
    (s := acceptCommand (acceptCommand s (encode .pack)).afterPack (encode .unpack)) hquiet (afterPack_unpackable hcap)
  refine ⟨_, (issueAll_cons_of_next hpack _).trans (issueAll_cons_of_next hunpack []), hquiet, ?_,
    afterUnpack_afterPack_encoded hcap⟩
  refine BitVec.eq_of_toNat_eq ((afterUnpack_encLen (s := s.afterPack) (afterPack_unpackable hcap)).trans ?_)
  exact afterPack_unpackLength s

/-! ### The scan of a concatenation of codes: 46_laws.md R163 -/

theorem scan_append (lookup : List Bool → Option Byte) (cand bits bits' : List Bool) :
    scan lookup cand (bits ++ bits') =
      ((scan lookup cand bits).1 ++ (scan lookup (scan lookup cand bits).2 bits').1,
        (scan lookup (scan lookup cand bits).2 bits').2) := by
  induction bits generalizing cand with
  | nil => rfl
  | cons b bits ih =>
    rw [List.cons_append]
    cases hmatch : lookup (cand ++ [b]) with
    | none => rw [scan_cons_of_none hmatch, scan_cons_of_none hmatch, ih]
    | some x => rw [scan_cons_of_some hmatch, scan_cons_of_some hmatch, ih, List.cons_append]

/-- A candidate that matches only when `bits` is complete is emitted there. -/
theorem scan_of_first_match {lookup : List Bool → Option Byte} {x : Byte} {bits : List Bool} (cand : List Bool)
    (hne : bits ≠ []) (hmatch : lookup (cand ++ bits) = some x)
    (hfirst : ∀ p, p ≠ [] → p <+: bits → p ≠ bits → lookup (cand ++ p) = none) :
    scan lookup cand bits = ([x], []) := by
  induction bits generalizing cand with
  | nil => exact absurd rfl hne
  | cons b bits ih =>
    by_cases hlast : bits = []
    · subst hlast
      rw [scan_cons_of_some hmatch]
      rfl
    · have hnone : lookup (cand ++ [b]) = none :=
        hfirst [b] (List.cons_ne_nil b []) ⟨bits, rfl⟩ fun h => hlast (List.tail_eq_of_cons_eq h).symm
      rw [scan_cons_of_none hnone]
      refine ih (cand ++ [b]) hlast (by rwa [List.append_assoc]) fun p _ hp hpne => ?_
      rw [List.append_assoc]
      exact hfirst (b :: p) (List.cons_ne_nil b p) ((List.prefix_cons_inj b).mpr hp)
        fun h => hpne (List.tail_eq_of_cons_eq h)



/-- Under a `PrefixFree` table what a code begins with matches no symbol but the code's own. -/
theorem eq_of_code_prefix {s : State} (hfree : PrefixFree s) {x y : Byte} (hx : s.hasCode x) (hy : s.hasCode y)
    (h : s.code y <+: s.code x) : y = x := by
  by_contra hne
  exact hfree y x hne hy hx h

theorem matchCode_code {s : State} (hfree : PrefixFree s) {x : Byte} (hx : s.hasCode x) :
    s.matchCode (s.code x) = some x := by
  rw [matchCode_eq_some_iff]
  refine ⟨(code_length s x).symm, rfl, fun y hlt ⟨_, hcode⟩ => ?_⟩
  have hy : s.hasCode y := (hasCode_iff s y).mpr (hcode ▸ (hasCode_iff s x).mp hx)
  rw [eq_of_code_prefix hfree hx hy (hcode ▸ List.prefix_rfl)] at hlt
  exact Nat.lt_irrefl _ hlt

theorem matchCode_of_proper_prefix {s : State} (hfree : PrefixFree s) {x : Byte} (hx : s.hasCode x) {p : List Bool}
    (hne : p ≠ []) (hprefix : p <+: s.code x) (hproper : p ≠ s.code x) : s.matchCode p = none := by
  rw [matchCode_eq_none_iff]
  rintro y ⟨-, rfl⟩
  exact hproper (congrArg s.code (eq_of_code_prefix hfree hx ((hasCode_iff s y).mpr hne) hprefix))

theorem scan_codes {s : State} (hfree : PrefixFree s) {xs : List Byte} (hcode : ∀ x ∈ xs, s.hasCode x) :
    scan s.matchCode [] (xs.flatMap s.code) = (xs, []) := by
  induction xs with
  | nil => rfl
  | cons x xs ih =>
    have hx := hcode x List.mem_cons_self
    have hfirst := scan_of_first_match (lookup := s.matchCode) [] ((hasCode_iff s x).mp hx) (matchCode_code hfree hx)
      fun p hne hprefix hproper => matchCode_of_proper_prefix hfree hx hne hprefix hproper
    rw [List.flatMap_cons, scan_append, hfirst, ih fun y hy => hcode y (List.mem_cons_of_mem x hy)]
    rfl

/-! ### `DECODE` and `EXPAND` of a concatenation of codes -/

section
variable {s : State} {xs : List Byte} (h : s.errCode = none) (hfree : PrefixFree s) (hcode : ∀ x ∈ xs, s.hasCode x)
  (hfits : xs.length ≤ s.cfg.decCapacity)
include h hfree hcode hfits

theorem exec_decode_of_codes (hbits : s.encoded = xs.flatMap s.code) : exec .decode s = .next (s.afterDecode xs) :=
  exec_decode_of_no_bits_left h (by rw [hbits, scan_codes hfree hcode]) hfits rfl

theorem exec_decode_afterUnpack (hbytes : s.packedBytes = packed (xs.flatMap s.code))
    (hbits : (xs.flatMap s.code).length ≤ s.cfg.encCapacity) :
    exec .decode s.afterUnpack = .next (s.afterUnpack.afterDecode xs) :=
  exec_decode_of_codes h (prefixFree_of_code_eq (fun _ => rfl) hfree) hcode hfits
    (afterUnpack_of_artifact hbytes hbits).2.2

theorem exec_expand_of_artifact (hbytes : s.packedBytes = packed (xs.flatMap s.code))
    (hbits : (xs.flatMap s.code).length ≤ s.cfg.encCapacity) :
    exec .expand s = .next (s.afterUnpack.afterDecode xs) := by
  have hpk := (afterUnpack_of_artifact hbytes hbits).1
  rw [(expandFollowsStages s h).1, execAll_cons_of_next (exec_unpack_of_unpackable h hpk),
    execAll_cons_of_next (exec_decode_afterUnpack h hfree hcode hfits hbytes hbits), execAll]

end

/-- Settles O43: a code completes exactly at its last bit, so the scan emits the symbols one by one. -/
theorem decodeInvertsEncode : Obligations.DecodeInvertsEncode := by
  intro s xs hquiet hfree hcode hbits hfits
  exact ⟨_, exec_decode_of_codes hquiet hfree hcode hfits hbits, rfl, afterDecode_decLen hfits,
    afterDecode_decoded hfits⟩

/-- Settles O51: `UNPACK` recovers the concatenation, and `DECODE` its symbols. -/
theorem expandDecodesArtifact : Obligations.ExpandDecodesArtifact := by
  intro s xs hquiet hfree hcode hbytes hfits hbits
  exact ⟨_, exec_expand_of_artifact hquiet hfree hcode hfits hbytes hbits, rfl,
    (afterUnpack_of_artifact hbytes hbits).2.2, afterDecode_decLen hfits, afterDecode_decoded hfits⟩

/-! ### `DECODE` of more symbols than `DEC` has places: 44_decoder.md R132 -/

theorem range_eq_append_cons {p n : Nat} (h : p < n) : ∃ l, List.range n = List.range p ++ p :: l := by
  obtain ⟨k, rfl⟩ := Nat.exists_eq_add_of_lt h
  exact ⟨_, by rw [Nat.add_assoc, List.range_add, List.range_succ_eq_map, List.map_cons, Nat.add_zero]⟩

theorem encoded_take {s : State} {p : Nat} (h : p ≤ s.encLen.toNat) :
    s.encoded.take p = (List.range p).map s.encAt := by
  rw [State.encoded, ← List.map_take, List.take_range, Nat.min_eq_left h]

/-- A bit that adds a symbol to those of the bits before completes a code. -/
theorem lookup_of_scan_length_lt {lookup : List Bool → Option Byte} {cand bits : List Bool} {b : Bool}
    (h : (scan lookup cand bits).1.length < (scan lookup cand (bits ++ [b])).1.length) :
    ∃ x, lookup ((scan lookup cand bits).2 ++ [b]) = some x := by
  cases hmatch : lookup ((scan lookup cand bits).2 ++ [b]) with
  | some x => exact ⟨x, rfl⟩
  | none =>
    rw [scan_append, scan_cons_of_none hmatch, scan, List.append_nil] at h
    exact absurd h (Nat.lt_irrefl _)

theorem decodeStage_of_full {s : State} {p : Nat} (hp : p < s.encLen.toNat)
    (hfull : (scan s.matchCode [] (s.encoded.take p)).1.length = s.cfg.decCapacity)
    (hmore : (scan s.matchCode [] (s.encoded.take (p + 1))).1.length = s.cfg.decCapacity + 1) :
    decodeStage s = raise .capacity p ((s.putDecList 0 (scan s.matchCode [] (s.encoded.take p)).1).setDecLen
      (scan s.matchCode [] (s.encoded.take p)).1.length) := by
  rw [encoded_take hp, List.range_succ, List.map_append, List.map_singleton] at hmore
  rw [encoded_take hp.le] at hfull ⊢
  obtain ⟨x, hmatch⟩ := lookup_of_scan_length_lt (lookup := s.matchCode) (cand := [])
    (bits := (List.range p).map s.encAt) (b := s.encAt p) (by rw [hmore, hfull]; exact Nat.lt_succ_self _)
  obtain ⟨l, hrange⟩ := range_eq_append_cons hp
  rw [decodeStage, hrange, decodeLoop_append _ (by rw [Nat.zero_add, hfull]), Nat.zero_add]
  exact decodeLoop_cons_of_full (s := s.putDecList 0 _) _ hmatch hfull

/-- Settles O42: the symbols before bit `p` fill `DEC`, and the loop meets the next one there. -/
theorem decodeStopsWhenFull : Obligations.DecodeStopsWhenFull := by
  intro s p hquiet hp hfull hmore
  have hlen := afterDecode_decLen hfull.le
  exact ⟨_, runCommand_of_raise (body := decodeStage) hquiet (decodeStage_of_full hp hfull hmore) hquiet, rfl,
    hlen.trans hfull, afterDecode_decoded hfull.le, fun i hi => afterDecode_decAt_outside (hlen ▸ hi)⟩

end Sys2Proof.Machine
end

section
/-! Proofs about `ENCODE`: the codes of the input symbols one after the other, as far as each has a code that fits. -/

namespace Sys2Proof.Machine

theorem withEncoded_encAt_outside (s : State) {e : List Bool} {p : Nat} (h : e.length ≤ s.cfg.encCapacity)
    (hp : (s.withEncoded e).encLen.toNat ≤ p) : (s.withEncoded e).encAt p = s.encAt p := by
  rw [withEncoded_encLen s h] at hp
  exact encAt_putEnc_outside s (.inr (by omega))

theorem toNat_codeLenAt_ne_zero {s : State} {x : Byte} (h : s.hasCode x) : (s.codeLenAt x).toNat ≠ 0 :=
  fun hzero => h (BitVec.eq_of_toNat_eq hzero)

/-- While every code fits, the loop over the indices `l` writes the codes of their symbols and goes on behind them. -/
theorem encodeLoop_append {l : List Nat} (l' : List Nat) {e : Nat} {s : State}
    (hcode : ∀ i ∈ l, s.hasCode (s.inAt i))
    (hfits : e + (l.flatMap fun i => s.code (s.inAt i)).length ≤ s.cfg.encCapacity) :
    encodeLoop (l ++ l') e s = encodeLoop l' (e + (l.flatMap fun i => s.code (s.inAt i)).length)
      (s.putEnc e (l.flatMap fun i => s.code (s.inAt i))) := by
  induction l generalizing e s with
  | nil => rfl
  | cons i l ih =>
    have hlen := code_length s (s.inAt i)
    have hne := toNat_codeLenAt_ne_zero (hcode i List.mem_cons_self)
    rw [List.flatMap_cons, List.length_append] at hfits ⊢
    rw [List.cons_append, encodeLoop_cons_of_fits _ hne (by omega), ← hlen, ← Nat.add_assoc, ← putEnc_append]
    exact ih (s := s.putEnc e (s.code (s.inAt i))) (fun j hj => hcode j (List.mem_cons_of_mem i hj))
      (by rw [Nat.add_assoc]; exact hfits)

theorem input_take {s : State} {i : Nat} (h : i ≤ s.inLen.toNat) : s.input.take i = (List.range i).map s.inAt := by
  rw [State.input, ← List.map_take, List.take_range, Nat.min_eq_left h]

/-- `ENCODE` reaches input index `i` with the codes before it in `ENC`. -/
theorem encodeStage_eq_encodeLoop {s : State} {i : Nat} (hi : i < s.inLen.toNat)
    (hcode : ∀ j, j < i → s.hasCode (s.inAt j))
    (hfits : ((s.input.take i).flatMap s.code).length ≤ s.cfg.encCapacity) :
    ∃ l, encodeStage s = encodeLoop (i :: l) ((s.input.take i).flatMap s.code).length
      (s.putEnc 0 ((s.input.take i).flatMap s.code)) := by
  obtain ⟨l, hrange⟩ := range_eq_append_cons hi
  rw [input_take hi.le, List.flatMap_map] at hfits ⊢
  refine ⟨l, ?_⟩
  rw [encodeStage, hrange, encodeLoop_append (i :: l) (fun j hj => hcode j (List.mem_range.mp hj)) (by omega),
    Nat.zero_add]

/-- Settles O30: with a code for every symbol and room for all of them the loop never raises. -/
theorem encodeConcatenatesCodes : Obligations.EncodeConcatenatesCodes := by
  intro s hquiet hcode hfits
  have hencLen := afterEncode_encLen hfits
  refine ⟨_, exec_encode_of_codes hquiet hcode hfits, rfl, afterEncode_encoded hfits, ?_, fun p hp => ?_⟩
  · rw [hencLen, List.length_flatMap]
    simp only [code_length]
  · exact withEncoded_encAt_outside s hfits (p := p) hp

section
variable {s : State} {i : Nat} {e : ErrorCode} {bits : List Bool} (h : s.errCode = none)
  (hfits : bits.length ≤ s.cfg.encCapacity) (hstage : encodeStage s = raise e i (s.withEncoded bits))
include h hfits hstage

/-- The partial result a fault of `ENCODE` leaves: 43_bit_packer.md R122. -/
theorem exec_encode_of_raise :
    ∃ t, exec .encode s = .next t ∧
      t = { s with enc := t.enc, encLen := t.encLen, errCode := some e, errInfo := BitVec.ofNat 32 i, busy := false } ∧
      t.encoded = bits ∧ ∀ p, t.encLen.toNat ≤ p → t.encAt p = s.encAt p :=
  ⟨_, runCommand_of_raise (body := encodeStage) h hstage h, rfl, withEncoded_encoded s hfits,
    fun _ hp => withEncoded_encAt_outside s hfits hp⟩

end

/-- Settles O31: the loop reaches index `i`, whose symbol has no code. -/
theorem encodeStopsAtMissingCode : Obligations.EncodeStopsAtMissingCode := by
  intro s i hquiet hi hcode hmissing hfits
  obtain ⟨l, hstage⟩ := encodeStage_eq_encodeLoop hi hcode hfits
  have hzero : (s.codeLenAt (s.inAt i)).toNat = 0 := by rw [not_not.mp hmissing]; rfl
  exact exec_encode_of_raise hquiet hfits
    (hstage.trans (encodeLoop_cons_of_no_code (s := s.putEnc 0 ((s.input.take i).flatMap s.code)) l _ hzero))

/-- Settles O32: the loop reaches index `i`, whose code has no room behind those before it. -/
theorem encodeStopsAtCapacity : Obligations.EncodeStopsAtCapacity := by
  intro s i hquiet hi hcode hfits hover
  obtain ⟨l, hstage⟩ := encodeStage_eq_encodeLoop hi (fun j hj => hcode j hj.le) hfits
  have hmore : ((s.input.take i).flatMap s.code).length + (s.codeLenAt (s.inAt i)).toNat > s.cfg.encCapacity := by
    rw [input_take hi, List.range_succ, List.map_append, List.map_singleton, ← input_take hi.le, List.flatMap_append,
      List.flatMap_singleton, List.length_append, code_length] at hover
    exact hover
  exact exec_encode_of_raise hquiet hfits
    (hstage.trans (encodeLoop_cons_of_overfull (s := s.putEnc 0 ((s.input.take i).flatMap s.code)) l
      (toNat_codeLenAt_ne_zero (hcode i (Nat.le_refl i))) hmore))

end Sys2Proof.Machine
end

section
/-! Proofs about the tree `BUILD` makes as records: the merge loop is an execution of the source's algorithm, and what
it leaves meets the tree invariant of 10_state.md R36. -/

namespace Sys2Proof.Machine

/-! ### The source's algorithm: 46_laws.md R161 -/

theorem freq_le_of_popMin {s : State} {q q' : List Nat} {k : Nat} (h : popMin s q = some (k, q')) :
    ∀ j ∈ q, (s.nodeAt k).freq.toNat ≤ (s.nodeAt j).freq.toNat := by
  obtain ⟨-, -, hleast⟩ := popMin_eq_some h
  intro j hj
  have hnot := hleast j hj
  rw [not_popsBefore_iff] at hnot
  omega

/-- Settles O20, by induction on the fuel: the least pair of R96 has minimal frequency, and every iteration shortens the
queue. -/
theorem buildRefinesSourceAlgorithm : Obligations.BuildRefinesSourceAlgorithm := by
  intro fuel
  induction fuel with
  | zero =>
    intro q m s hfuel
    have hlen : q.length ≤ 1 := by omega
    exact ⟨.stop q m s hlen, hlen⟩
  | succ fuel ih =>
    intro q m s hfuel
    rcases Nat.lt_or_ge 1 q.length with hlen | hlen
    · obtain ⟨a, b, q1, q2, ha, hb⟩ := two_pops s hlen
      have hlen1 := length_of_popMin ha
      have hlen2 := length_of_popMin hb
      have hleast := freq_le_of_popMin ha
      have hsecond := freq_le_of_popMin hb
      rw [mergeLoop_succ fuel m hlen ha hb]
      obtain ⟨haq, rfl, -⟩ := popMin_eq_some ha
      obtain ⟨hbq, rfl, -⟩ := popMin_eq_some hb
      obtain ⟨hmerge, hend⟩ := ih ((q.erase a).erase b ++ [m]) (m + 1) (s.putNode m (innerNode s a b))
        (by rw [List.length_append, List.length_singleton]; omega)
      exact ⟨.merge q m s a b _ _ _ haq hleast hbq hsecond hmerge, hend⟩
    · rw [mergeLoop_of_length_le_one _ m s hlen]
      exact ⟨.stop q m s hlen, hlen⟩

/-! ### The links of internal records: 10_state.md R36 -/

/-- The `left` and `right` handles of the records from `n` up to `m`; `childHandles` is this for a whole tree. -/
def State.linksUpTo (s : State) (n m : Nat) : List Nat :=
  ((List.range m).drop n).flatMap fun k => [(s.nodeAt k).left.toNat, (s.nodeAt k).right.toNat]

theorem childHandles_eq_linksUpTo (s : State) (n : Nat) : s.childHandles n = s.linksUpTo n (2 * n - 1) := rfl

@[simp] theorem linksUpTo_self (s : State) (n : Nat) : s.linksUpTo n n = [] := by
  rw [State.linksUpTo, List.drop_of_length_le List.length_range.le, List.flatMap_nil]

theorem linksUpTo_succ (s : State) {n m : Nat} (h : n ≤ m) :
    s.linksUpTo n (m + 1) = s.linksUpTo n m ++ [(s.nodeAt m).left.toNat, (s.nodeAt m).right.toNat] := by
  rw [State.linksUpTo, List.range_succ, List.drop_append_of_le_length (by rwa [List.length_range]),
    List.flatMap_append, List.flatMap_singleton, State.linksUpTo]

theorem linksUpTo_congr {s u : State} {n m : Nat} (h : ∀ k, k < m → u.nodeAt k = s.nodeAt k) :
    u.linksUpTo n m = s.linksUpTo n m :=
  List.flatMap_congr fun k hk => by rw [h k (List.mem_range.mp (List.mem_of_mem_drop hk))]

/-- Two handles leave the queue for the links of the new record `m`: every handle is still in one of the two places. -/
theorem parents_join {q q' links handles : List Nat} {a b : Nat} (m : Nat) (hq : q.Perm (a :: b :: q'))
    (h : (q ++ links).Perm handles) : (q' ++ [m] ++ (links ++ [a, b])).Perm (handles ++ [m]) := by
  rw [List.perm_iff_count] at hq h ⊢
  intro x
  have hqx := hq x
  have hx := h x
  simp only [List.count_append, List.count_cons, List.count_nil] at hqx hx ⊢
  omega

/-- Record `k` is an internal record over two records below it. -/
structure InnerRecord (s : State) (k : Nat) : Prop where
  leaf : (s.nodeAt k).leaf = false
  sym : (s.nodeAt k).sym = 0#8
  left_lt : (s.nodeAt k).left.toNat < k
  right_lt : (s.nodeAt k).right.toNat < k
  ne : (s.nodeAt k).left ≠ (s.nodeAt k).right
  freq : (s.nodeAt k).freq.toNat =
    (s.nodeAt (s.nodeAt k).left.toNat).freq.toNat + (s.nodeAt (s.nodeAt k).right.toNat).freq.toNat

theorem innerRecord_congr {s u : State} {k : Nat} (hnode : ∀ j, j ≤ k → u.nodeAt j = s.nodeAt j)
    (h : InnerRecord s k) : InnerRecord u k := by
  obtain ⟨hleaf, hsym, hleft, hright, hne, hfreq⟩ := h
  have hk := hnode k (Nat.le_refl k)
  constructor <;> rw [hk]
  · exact hleaf
  · exact hsym
  · exact hleft
  · exact hright
  · exact hne
  · rw [hnode _ hleft.le, hnode _ hright.le]
    exact hfreq

theorem innerRecord_innerNode {s : State} {a b m : Nat} (ha : a < m) (hb : b < m) (hm : m ≤ 511) (hab : a ≠ b)
    (hfits : (s.nodeAt a).freq.toNat + (s.nodeAt b).freq.toNat < 2 ^ 32) :
    InnerRecord (s.putNode m (innerNode s a b)) m := by
  have hleft : (BitVec.ofNat 9 a).toNat = a := (BitVec.toNat_ofNat a 9).trans (Nat.mod_eq_of_lt (by omega))
  have hright : (BitVec.ofNat 9 b).toNat = b := (BitVec.toNat_ofNat b 9).trans (Nat.mod_eq_of_lt (by omega))
  constructor <;> simp only [nodeAt_putNode_same, innerNode, hleft, hright]
  · exact ha
  · exact hb
  · exact fun h => hab (by rw [← hleft, h, hright])
  · rw [nodeAt_putNode_other s _ (by omega), nodeAt_putNode_other s _ (by omega), BitVec.toNat_add,
      Nat.mod_eq_of_lt hfits]

/-! ### What the merge loop keeps of the records -/

/-- What every iteration over the `n` leaves of `s1`, of frequencies `total` in all, keeps: each handle below `m` is in
the queue or has one parent. -/
structure MergedRecords (s1 : State) (n total : Nat) (q : List Nat) (m : Nat) (s : State) : Prop where
  le : n ≤ m
  inner : ∀ k, n ≤ k → k < m → InnerRecord s k
  parents : (q ++ s.linksUpTo n m).Perm (List.range m)
  last : m - 1 ∈ q
  freq : (q.map fun k => (s.nodeAt k).freq.toNat).sum = total
  old : ∀ k, k < n ∨ m ≤ k → s.nodeAt k = s1.nodeAt k

theorem mergedRecords_leaves {n : Nat} (hn : 1 ≤ n) (s : State) :
    MergedRecords s n ((List.range n).map fun k => (s.nodeAt k).freq.toNat).sum (List.range n) n s where
  le := Nat.le_refl n
  inner _ hn hk := absurd hk (Nat.not_lt.mpr hn)
  parents := by rw [linksUpTo_self, List.append_nil]
  last := List.mem_range.mpr (by omega)
  freq := rfl
  old _ _ := rfl

theorem mergedRecords_step {s1 : State} {n total : Nat} (hn : n ≤ 256) (htotal : total < 2 ^ 32)
    {q q1 q2 : List Nat} {m a b : Nat} {s : State} (hmerging : Merging n q m s) (h : MergedRecords s1 n total q m s)
    (ha : popMin s q = some (a, q1)) (hb : popMin s q1 = some (b, q2)) :
    MergedRecords s1 n total (q2 ++ [m]) (m + 1) (s.putNode m (innerNode s a b)) := by
  obtain ⟨hle, hinner, hparents, -, hfreq, hold⟩ := h
  have hlen1 := length_of_popMin ha
  have hlen2 := length_of_popMin hb
  obtain ⟨haq, rfl, -⟩ := popMin_eq_some ha
  obtain ⟨hbq, rfl, -⟩ := popMin_eq_some hb
  have hsize := hmerging.size
  have ham := hmerging.lt a haq
  have hbm := hmerging.lt b (List.mem_of_mem_erase hbq)
  have hab : a ≠ b := fun hab => hmerging.nodup.not_mem_erase (hab ▸ hbq)
  have hperm : q.Perm (a :: b :: (q.erase a).erase b) :=
    (List.perm_cons_erase haq).trans ((List.perm_cons_erase hbq).cons a)
  have hbelow : ∀ k, k < m → (s.putNode m (innerNode s a b)).nodeAt k = s.nodeAt k :=
    fun k hk => nodeAt_putNode_other s _ (by omega)
  have hsum : (s.nodeAt a).freq.toNat + ((s.nodeAt b).freq.toNat +
      (((q.erase a).erase b).map fun k => (s.nodeAt k).freq.toNat).sum) = total := by
    rw [← hfreq, (hperm.map _).sum_eq, List.map_cons, List.map_cons, List.sum_cons, List.sum_cons]
  have hnew := innerRecord_innerNode (s := s) ham hbm (by omega) hab (by omega)
  refine ⟨Nat.le_succ_of_le hle, fun k hnk hk => ?_, ?_, List.mem_append_right _ List.mem_cons_self, ?_,
    fun k hk => ?_⟩
  · rcases Nat.lt_succ_iff_lt_or_eq.mp hk with hk | rfl
    · exact innerRecord_congr (fun j hj => hbelow j (by omega)) (hinner k hnk hk)
    · exact hnew
  · rw [linksUpTo_succ _ hle, linksUpTo_congr hbelow, nodeAt_putNode_same, List.range_succ, innerNode,
      BitVec.toNat_ofNat, BitVec.toNat_ofNat, Nat.mod_eq_of_lt (by omega), Nat.mod_eq_of_lt (by omega)]
    exact parents_join m hperm hparents
  · have hrest : ((q.erase a).erase b).map (fun k => ((s.putNode m (innerNode s a b)).nodeAt k).freq.toNat) =
        ((q.erase a).erase b).map fun k => (s.nodeAt k).freq.toNat :=
      List.map_congr_left fun k hk => by
        rw [hbelow k (hmerging.lt k (List.mem_of_mem_erase (List.mem_of_mem_erase hk)))]
    rw [List.map_append, List.sum_append, hrest, List.map_singleton, List.sum_singleton, nodeAt_putNode_same, innerNode,
      BitVec.toNat_add, Nat.mod_eq_of_lt (by omega)]
    omega
  · rw [nodeAt_putNode_other s _ (by omega)]
    exact hold k (by omega)

/-! ### The leaves: 41_tree_builder.md R95 -/

theorem present_ascending (s : State) : s.present.Pairwise fun a b => a.toNat < b.toNat :=
  symbols_ascending.filter _

theorem freqAt_ne_zero_of_mem_present {s : State} {x : Byte} (h : x ∈ s.present) : s.freqAt x ≠ 0#24 := by
  simpa using (List.mem_filter.mp h).2

theorem sum_symbols_freqAt (s : State) :
    (symbols.map fun x => (s.freqAt x).toNat).sum = (s.present.map fun x => (s.freqAt x).toNat).sum := by
  simpa [State.weightedLength, weightedSum] using weightedLength_eq s fun _ => 1

theorem buildLeaves_nodeAt_of_ge (l : List Byte) {n k : Nat} (s : State)
    (hk : n + (l.filter fun x => s.freqAt x != 0#24).length ≤ k) : (buildLeaves l n s).2.nodeAt k = s.nodeAt k := by
  induction l generalizing n s with
  | nil => rfl
  | cons x l ih =>
    by_cases hx : s.freqAt x = 0#24
    · rw [List.filter_cons_of_neg (by simp [hx])] at hk
      rw [buildLeaves_cons_of_absent hx, ih s hk]
    · rw [List.filter_cons_of_pos (by simp [hx]), List.length_cons] at hk
      rw [buildLeaves_cons_of_present hx, ih (s.putNode n _) (by simp only [putNode_freqAt]; omega),
        nodeAt_putNode_other s _ (by omega)]

theorem buildLeaves_symbols_nodeAt {s : State} {k : Nat} (h : k < s.present.length) :
    (buildLeaves symbols 0 s).2.nodeAt k = leafNode s.present[k] (s.freqAt s.present[k]) := by
  have hleaf := buildLeaves_nodeAt symbols 0 s h
  rwa [Nat.zero_add] at hleaf

theorem leafNode_freq_toNat (x : Byte) (c : Count) : (leafNode x c).freq.toNat = c.toNat :=
  (BitVec.toNat_setWidth ..).trans (Nat.mod_eq_of_lt (by omega))

theorem sum_leaves_freq (s : State) :
    ((List.range s.present.length).map fun k => ((buildLeaves symbols 0 s).2.nodeAt k).freq.toNat).sum =
      (s.present.map fun x => (s.freqAt x).toNat).sum := by
  refine congrArg List.sum (List.ext_getElem (by simp) fun k hk _ => ?_)
  rw [List.length_map, List.length_range] at hk
  rw [List.getElem_map, List.getElem_range, List.getElem_map, buildLeaves_symbols_nodeAt hk, leafNode_freq_toNat]

/-! ### The tree invariant: 10_state.md R36 -/

/-- What the merge loop leaves over the leaves of the symbols present: the last handle used is the only one queued. -/
theorem mergeLoop_records {s : State} (hpresent : s.present ≠ []) :
    ∃ s2, mergeLoop s.present.length (List.range s.present.length) s.present.length (buildLeaves symbols 0 s).2 =
        ([2 * s.present.length - 2], 2 * s.present.length - 1, s2) ∧
      MergedRecords (buildLeaves symbols 0 s).2 s.present.length (s.present.map fun x => (s.freqAt x).toNat).sum
        [2 * s.present.length - 2] (2 * s.present.length - 1) s2 := by
  have hpos := List.length_pos_iff.mpr hpresent
  have hstart := mergedRecords_leaves hpos (buildLeaves symbols 0 s).2
  rw [sum_leaves_freq] at hstart
  obtain ⟨q, m, s2, hmerge, hend, hmerging, hrecords⟩ := mergeLoop_induction
    (P := fun q m s' => Merging s.present.length q m s' ∧
      MergedRecords (buildLeaves symbols 0 s).2 s.present.length _ q m s')
    (fun hP ha hb => ⟨merging_step (present_length_le s) hP.1 ha hb,
      mergedRecords_step (present_length_le s) (sum_present_lt s) hP.1 hP.2 ha hb⟩)
    List.length_range.le ⟨merging_leaves _ _, hstart⟩
  have hsize := hmerging.size
  have hlast := hrecords.last
  have hone : q.length = 1 := by have := List.length_pos_of_mem hlast; omega
  obtain ⟨k, rfl⟩ := List.length_eq_one_iff.mp hone
  obtain rfl : m = 2 * s.present.length - 1 := by omega
  obtain rfl : 2 * s.present.length - 1 - 1 = k := List.mem_singleton.mp hlast
  exact ⟨s2, hmerge, hrecords⟩

/-- Where all handles but the root have one parent, counting the links says so. -/
theorem count_childHandles {s : State} {n : Nat} (hn : 1 ≤ n)
    (h : ([2 * n - 2] ++ s.linksUpTo n (2 * n - 1)).Perm (List.range (2 * n - 1))) :
    (∀ k, k < 2 * n - 2 → (s.childHandles n).count k = 1) ∧ (s.childHandles n).count (2 * n - 2) = 0 := by
  have hcount := fun k (hk : k < 2 * n - 1) =>
    (h.count_eq k).trans (List.count_eq_one_of_mem List.nodup_range (List.mem_range.mpr hk))
  simp only [List.count_append, List.count_singleton] at hcount
  refine ⟨fun k hk => ?_, ?_⟩
  · have hk' := hcount k (by omega)
    rwa [if_neg (by simp; omega), Nat.zero_add] at hk'
  · have hroot := hcount (2 * n - 2) (by omega)
    rw [if_pos (by simp)] at hroot
    exact Nat.add_left_cancel hroot

theorem treeShape_of_mergedRecords {s s2 t : State} {total : Nat} (hpresent : s.present ≠ [])
    (h : MergedRecords (buildLeaves symbols 0 s).2 s.present.length total [2 * s.present.length - 2]
      (2 * s.present.length - 1) s2)
    (hnode : ∀ k, t.nodeAt k = s2.nodeAt k) (hnNodes : t.nNodes.toNat = 2 * s.present.length - 1)
    (hroot : t.root.toNat = 2 * s.present.length - 2) : TreeShape t s.present.length := by
  obtain ⟨-, hinner, hparents, -, -, hold⟩ := h
  have hpos := List.length_pos_iff.mpr hpresent
  have hleaf : ∀ k (hk : k < s.present.length), t.nodeAt k = leafNode s.present[k] (s.freqAt s.present[k]) :=
    fun k hk => by rw [hnode, hold k (.inl hk), buildLeaves_symbols_nodeAt hk]
  rw [← linksUpTo_congr fun k _ => hnode k] at hparents
  obtain ⟨hone, hnone⟩ := count_childHandles hpos hparents
  refine ⟨hpos, present_length_le s, hnNodes, hroot, fun k hk => ?_, fun j k hjk hk => ?_, fun k hnk hk => ?_, hone,
    hnone⟩
  · rw [hleaf k hk]
    refine ⟨rfl, rfl, rfl, ?_⟩
    rw [leafNode_freq_toNat]
    exact Nat.pos_of_ne_zero fun hzero =>
      freqAt_ne_zero_of_mem_present (List.getElem_mem hk) (BitVec.eq_of_toNat_eq hzero)
  · rw [hleaf j (hjk.trans hk), hleaf k hk]
    exact List.pairwise_iff_getElem.mp (present_ascending s) j k _ hk hjk
  · obtain ⟨hl, hsym, hleft, hright, hne, hfreq⟩ :=
      innerRecord_congr (u := t) (fun j _ => hnode j) (hinner k hnk hk)
    exact ⟨hl, hsym, hleft, hright, hne, hfreq⟩

/-- With symbols present the queue ends with the last handle used. -/
theorem buildStage_of_present {s : State} (hpresent : s.present ≠ []) :
    ∃ s2, buildStage s = .done (setTree [2 * s.present.length - 2] (2 * s.present.length - 1) s2) ∧
      MergedRecords (buildLeaves symbols 0 s).2 s.present.length (s.present.map fun x => (s.freqAt x).toNat).sum
        [2 * s.present.length - 2] (2 * s.present.length - 1) s2 := by
  obtain ⟨s2, hmerge, hrecords⟩ := mergeLoop_records hpresent
  refine ⟨s2, ?_, hrecords⟩
  simp only [buildStage, buildLeaves_symbols_count, hmerge]

theorem setTree_root_of_present (s s2 : State) :
    (setTree [2 * s.present.length - 2] (2 * s.present.length - 1) s2).root.toNat = 2 * s.present.length - 2 := by
  have hle := present_length_le s
  exact (BitVec.toNat_ofNat _ 9).trans (Nat.mod_eq_of_lt (by omega))

theorem setTree_nNodes_of_present (s s2 : State) :
    (setTree [2 * s.present.length - 2] (2 * s.present.length - 1) s2).nNodes.toNat = 2 * s.present.length - 1 := by
  have hle := present_length_le s
  exact (BitVec.toNat_ofNat _ 32).trans (Nat.mod_eq_of_lt (by omega))

/-- Settles O18: the merge loop keeps every handle in the queue or under one parent, and the frequencies in the queue
sum to the counts; at its end the queue is the root. -/
theorem buildMakesTree : Obligations.BuildMakesTree := by
  intro s hquiet hpresent
  have hpos := List.length_pos_iff.mpr hpresent
  obtain ⟨s2, hstage, hrecords⟩ := buildStage_of_present hpresent
  have hexec : exec .build s = _ := runCommand_of_done hquiet hstage
  have hroot := setTree_root_of_present s s2
  refine ⟨_, hexec, exec_build_frame hquiet hexec, treeShape_of_mergedRecords hpresent hrecords (fun _ => rfl)
    (setTree_nNodes_of_present s s2) hroot, fun k hk => ?_, ?_, fun k hk => ?_⟩
  · exact (hrecords.old k (.inl hk)).trans (buildLeaves_symbols_nodeAt hk)
  · have hfreq := hrecords.freq
    rw [List.map_singleton, List.sum_singleton] at hfreq
    rw [complete_root, hroot, sum_symbols_freqAt]
    exact hfreq
  · refine (hrecords.old k (.inr hk)).trans (buildLeaves_nodeAt_of_ge symbols s ?_)
    rw [Nat.zero_add, ← State.present]
    omega

end Sys2Proof.Machine
end

section
/-! Proofs about the codes `ASSIGN` makes of a tree that meets the tree invariant: each is the path to its leaf, their
lengths are bounded, and together they are complete. -/

namespace Sys2Proof.Machine

/-! ### The tree below the root, with its leaves: 10_state.md R36 -/

theorem linksUpTo_prefix (s : State) {n m m' : Nat} (hn : n ≤ m) (hm : m ≤ m') :
    s.linksUpTo n m <+: s.linksUpTo n m' := by
  induction m', hm using Nat.le_induction with
  | base => exact List.prefix_rfl
  | succ m' hm ih =>
    rw [linksUpTo_succ s (hn.trans hm)]
    exact ih.trans (List.prefix_append _ _)

/-- The handles `q` are those below `m` without a parent below `m`; they hold trees over all `n` leaves. -/
structure Frontier (s : State) (n m : Nat) (q : List Nat) (tree : Nat → CodeTree) : Prop where
  parents : (q ++ s.linksUpTo n m).Perm (List.range m)
  holds : ∀ k ∈ q, HoldsTree s k (tree k)
  leaves : (q.flatMap fun k => (tree k).leaves).Perm ((List.range n).map fun k => (s.nodeAt k).sym)

section
variable {s : State} {n m : Nat}

theorem frontier_leaves (h : TreeShape s n) :
    Frontier s n n (List.range n) fun k => .leaf (s.nodeAt k).sym where
  parents := by rw [linksUpTo_self, List.append_nil]
  holds k hk := by
    have hle := h.le
    have hkn := List.mem_range.mp hk
    exact .leaf (by omega) (h.leaves k hkn).1
  leaves := List.Perm.of_eq (List.flatMap_pure_eq_map _ _)

/-- The children of record `m` have no parent below it, since a handle has only one. -/
theorem mem_frontier_of_link {q : List Nat} {tree : Nat → CodeTree} (h : TreeShape s n) (hn : n ≤ m)
    (hm : m < 2 * n - 1) (hq : Frontier s n m q tree) {k : Nat} (hk : k < m)
    (hlink : k ∈ [(s.nodeAt m).left.toNat, (s.nodeAt m).right.toNat]) : k ∈ q := by
  have hone := h.oneParent k (by omega)
  have hle := (linksUpTo_prefix s (Nat.le_succ_of_le hn) (Nat.succ_le_of_lt hm)).sublist.count_le k
  rw [← childHandles_eq_linksUpTo, hone, linksUpTo_succ s hn, List.count_append] at hle
  have hpos := List.count_pos_iff.mpr hlink
  rcases List.mem_append.mp (hq.parents.mem_iff.mpr (List.mem_range.mpr hk)) with hmem | hmem
  · exact hmem
  · have hpos' := List.count_pos_iff.mpr hmem
    omega

theorem frontier_succ (h : TreeShape s n) (hn : n ≤ m) (hm : m < 2 * n - 1)
    (hq : ∃ q tree, Frontier s n m q tree) : ∃ q tree, Frontier s n (m + 1) q tree := by
  obtain ⟨q, tree, hq⟩ := hq
  have hle := h.le
  obtain ⟨hleaf, -, hleft, hright, hne, -⟩ := h.inner m hn hm
  have ha := mem_frontier_of_link h hn hm hq hleft (by simp)
  have hb := mem_frontier_of_link h hn hm hq hright (by simp)
  have hlt : ∀ k ∈ q, k < m := fun k hk =>
    List.mem_range.mp (hq.parents.mem_iff.mp (List.mem_append_left _ hk))
  obtain ⟨hparents, hholds, hleaves⟩ := hq
  generalize hadef : (s.nodeAt m).left.toNat = a at *
  generalize hbdef : (s.nodeAt m).right.toNat = b at *
  have hab : b ≠ a := fun hab => hne (BitVec.eq_of_toNat_eq (by rw [hadef, hbdef, hab]))
  have hperm : q.Perm (a :: b :: (q.erase a).erase b) :=
    (List.perm_cons_erase ha).trans ((List.perm_cons_erase ((List.mem_erase_of_ne hab).mpr hb)).cons a)
  have hrest : ∀ k ∈ (q.erase a).erase b, k ∈ q := fun k hk => List.mem_of_mem_erase (List.mem_of_mem_erase hk)
  have htree : ∀ k ∈ (q.erase a).erase b, joinTrees tree a b m k = tree k :=
    fun k hk => joinTrees_other tree a b (hlt k (hrest k hk)).ne
  refine ⟨(q.erase a).erase b ++ [m], joinTrees tree a b m, ?_, fun k hk => ?_, ?_⟩
  · rw [linksUpTo_succ s hn, hadef, hbdef, List.range_succ]
    exact parents_join m hperm hparents
  · rcases List.mem_append.mp hk with hk | hk
    · rw [htree k hk]
      exact hholds k (hrest k hk)
    · rw [List.mem_singleton.mp hk, joinTrees_same]
      refine .node (by omega) hleaf (by rwa [hadef]) (by rwa [hbdef]) ?_ ?_
      · rw [hadef]
        exact hholds a ha
      · rw [hbdef]
        exact hholds b hb
  · refine List.Perm.trans ?_ ((hperm.symm.flatMap_right _).trans hleaves)
    rw [List.flatMap_append, List.flatMap_singleton, joinTrees_same, List.flatMap_congr fun k hk => by rw [htree k hk],
      List.flatMap_cons, List.flatMap_cons, ← List.append_assoc, CodeTree.leaves]
    exact List.perm_append_comm

/-- The tree invariant gives a tree under the root whose leaves are the `n` leaf records. -/
theorem exists_tree_of_treeShape (h : TreeShape s n) :
    ∃ tree, HoldsTree s s.root.toNat tree ∧ tree.leaves.Perm ((List.range n).map fun k => (s.nodeAt k).sym) := by
  have hpos := h.pos
  have hall : ∀ m, n ≤ m → m ≤ 2 * n - 1 → ∃ q tree, Frontier s n m q tree := by
    intro m hm
    induction m, hm using Nat.le_induction with
    | base => exact fun _ => ⟨_, _, frontier_leaves h⟩
    | succ m hm ih => exact fun hlt => frontier_succ h hm hlt (ih (by omega))
  obtain ⟨q, tree, hparents, hholds, hleaves⟩ := hall (2 * n - 1) (by omega) (Nat.le_refl _)
  rw [← childHandles_eq_linksUpTo] at hparents
  have hnodup := hparents.nodup_iff.mpr List.nodup_range
  have hmem : ∀ k, k ∈ q ↔ k = 2 * n - 2 := by
    intro k
    constructor
    · intro hk
      by_contra hne
      have hlt := List.mem_range.mp (hparents.mem_iff.mp (List.mem_append_left _ hk))
      have hlink := List.count_pos_iff.mp (by rw [h.oneParent k (by omega)]; exact Nat.one_pos)
      exact (List.disjoint_of_nodup_append hnodup) hk hlink
    · rintro rfl
      refine (List.mem_append.mp (hparents.mem_iff.mpr (List.mem_range.mpr (by omega)))).resolve_right ?_
      exact List.count_eq_zero.mp h.rootNoChild
  have hroot : q = [2 * n - 2] := List.perm_singleton.mp
    ((List.perm_ext_iff_of_nodup hnodup.of_append_left (List.nodup_singleton _)).mpr fun k => by
      rw [hmem, List.mem_singleton])
  subst hroot
  rw [List.flatMap_singleton] at hleaves
  rw [h.root]
  exact ⟨_, hholds _ List.mem_cons_self, hleaves⟩

theorem nodup_leaf_syms (h : TreeShape s n) : ((List.range n).map fun k => (s.nodeAt k).sym).Nodup := by
  refine (List.nodup_map_iff_inj_on List.nodup_range).mpr fun j hj k hk hsym => ?_
  have hjn := List.mem_range.mp hj
  have hkn := List.mem_range.mp hk
  rcases Nat.lt_trichotomy j k with hlt | rfl | hlt
  · exact absurd (congrArg BitVec.toNat hsym) (h.ascending j k hlt hkn).ne
  · rfl
  · exact absurd (congrArg BitVec.toNat hsym) (h.ascending k j hlt hjn).ne'

end

/-! ### The codes of a tree -/

namespace CodeTree

theorem ne_nil_of_mem_codes {t : CodeTree} {e : Byte × List Bool} (h : e ∈ t.codes) : e.2 ≠ [] := by
  cases t with
  | leaf x =>
    rw [List.mem_singleton.mp h]
    exact List.cons_ne_nil false []
  | node l r =>
    rcases List.mem_append.mp h with h | h
    all_goals
      obtain ⟨q, hq, -⟩ := exists_of_mem_paths h
      rw [hq]
      exact List.cons_ne_nil _ q

theorem length_le_height_of_mem_codes {t : CodeTree} {e : Byte × List Bool} (h : e ∈ t.codes) :
    e.2.length ≤ max 1 t.height := by
  cases t with
  | leaf x =>
    rw [List.mem_singleton.mp h]
    exact Nat.le_max_left 1 _
  | node l r =>
    obtain ⟨q, hq, hlen⟩ := exists_of_mem_paths (t := node l r) (p := []) h
    rw [hq, List.nil_append]
    exact hlen.trans (Nat.le_max_right 1 _)

/-- 46_laws.md R157: the two sides of a node share its part of the whole in halves. -/
theorem sum_two_pow_paths {L : Nat} {p : List Bool} {t : CodeTree} (h : p.length + t.height ≤ L) :
    ((t.paths p).map fun e => 2 ^ (L - e.2.length)).sum = 2 ^ (L - p.length) := by
  induction t generalizing p with
  | leaf x => exact Nat.add_zero _
  | node l r ihl ihr =>
    rw [height] at h
    rw [paths, List.map_append, List.sum_append, ihl (by rw [List.length_append, List.length_singleton]; omega),
      ihr (by rw [List.length_append, List.length_singleton]; omega), List.length_append, List.length_singleton,
      List.length_append, List.length_singleton, ← Nat.two_mul, ← Nat.pow_succ']
    congr 1
    omega

end CodeTree

/-- The handle `k` is reached from `root` by the path `r`, through internal records only. -/
structure Reaches (s : State) (root : Handle) (r : List Bool) : Prop where
  leaf : (s.nodeAt (descend s root r).toNat).leaf = true
  le : (descend s root r).toNat ≤ root.toNat
  inner : ∀ p b r', r = p ++ b :: r' → (s.nodeAt (descend s root p).toNat).leaf = false

theorem reaches_cons {s : State} {k : Handle} {b : Bool} {r : List Bool} (hleaf : (s.nodeAt k.toNat).leaf = false)
    (hlt : (if b then (s.nodeAt k.toNat).right else (s.nodeAt k.toNat).left).toNat < k.toNat)
    (h : Reaches s (if b then (s.nodeAt k.toNat).right else (s.nodeAt k.toNat).left) r) : Reaches s k (b :: r) where
  leaf := h.leaf
  le := h.le.trans hlt.le
  inner p c r' hp := by
    cases p with
    | nil => exact hleaf
    | cons d p =>
      rw [List.cons_append, List.cons.injEq] at hp
      obtain ⟨rfl, hp⟩ := hp
      exact h.inner p c r' hp

/-- 42_code_assigner.md R109: following a leaf's path from the tree's root leads to it. -/
theorem reaches_of_mem_paths {s : State} {t : CodeTree} {k : Handle} {p : List Bool} {e : Byte × List Bool}
    (h : HoldsTree s k.toNat t) (he : e ∈ t.paths p) :
    ∃ r, e.2 = p ++ r ∧ Reaches s k r ∧ (s.nodeAt (descend s k r).toNat).sym = e.1 := by
  induction t generalizing k p with
  | leaf x =>
    obtain rfl := List.mem_singleton.mp he
    cases h with
    | leaf _ hleaf =>
      exact ⟨[], (List.append_nil p).symm, ⟨hleaf, Nat.le_refl _, fun q b r' hq => by simp at hq⟩, rfl⟩
  | node l r ihl ihr =>
    cases h with
    | node _ hleaf hleft hright hl hr =>
      rcases List.mem_append.mp he with he | he
      · obtain ⟨q, hq, hreach, hsym⟩ := ihl hl he
        exact ⟨false :: q, by rw [hq, List.append_assoc, List.singleton_append],
          reaches_cons (b := false) hleaf hleft hreach, hsym⟩
      · obtain ⟨q, hq, hreach, hsym⟩ := ihr hr he
        exact ⟨true :: q, by rw [hq, List.append_assoc, List.singleton_append],
          reaches_cons (b := true) hleaf hright hreach, hsym⟩

/-! ### The positions beyond a code: 42_code_assigner.md R105 -/

/-- Every position of `CODE_BITS` from a code's length on is 0. -/
def ZeroBeyondCodes (s : State) : Prop :=
  ∀ y k, (s.codeLenAt y).toNat ≤ k → k < 256 → s.codeBitAt y k = false

theorem zeroBeyondCodes_setCode {s : State} (x : Byte) {p : List Bool} (hp : p.length ≤ 255)
    (h : ZeroBeyondCodes s) : ZeroBeyondCodes (s.setCode x p) := by
  intro y k hk hlt
  rw [codeLenAt_setCode] at hk
  by_cases hxy : x = y
  · subst hxy
    rw [if_pos rfl, BitVec.toNat_ofNat, Nat.mod_eq_of_lt (by omega)] at hk
    rw [codeBitAt_setCode_same s x p hlt, List.getD_eq_default _ _ hk]
  · rw [if_neg hxy] at hk
    rw [codeBitAt_setCode_other s p hxy hlt]
    exact h y k hk hlt

theorem zeroBeyondCodes_setCodes {l : List (Byte × List Bool)} (hlen : ∀ e ∈ l, e.2.length ≤ 255) {s : State}
    (h : ZeroBeyondCodes s) : ZeroBeyondCodes (s.setCodes l) := by
  induction l generalizing s with
  | nil => exact h
  | cons e l ih =>
    rw [setCodes_cons]
    exact ih (fun d hd => hlen d (List.mem_cons_of_mem e hd))
      (zeroBeyondCodes_setCode e.1 (hlen e List.mem_cons_self) h)

theorem zeroBeyondCodes_clearCodes (s : State) : ZeroBeyondCodes s.clearCodes :=
  fun y _ _ hk => codeBitAt_clearCodes s y hk

/-! ### The state `ASSIGN` leaves of a tree -/

/-- The code table rewritten with the codes of `tree`, and `BUSY` cleared; `exec_assign_of_treeShape` says that this is
where the command ends. -/
def State.afterAssign (s : State) (tree : CodeTree) : State := (s.clearCodes.setCodes tree.codes).complete

theorem afterAssign_frame (s : State) (tree : CodeTree) :
    s.afterAssign tree = { s with
      codeLen := (s.afterAssign tree).codeLen, codeBits := (s.afterAssign tree).codeBits, busy := false } := by
  rw [State.afterAssign, setCodes_frame]
  rfl

@[simp] theorem afterAssign_nodeAt (s : State) (tree : CodeTree) (k : Nat) :
    (s.afterAssign tree).nodeAt k = s.nodeAt k := by
  rw [afterAssign_frame]
  rfl

@[simp] theorem afterAssign_nNodes (s : State) (tree : CodeTree) : (s.afterAssign tree).nNodes = s.nNodes := by
  rw [afterAssign_frame]

@[simp] theorem afterAssign_root (s : State) (tree : CodeTree) : (s.afterAssign tree).root = s.root := by
  rw [afterAssign_frame]

/-- A tree whose paths fit a code and whose leaves are different symbols, as the tree invariant makes it. -/
structure Assignable (tree : CodeTree) : Prop where
  height : tree.height ≤ 255
  nodup : tree.leaves.Nodup

section
variable {tree : CodeTree} (h : Assignable tree) (s : State)
include h

theorem length_le_of_assignable : ∀ e ∈ tree.codes, e.2.length ≤ 255 :=
  fun _ he => CodeTree.length_le_of_mem_codes h.height he

theorem afterAssign_code {e : Byte × List Bool} (he : e ∈ tree.codes) : (s.afterAssign tree).code e.1 = e.2 :=
  code_setCodes_of_nodup (length_le_of_assignable h) (by rw [tree.map_fst_codes]; exact h.nodup) s.clearCodes he

theorem mem_codes_of_hasCode {x : Byte} (hx : (s.afterAssign tree).hasCode x) :
    (x, (s.afterAssign tree).code x) ∈ tree.codes :=
  mem_of_hasCode_setCodes (length_le_of_assignable h) hx

theorem mem_codes_of_mem_leaves {x : Byte} (hx : x ∈ tree.leaves) :
    (x, (s.afterAssign tree).code x) ∈ tree.codes := by
  rw [← tree.map_fst_codes] at hx
  obtain ⟨e, he, rfl⟩ := List.mem_map.mp hx
  rwa [afterAssign_code h s he]

theorem afterAssign_hasCode_iff (x : Byte) : (s.afterAssign tree).hasCode x ↔ x ∈ tree.leaves := by
  constructor
  · intro hx
    rw [← tree.map_fst_codes]
    exact List.mem_map_of_mem (mem_codes_of_hasCode h s hx)
  · intro hx
    exact (hasCode_iff _ x).mpr (CodeTree.ne_nil_of_mem_codes (mem_codes_of_mem_leaves h s hx))

theorem afterAssign_zeroBeyondCodes : ZeroBeyondCodes (s.afterAssign tree) :=
  zeroBeyondCodes_setCodes (length_le_of_assignable h) (zeroBeyondCodes_clearCodes s)

theorem afterAssign_prefixFree : PrefixFree (s.afterAssign tree) :=
  prefixFree_of_code_eq (fun _ => rfl) (prefixFree_setCodes_codes s h.height)

end

theorem exec_assign_of_treeShape {s : State} {n : Nat} (hquiet : s.errCode = none) (h : TreeShape s n) :
    ∃ tree, exec .assign s = .next (s.afterAssign tree) ∧ HoldsTree s s.root.toNat tree ∧ Assignable tree ∧
      tree.leaves.Perm ((List.range n).map fun k => (s.nodeAt k).sym) := by
  obtain ⟨tree, hholds, hleaves⟩ := exists_tree_of_treeShape h
  have hheight := tree.height_lt_leaves_length
  have hle := h.le
  rw [hleaves.length_eq, List.length_map, List.length_range] at hheight
  have hfits : tree.height ≤ 255 := by omega
  exact ⟨tree, exec_assign_of_done hquiet (assignStage_of_holdsTree hholds hfits), hholds,
    ⟨hfits, hleaves.nodup_iff.mpr (nodup_leaf_syms h)⟩, hleaves⟩

theorem exists_node_of_two_leaves {tree : CodeTree} (h : 2 ≤ tree.leaves.length) : ∃ l r, tree = .node l r := by
  cases tree with
  | leaf x => exact absurd h (Nat.not_succ_le_self 1)
  | node l r => exact ⟨l, r, rfl⟩

theorem leaves_length_of_perm {s : State} {n : Nat} {tree : CodeTree}
    (h : tree.leaves.Perm ((List.range n).map fun k => (s.nodeAt k).sym)) : tree.leaves.length = n := by
  rw [h.length_eq, List.length_map, List.length_range]

/-- The only leaf record of a symbol is the one its path leads to. -/
theorem descend_eq_of_reaches {s : State} {n k : Nat} {r : List Bool} (h : TreeShape s n) (hk : k < n)
    (hr : Reaches s s.root r) (hsym : (s.nodeAt (descend s s.root r).toNat).sym = (s.nodeAt k).sym) :
    (descend s s.root r).toNat = k := by
  have hle := hr.le
  have hpos := h.pos
  rw [h.root] at hle
  have hlt : (descend s s.root r).toNat < n := by
    by_contra hge
    have hinner := (h.inner _ (Nat.le_of_not_lt hge) (by omega)).1
    rw [hr.leaf] at hinner
    cases hinner
  exact (List.nodup_map_iff_inj_on List.nodup_range).mp (nodup_leaf_syms h) _ (List.mem_range.mpr hlt) k
    (List.mem_range.mpr hk) hsym

/-- Settles O25: the code of a leaf's symbol is an entry of the tree the root holds, so following it leads to a leaf of
that symbol, of which there is one. -/
theorem assignWritesPaths : Obligations.AssignWritesPaths := by
  intro s n hquiet hshape hn
  obtain ⟨tree, hexec, hholds, htree, hleaves⟩ := exec_assign_of_treeShape hquiet hshape
  have hlen := leaves_length_of_perm hleaves
  refine ⟨_, hexec, afterAssign_frame s tree, fun k hk => ?_, fun y hy => ?_, afterAssign_zeroBeyondCodes htree s⟩
  · have hmem : (s.nodeAt k).sym ∈ tree.leaves :=
      hleaves.mem_iff.mpr (List.mem_map_of_mem (List.mem_range.mpr hk))
    obtain ⟨l, r, rfl⟩ := exists_node_of_two_leaves (hlen ▸ hn)
    obtain ⟨path, hpath, hreach, hsym⟩ := reaches_of_mem_paths (p := []) hholds (mem_codes_of_mem_leaves htree s hmem)
    rw [List.nil_append] at hpath
    subst hpath
    exact ⟨(afterAssign_hasCode_iff htree s _).mpr hmem, descend_eq_of_reaches hshape hk hreach hsym, hreach.inner⟩
  · by_contra hcode
    obtain ⟨k, hk, hsym⟩ := List.mem_map.mp (hleaves.mem_iff.mp ((afterAssign_hasCode_iff htree s y).mp hcode))
    exact hy k (List.mem_range.mp hk) hsym

/-- Settles O27: a code is no longer than the height of the tree, which is less than the number of leaves. -/
theorem assignedCodeLengthsBounded : Obligations.AssignedCodeLengthsBounded := by
  intro s n hquiet hshape
  obtain ⟨tree, hexec, -, htree, hleaves⟩ := exec_assign_of_treeShape hquiet hshape
  refine ⟨_, hexec, fun x hx => ?_⟩
  have hmem := mem_codes_of_hasCode htree s hx
  have hpos : 0 < ((s.afterAssign tree).code x).length :=
    List.length_pos_iff.mpr (CodeTree.ne_nil_of_mem_codes hmem)
  have hheight : ((s.afterAssign tree).code x).length ≤ max 1 tree.height :=
    CodeTree.length_le_height_of_mem_codes hmem
  have hlt := tree.height_lt_leaves_length
  have hle := hshape.le
  rw [leaves_length_of_perm hleaves] at hlt
  rw [← code_length]
  omega

/-! ### Completeness: 46_laws.md R157 -/

theorem sum_symbols_of_zero_outside {l : List Byte} (hl : l.Nodup) {f : Byte → Nat} (h : ∀ x, x ∉ l → f x = 0) :
    (symbols.map f).sum = (l.map f).sum := by
  rw [← List.sum_toFinset f symbols_nodup, ← List.sum_toFinset f hl]
  refine (Finset.sum_subset (fun x _ => List.mem_toFinset.mpr (mem_symbols x)) fun x _ hx => ?_).symm
  exact h x fun hmem => hx (List.mem_toFinset.mpr hmem)

/-- Settles O28: the symbols with a code are the leaves, whose paths share the whole in halves at every node. -/
theorem assignedCodeComplete : Obligations.AssignedCodeComplete := by
  intro s n hquiet hshape hn
  obtain ⟨tree, hexec, -, htree, hleaves⟩ := exec_assign_of_treeShape hquiet hshape
  refine ⟨_, hexec, ?_⟩
  have hhas := afterAssign_hasCode_iff htree s
  rw [sum_symbols_of_zero_outside htree.nodup fun x hx => if_pos (not_not.mp (mt (hhas x).mp hx)),
    ← tree.map_fst_codes, List.map_map]
  have hterm : ∀ e ∈ tree.codes, (if (s.afterAssign tree).codeLenAt e.1 = 0#8 then 0
      else 2 ^ (255 - ((s.afterAssign tree).codeLenAt e.1).toNat)) = 2 ^ (255 - e.2.length) := by
    intro e he
    have hmem : e.1 ∈ tree.leaves := by
      rw [← tree.map_fst_codes]
      exact List.mem_map_of_mem he
    rw [if_neg ((hhas e.1).mpr hmem), ← code_length, afterAssign_code htree s he]
  obtain ⟨l, r, rfl⟩ := exists_node_of_two_leaves (leaves_length_of_perm hleaves ▸ hn)
  refine (congrArg List.sum (List.map_congr_left hterm)).trans ?_
  exact CodeTree.sum_two_pow_paths (t := .node l r) (p := [])
    (by rw [List.length_nil, Nat.zero_add]; exact htree.height)

end Sys2Proof.Machine
end

section
/-! Proofs about what each command writes: 20_memory.md R58, the stored bits of `STATUS`, and the fault no command
records. -/

namespace Sys2Proof.Machine

/-! ### Every command as a stage: 45_control.md R138 -/

/-- The pseudocode of each command; `exec_ends` says what `exec` makes of it. -/
def stageOf : Instr → State → Stage
  | .nop => .done
  | .analyze => analyzeStage
  | .build => buildStage
  | .assign => assignStage
  | .encode => encodeStage
  | .pack => packStage
  | .unpack => unpackStage
  | .decode => decodeStage
  | .compress => compressStage
  | .expand => expandStage
  | .clrerr => fun s => .done s.clearError
  | .reset => fun s => .done s.softReset

/-- A command is refused, or its pseudocode ends and `BUSY` is cleared. -/
theorem exec_ends {i : Instr} {s t : State} (h : exec i s = .next t) :
    (s.errCode ≠ none ∧ t = s.complete) ∨ ∃ u, (stageOf i s).Ends u ∧ t = u.complete := by
  cases i
  case clrerr | reset =>
    cases h
    exact .inr ⟨_, .inl rfl, rfl⟩
  all_goals exact (runCommand_eq_next h).imp_right fun ⟨_, hend⟩ => hend

theorem busy_of_exec {i : Instr} {s t : State} (h : exec i s = .next t) : t.busy = false := by
  rcases exec_ends h with ⟨-, rfl⟩ | ⟨u, -, rfl⟩ <;> rfl

/-! ### What each stage writes: 20_memory.md R58 -/

section
variable {s u : State}

theorem analyzeStage_writes (h : (analyzeStage s).Ends u) : u = { s with freq := u.freq } := by
  rw [analyzeStage, ends_done] at h
  subst h
  rfl

theorem buildStage_writes (h : (buildStage s).Ends u) :
    u = { s with node := u.node, nNodes := u.nNodes, root := u.root } := by
  obtain ⟨t, hstage, hframe⟩ := buildStage_frame s
  rw [hstage, ends_done] at h
  subst h
  exact hframe

theorem packStage_writes (h : (packStage s).Ends u) : u = { s with pk := u.pk, pkLen := u.pkLen } := by
  rw [packStage_eq, ends_done] at h
  subst h
  rfl

theorem unpackStage_writes (h : (unpackStage s).Ends u) :
    u = { s with enc := u.enc, encLen := u.encLen, errCode := u.errCode, errInfo := u.errInfo } := by
  rcases unpackStage_cases s with ⟨-, hstage⟩ | ⟨-, -, hstage⟩ | ⟨-, -, -, -, ⟨-, hstage⟩ | ⟨-, hstage⟩⟩ <;>
    rw [hstage] at h
  case inl | inr.inr.inr =>
    rw [ends_done] at h
    subst h
    rfl
  all_goals
    rw [ends_raise] at h
    subst h
    unfold State.record
    split <;> rfl

/-- `t` differs from `s` at most in what the five stages of the encoder write. -/
def EncoderWrites (s t : State) : Prop :=
  t = { s with
    errCode := t.errCode, errInfo := t.errInfo, freq := t.freq, node := t.node, nNodes := t.nNodes, root := t.root,
    codeLen := t.codeLen, codeBits := t.codeBits, enc := t.enc, encLen := t.encLen, pk := t.pk, pkLen := t.pkLen }

/-- `t` differs from `s` at most in what the two stages of the decoder write. -/
def DecoderWrites (s t : State) : Prop :=
  t = { s with
    errCode := t.errCode, errInfo := t.errInfo, enc := t.enc, encLen := t.encLen, dec := t.dec, decLen := t.decLen }

/-- A relation that both stages keep to, one after the other. -/
theorem andThen_ends_trans {R : State → State → Prop} {g : Stage} {f : State → Stage} {t : State}
    (htrans : ∀ {u v}, R s u → R u v → R s v) (hg : ∀ {u}, g.Ends u → R s u) (hf : ∀ {u v}, (f u).Ends v → R u v)
    (h : (g.andThen f).Ends t) : R s t := by
  rcases andThen_ends h with hraised | ⟨u, hdone, hend⟩
  · exact hg (.inr hraised)
  · exact htrans (hg (.inl hdone)) (hf hend)

theorem encoderWrites_trans {t : State} (h : EncoderWrites s u) (h' : EncoderWrites u t) : EncoderWrites s t := by
  unfold EncoderWrites at *
  rw [h', h]

theorem decoderWrites_trans {t : State} (h : DecoderWrites s u) (h' : DecoderWrites u t) : DecoderWrites s t := by
  unfold DecoderWrites at *
  rw [h', h]

theorem encoderStages_writes {t : State} (h : (encoderStages s).Ends t) : EncoderWrites s t := by
  refine andThen_ends_trans encoderWrites_trans (fun h => ?_) (fun h => ?_) h
  refine andThen_ends_trans encoderWrites_trans (fun h => ?_) (fun h => ?_) h
  refine andThen_ends_trans encoderWrites_trans (fun h => ?_) (fun h => ?_) h
  refine andThen_ends_trans encoderWrites_trans (fun h => ?_) (fun h => ?_) h
  all_goals unfold EncoderWrites
  · rw [analyzeStage_writes h]
  · rw [buildStage_writes h]
  · rw [(assignStage_frame h).2]
  · rw [encodeLoop_frame h]
  · rw [packStage_writes h]

theorem expandStage_writes {t : State} (h : (expandStage s).Ends t) : DecoderWrites s t := by
  refine andThen_ends_trans decoderWrites_trans (fun h => ?_) (fun h => ?_) h
  all_goals unfold DecoderWrites
  · rw [unpackStage_writes h]
  · rw [decodeLoop_frame h]

/-- `COMPRESS` takes the short circuit exactly on an empty input: 45_control.md R140. -/
theorem compressStage_cases (h : (compressStage s).Ends u) :
    (s.inLen = 0#32 ∧ u = shortCircuit s) ∨ (s.inLen ≠ 0#32 ∧ EncoderWrites (s.setEmpty false) u) := by
  rw [compressStage] at h
  split at h
  next hlen => exact .inl ⟨hlen, (ends_done _ _).mp h⟩
  next hlen => exact .inr ⟨hlen, encoderStages_writes h⟩

end

/-- Settles O52: each command ends where its stage ends, which writes what its loops write. -/
theorem commandsWriteOnlyTheirOutputs : Obligations.CommandsWriteOnlyTheirOutputs := by
  intro i s t h
  rcases exec_ends h with ⟨-, rfl⟩ | ⟨u, hend, rfl⟩
  · simp
  cases i with
  | nop =>
    rw [(ends_done s u).mp hend]
    simp
  | analyze =>
    rw [analyzeStage_writes hend]
    simp
  | build =>
    rw [buildStage_writes hend]
    simp
  | assign =>
    rw [(assignStage_frame hend).2]
    simp
  | encode =>
    rw [encodeLoop_frame hend]
    simp
  | pack =>
    rw [packStage_writes hend]
    simp
  | unpack =>
    rw [unpackStage_writes hend]
    simp
  | decode =>
    rw [decodeLoop_frame hend]
    simp
  | compress =>
    rcases compressStage_cases hend with ⟨-, rfl⟩ | ⟨-, hframe⟩
    · simp
    · rw [hframe]
      simp
  | expand =>
    rw [expandStage_writes hend]
    simp
  | clrerr =>
    rw [(ends_done s.clearError u).mp hend]
    simp
  | reset =>
    rw [(ends_done s.softReset u).mp hend]
    simp

/-! ### The bits of `STATUS`: 10_state.md R25, R26 -/

theorem getLsbD_statusWord (s : State) (i : Nat) :
    s.statusWord.getLsbD i =
      if i = 0 then s.busy else if i = 1 then s.errFlag else if i = 2 then s.empty else false := by
  rcases Nat.lt_or_ge i 3 with hi | hi
  · unfold State.statusWord
    generalize s.busy = busy, s.errFlag = err, s.empty = empty
    revert i
    revert busy err empty
    decide
  · have hlt : s.busy.toNat + 2 * s.errFlag.toNat + 4 * s.empty.toNat < 2 ^ i := by
      have hpow : 2 ^ 3 ≤ 2 ^ i := Nat.pow_le_pow_right (by decide) hi
      have hb := Bool.toNat_le s.busy
      have he := Bool.toNat_le s.errFlag
      have hm := Bool.toNat_le s.empty
      omega
    rw [State.statusWord, BitVec.getLsbD_ofNat, Nat.testBit_lt_two_pow hlt, Bool.and_false, if_neg (by omega),
      if_neg (by omega), if_neg (by omega)]

theorem errCodeWord_of_some {s : State} {e : ErrorCode} (h : s.errCode = some e) :
    s.errCodeWord = BitVec.ofNat 32 e.number := by
  rw [State.errCodeWord, h]

/-- `ERR` is 1 exactly when `ERR_CODE` is not 0: every fault has a number of its own, none of them 0. -/
theorem errFlag_iff (s : State) : s.errFlag = true ↔ s.errCodeWord ≠ 0#32 := by
  unfold State.errFlag State.errCodeWord
  cases s.errCode with
  | none => decide
  | some e => cases e <;> decide

theorem empty_of_exec_compress {s t : State} (hquiet : s.errCode = none) (h : exec .compress s = .next t) :
    t.empty = true ↔ s.inLen = 0#32 := by
  rcases exec_ends h with ⟨hfault, -⟩ | ⟨u, hend, rfl⟩
  · exact absurd hquiet hfault
  · rcases compressStage_cases hend with ⟨hlen, rfl⟩ | ⟨hlen, hframe⟩
    · exact iff_of_true rfl hlen
    · have hempty : u.empty = false := congrArg State.empty hframe
      rw [complete_empty, hempty]
      exact iff_of_false Bool.false_ne_true hlen

/-- Settles O8: the word is read bit by bit, the numbers off the table of R170, and the writers off the stages. -/
theorem statusBitsAndWriters : Obligations.StatusBitsAndWriters := by
  refine ⟨fun s => ⟨getLsbD_statusWord s 0, ?_, getLsbD_statusWord s 2, fun i hi => ?_⟩, fun s => ?_,
    fun i s t h => ⟨busy_of_exec h, fun hcompress hreset => ?_, ?_, ?_⟩⟩
  · rw [getLsbD_statusWord, ← errFlag_iff]
    rfl
  · rw [getLsbD_statusWord, if_neg (by omega), if_neg (by omega), if_neg (by omega)]
  · exact ⟨fun h => by rw [State.errCodeWord, h], errCodeWord_of_some, errCodeWord_of_some, errCodeWord_of_some,
      errCodeWord_of_some, errCodeWord_of_some, errCodeWord_of_some, errCodeWord_of_some⟩
  · obtain ⟨-, -, hempty, -⟩ := commandsWriteOnlyTheirOutputs i s t h
    exact hempty (by simp [hcompress, hreset])
  · rintro rfl hquiet
    exact empty_of_exec_compress hquiet h
  · rintro rfl
    cases h
    rfl

/-! ### What the loops of `ENCODE` and `DECODE` keep -/

/-- What every code written keeps holds where the loop ends: with `ENC_LEN` written, and a fault recorded if it
raises. -/
theorem encodeLoop_induction {P : Nat → State → Prop}
    (hput : ∀ {e s x}, P e s → e + (s.codeLenAt x).toNat ≤ s.cfg.encCapacity →
      P (e + (s.codeLenAt x).toNat) (s.putEnc e (s.code x)))
    {l : List Nat} {e : Nat} {s t : State} (h : P e s) (hend : (encodeLoop l e s).Ends t) :
    ∃ e' u, P e' u ∧ (t = u.setEncLen e' ∨
      ∃ err info, err ≠ .invalidPadding ∧ t = (u.setEncLen e').record err info) := by
  induction l generalizing e s with
  | nil => exact ⟨e, s, h, .inl ((ends_done _ _).mp hend)⟩
  | cons i l ih =>
    by_cases hcode : (s.codeLenAt (s.inAt i)).toNat = 0
    · rw [encodeLoop_cons_of_no_code l e hcode, ends_raise] at hend
      exact ⟨e, s, h, .inr ⟨.noCode, _, by decide, hend⟩⟩
    by_cases hfull : e + (s.codeLenAt (s.inAt i)).toNat > s.cfg.encCapacity
    · rw [encodeLoop_cons_of_overfull l hcode hfull, ends_raise] at hend
      exact ⟨e, s, h, .inr ⟨.capacity, _, by decide, hend⟩⟩
    · rw [encodeLoop_cons_of_fits l hcode hfull] at hend
      exact ih (hput h (Nat.le_of_not_lt hfull)) hend

/-- What every symbol written keeps holds where the scan ends: with `DEC_LEN` written, and a fault recorded if it
raises. -/
theorem decodeLoop_induction {P : Nat → State → Prop}
    (hput : ∀ {d s x}, P d s → d ≠ s.cfg.decCapacity → P (d + 1) (s.putDec d x))
    {l : List Nat} {d : Nat} {cand : List Bool} {s t : State} (h : P d s) (hend : (decodeLoop l d cand s).Ends t) :
    ∃ d' u, P d' u ∧ (t = u.setDecLen d' ∨
      ∃ err info, err ≠ .invalidPadding ∧ t = (u.setDecLen d').record err info) := by
  induction l generalizing d cand s with
  | nil =>
    rw [decodeLoop] at hend
    split at hend
    · exact ⟨d, s, h, .inr ⟨.truncatedStream, _, by decide, (ends_raise ..).mp hend⟩⟩
    · exact ⟨d, s, h, .inl ((ends_done _ _).mp hend)⟩
  | cons p l ih =>
    cases hmatch : s.matchCode (cand ++ [s.encAt p]) with
    | none =>
      rw [decodeLoop_cons_of_no_match l hmatch] at hend
      exact ih h hend
    | some x =>
      by_cases hfull : d = s.cfg.decCapacity
      · rw [decodeLoop_cons_of_full l hmatch hfull, ends_raise] at hend
        exact ⟨d, s, h, .inr ⟨.capacity, _, by decide, hend⟩⟩
      · rw [decodeLoop_cons_of_room l hmatch hfull] at hend
        exact ih (hput h hfull) hend

/-! ### The fault that no step records: 46_laws.md R160 -/

/-- `INVALID_PADDING` is not the recorded fault. -/
def NoPadding (s : State) : Prop := s.errCode ≠ some .invalidPadding

section
variable {s u : State}

theorem noPadding_record {e : ErrorCode} {info : Word} (he : e ≠ .invalidPadding) (h : NoPadding s) :
    NoPadding (s.record e info) := by
  unfold NoPadding
  rw [record_errCode]
  split
  · exact fun heq => he (Option.some.inj heq)
  · exact h

theorem noPadding_raise {e : ErrorCode} {info : Nat} (he : e ≠ .invalidPadding) (h : NoPadding s)
    (hend : (raise e info s).Ends u) : NoPadding u := by
  rw [ends_raise] at hend
  exact hend ▸ noPadding_record he h

theorem noPadding_encodeStage (h : NoPadding s) (hend : (encodeStage s).Ends u) : NoPadding u := by
  obtain ⟨e, v, hv, rfl | ⟨err, info, herr, rfl⟩⟩ :=
    encodeLoop_induction (P := fun _ s => NoPadding s) (fun h _ => h) h hend
  · exact hv
  · exact noPadding_record herr hv

theorem noPadding_unpackStage (h : NoPadding s) (hend : (unpackStage s).Ends u) : NoPadding u := by
  rcases unpackStage_cases s with ⟨-, hstage⟩ | ⟨-, -, hstage⟩ | ⟨-, -, -, -, ⟨-, hstage⟩ | ⟨-, hstage⟩⟩ <;>
    rw [hstage] at hend
  · exact (ends_done _ _).mp hend ▸ h
  · exact noPadding_raise (by decide) h hend
  · exact noPadding_raise (by decide) h hend
  · exact (ends_done _ _).mp hend ▸ h

theorem noPadding_decodeStage (h : NoPadding s) (hend : (decodeStage s).Ends u) : NoPadding u := by
  obtain ⟨d, v, hv, rfl | ⟨err, info, herr, rfl⟩⟩ :=
    decodeLoop_induction (P := fun _ s => NoPadding s) (fun h _ => h) h hend
  · exact hv
  · exact noPadding_record herr hv

end

/-- A stage keeps a property if every state it ends in has it. -/
def Keeps (P : State → Prop) (body : State → Stage) : Prop := ∀ s u, P s → (body s).Ends u → P u

theorem keeps_andThen {P : State → Prop} {body f : State → Stage} (hbody : Keeps P body) (hf : Keeps P f) :
    Keeps P fun s => (body s).andThen f := by
  intro s t hs h
  rcases andThen_ends h with hraised | ⟨u, hdone, hend⟩
  · exact hbody s t hs (.inr hraised)
  · exact hf u t (hbody s u hs (.inl hdone)) hend

theorem keeps_encoderStages {P : State → Prop} (hanalyze : Keeps P analyzeStage) (hbuild : Keeps P buildStage)
    (hassign : Keeps P assignStage) (hencode : Keeps P encodeStage) (hpack : Keeps P packStage) :
    Keeps P encoderStages :=
  keeps_andThen (keeps_andThen (keeps_andThen (keeps_andThen hanalyze hbuild) hassign) hencode) hpack

theorem keeps_compressStage {P : State → Prop} (hshort : ∀ s, P s → P (shortCircuit s))
    (hempty : ∀ s, P s → P (s.setEmpty false)) (hstages : Keeps P encoderStages) : Keeps P compressStage := by
  intro s u hs h
  rw [compressStage] at h
  split at h
  · exact (ends_done _ _).mp h ▸ hshort s hs
  · exact hstages _ u (hempty s hs) h

/-- A property that survives the end of `BUSY` and every stage survives every command. -/
theorem exec_keeps {P : State → Prop} {i : Instr} {s t : State} (hcomplete : ∀ s, P s → P s.complete)
    (hstage : Keeps P (stageOf i)) (hs : P s) (h : exec i s = .next t) : P t := by
  rcases exec_ends h with ⟨-, rfl⟩ | ⟨u, hend, rfl⟩
  · exact hcomplete s hs
  · exact hcomplete u (hstage s u hs hend)

/-- A property that the core and the outside world keep is kept by every step. -/
theorem step_keeps {P : State → Prop} (hcomplete : ∀ s, P s → P s.complete) (hstage : ∀ i, Keeps P (stageOf i))
    (hillegal : ∀ info, Keeps P (raise .badCommand info)) (hact : ∀ a s, P s → P (act a s))
    (hrest : ∀ s rest, P s → P { s with hostIn := rest }) {s t : State} (hs : P s) (h : step s = .next t) : P t := by
  rcases step_cases s with ⟨-, -, hcore⟩ | ⟨-, hhost⟩
  · rw [hcore] at h
    cases hdecode : decode s.pending with
    | ok i => exact exec_keeps hcomplete (hstage i) hs ((coreStep_of_legal hdecode).symm.trans h)
    | error r =>
      rcases runCommand_eq_next ((coreStep_of_illegal hdecode).symm.trans h) with ⟨-, rfl⟩ | ⟨-, u, hend, rfl⟩
      · exact hcomplete s hs
      · exact hcomplete u (hillegal _ s u hs hend)
  · rw [hhost] at h
    cases h
    cases hin : s.hostIn with
    | nil =>
      simp only [hostStep, hin]
      exact hs
    | cons ev rest =>
      rw [hostStep_of_cons hin]
      exact hact ev.action _ (hrest s rest hs)

theorem noPadding_stageOf (i : Instr) : Keeps NoPadding (stageOf i) := by
  have hanalyze : Keeps NoPadding analyzeStage := fun s u h hend => (ends_done _ _).mp hend ▸ h
  have hbuild : Keeps NoPadding buildStage := fun s u h hend => by
    unfold NoPadding
    rw [buildStage_writes hend]
    exact h
  have hassign : Keeps NoPadding assignStage := fun s u h hend => by
    unfold NoPadding
    rw [(assignStage_frame hend).2]
    exact h
  have hencode : Keeps NoPadding encodeStage := fun s u h hend => noPadding_encodeStage h hend
  have hpack : Keeps NoPadding packStage := fun s u h hend => by
    unfold NoPadding
    rw [packStage_writes hend]
    exact h
  have hunpack : Keeps NoPadding unpackStage := fun s u h hend => noPadding_unpackStage h hend
  have hdecode : Keeps NoPadding decodeStage := fun s u h hend => noPadding_decodeStage h hend
  cases i with
  | nop => exact fun s u h hend => (ends_done _ _).mp hend ▸ h
  | analyze => exact hanalyze
  | build => exact hbuild
  | assign => exact hassign
  | encode => exact hencode
  | pack => exact hpack
  | unpack => exact hunpack
  | decode => exact hdecode
  | compress =>
    exact keeps_compressStage (fun _ h => h) (fun _ h => h)
      (keeps_encoderStages hanalyze hbuild hassign hencode hpack)
  | expand => exact keeps_andThen hunpack hdecode
  | clrerr | reset => exact fun s u _ hend => (ends_done _ _).mp hend ▸ nofun

/-- All a host action does: a hardware reset, a legal write, or at most a record of `BAD_ACCESS` and an answer. -/
theorem act_cases (a : HostAction) (s : State) :
    (a = .hardReset ∧ act a s = s.hardReset) ∨
    (∃ space i v, writeElement s space i v = some (act a s) ∧ i < indexCount s.cfg space) ∨
    ∃ u, (u = s ∨ ∃ info, u = s.record .badAccess info) ∧ (act a s = u ∨ ∃ v, act a s = u.answer v) := by
  cases a with
  | hardReset => exact .inl ⟨rfl, rfl⟩
  | read n i =>
    refine .inr (.inr ?_)
    cases hread : hostRead s n i with
    | some v => exact ⟨s, .inl rfl, .inr ⟨v, by simp only [act, hread]⟩⟩
    | none => exact ⟨_, .inr ⟨accessInfo n i, rfl⟩, .inr ⟨0#32, by simp only [act, hread]⟩⟩
  | write n i v =>
    cases hwrite : hostWrite s n i v with
    | none => exact .inr (.inr ⟨_, .inr ⟨accessInfo n i, rfl⟩, .inl (by simp only [act, hwrite])⟩)
    | some t =>
      refine .inr (.inl ?_)
      cases ht : readTarget s.cfg n i with
      | none => simp [hostWrite, ht] at hwrite
      | some space =>
        obtain ⟨-, hi⟩ := (readTarget_eq_some_iff s.cfg n i space).mp ht
        refine ⟨space, i.toNat, v, ?_, hi⟩
        simp only [hostWrite, ht] at hwrite
        simp only [act, hostWrite, ht, hwrite]

theorem noPadding_act {s : State} (a : HostAction) (h : NoPadding s) : NoPadding (act a s) := by
  rcases act_cases a s with ⟨-, hact⟩ | ⟨space, i, v, hwrite, -⟩ | ⟨u, hu, hact⟩
  · rw [hact]
    exact nofun
  · unfold NoPadding
    rw [(sameFault_writeElement hwrite).1]
    exact h
  · have hrecord : NoPadding u := by
      rcases hu with rfl | ⟨info, rfl⟩
      · exact h
      · exact noPadding_record (by decide) h
    rcases hact with hact | ⟨v, hact⟩ <;> rw [hact] <;> exact hrecord

/-- Settles O12: no stage raises it, `PACK`'s check being always met, and the host's accesses raise `BAD_ACCESS`. -/
theorem invalidPaddingNeverRecorded : Obligations.InvalidPaddingNeverRecorded :=
  fun _ _ => step_keeps (P := NoPadding) (fun _ h => h) noPadding_stageOf
    (fun _ _ _ h hend => noPadding_raise (by decide) h hend) (fun a _ h => noPadding_act a h) fun _ _ h => h

end Sys2Proof.Machine
end

section
/-! Proofs about the invariant of every state, and that a command with it always ends. -/

namespace Sys2Proof.Machine

/-! ### The canonical form of what is written -/

theorem risingFrom_map_range' {α : Type} (v : α) (n lo : Nat) :
    Memory.risingFrom lo ((List.range' lo n).map fun i => (i, v)) = true := by
  induction n generalizing lo with
  | zero => rfl
  | succ n ih =>
    rw [List.range'_succ, List.map_cons, Memory.risingFrom, ih, Bool.and_true]
    exact decide_eq_true (Nat.le_refl lo)

theorem zeroCodeWords_wf : zeroCodeWords.wf 2048 = true := by
  unfold zeroCodeWords
  rw [Memory.wf, List.range_eq_range', risingFrom_map_range', Bool.true_and, List.all_map, List.all_eq_true]
  intro i hi
  rw [← List.range_eq_range'] at hi
  exact decide_eq_true (List.mem_range.mp hi)

theorem setCode_codeBits_wf {s : State} (x : Byte) (p : List Bool) (h : s.codeBits.wf 2048 = true) :
    (s.setCode x p).codeBits.wf 2048 = true := by
  have hx := x.isLt
  exact wf_putList (by rw [codeWords_length]; omega) h

theorem setCodes_codeBits_wf {l : List (Byte × List Bool)} {s : State} (h : s.codeBits.wf 2048 = true) :
    (s.setCodes l).codeBits.wf 2048 = true := by
  induction l generalizing s with
  | nil => exact h
  | cons e l ih =>
    rw [setCodes_cons]
    exact ih (setCode_codeBits_wf e.1 e.2 h)

theorem buildLeaves_node_wf {l : List Byte} {n : Nat} {s : State} (hl : n + l.length ≤ 511)
    (h : s.node.wf 511 = true) : (buildLeaves l n s).2.node.wf 511 = true := by
  induction l generalizing n s with
  | nil => exact h
  | cons x l ih =>
    rw [List.length_cons] at hl
    by_cases hx : s.freqAt x = 0#24
    · rw [buildLeaves_cons_of_absent hx]
      exact ih (by omega) h
    · rw [buildLeaves_cons_of_present hx]
      exact ih (by omega) (wf_put _ (by omega) h)

theorem buildStage_node_wf {s u : State} (h : s.node.wf 511 = true) (hend : (buildStage s).Ends u) :
    u.node.wf 511 = true := by
  have hleaves := buildLeaves_node_wf (l := symbols) (n := 0) (by rw [symbols_length]; decide) h
  obtain ⟨q, m, s2, hmerge, -, -, hwf⟩ := mergeLoop_induction
    (P := fun q m s' => Merging s.present.length q m s' ∧ s'.node.wf 511 = true)
    (fun hP ha hb => by
      have hle := present_length_le s
      have hsize := hP.1.size
      have hlen1 := length_of_popMin ha
      have hlen2 := length_of_popMin hb
      exact ⟨merging_step hle hP.1 ha hb, wf_put _ (by omega) hP.2⟩)
    List.length_range.le ⟨merging_leaves s.present.length (buildLeaves symbols 0 s).2, hleaves⟩
  simp only [buildStage, buildLeaves_symbols_count, hmerge, ends_done] at hend
  subst hend
  exact hwf

/-! ### The tree invariant: 10_state.md R36 -/

theorem treeShape_congr {s t : State} {n : Nat} (hnNodes : t.nNodes = s.nNodes) (hroot : t.root = s.root)
    (hnode : ∀ k, t.nodeAt k = s.nodeAt k) (h : TreeShape s n) : TreeShape t n := by
  have hlinks : t.childHandles n = s.childHandles n := linksUpTo_congr fun k _ => hnode k
  obtain ⟨hpos, hle, hlen, hr, hleaves, hasc, hinner, hone, hnone⟩ := h
  refine ⟨hpos, hle, by rwa [hnNodes], by rwa [hroot], ?_, ?_, ?_, by rwa [hlinks], by rwa [hlinks]⟩
  · simpa only [hnode] using hleaves
  · simpa only [hnode] using hasc
  · simpa only [hnode] using hinner

theorem treeOK_congr {s t : State} (h : TreeOK s) (hnNodes : t.nNodes = s.nNodes := by rfl)
    (hroot : t.root = s.root := by rfl) (hnode : ∀ k, t.nodeAt k = s.nodeAt k := by exact fun _ => rfl) : TreeOK t := by
  rcases h with ⟨hzero, hnil⟩ | ⟨n, hshape⟩
  · exact .inl ⟨hnNodes.trans hzero, hroot.trans hnil⟩
  · exact .inr ⟨n, treeShape_congr hnNodes hroot hnode hshape⟩

theorem treeOK_buildStage {s u : State} (hend : (buildStage s).Ends u) : TreeOK u := by
  by_cases hpresent : s.present = []
  · have habsent := buildLeaves_of_absent (l := symbols) 0 fun x _ => freqAt_of_present_eq_nil hpresent x
    simp only [buildStage, habsent, ends_done] at hend
    subst hend
    exact .inl ⟨rfl, rfl⟩
  · obtain ⟨s2, hstage, hrecords⟩ := buildStage_of_present hpresent
    rw [hstage, ends_done] at hend
    subst hend
    exact .inr ⟨_, treeShape_of_mergedRecords hpresent hrecords (fun _ => rfl) (setTree_nNodes_of_present s s2)
      (setTree_root_of_present s s2)⟩

/-! ### The invariant after each update of the state -/

section
variable {s : State} (h : Inv s)
include h

theorem inv_complete : Inv s.complete :=
  { h with tree := treeOK_congr h.tree }

theorem inv_setEmpty (b : Bool) : Inv (s.setEmpty b) :=
  { h with tree := treeOK_congr h.tree }

theorem inv_clearError : Inv s.clearError :=
  { h with errInfo := fun _ => rfl, padding := nofun, tree := treeOK_congr h.tree }

theorem inv_softReset : Inv s.softReset :=
  { h with
    inLen := Nat.zero_le _, encLen := Nat.zero_le _, pkLen := Nat.zero_le _, decLen := Nat.zero_le _
    errInfo := fun _ => rfl, padding := nofun, tree := .inl ⟨rfl, rfl⟩ }

theorem inv_shortCircuit : Inv (shortCircuit s) :=
  { h with
    encLen := Nat.zero_le _, pkLen := Nat.zero_le _, tree := .inl ⟨rfl, rfl⟩, codeBits := zeroCodeWords_wf }

theorem inv_record {e : ErrorCode} (he : e ≠ .invalidPadding) (info : Word) : Inv (s.record e info) := by
  by_cases hquiet : s.errCode = none
  · rw [record_of_quiet e info hquiet]
    exact { h with
      errInfo := nofun, padding := fun heq => he (Option.some.inj heq)
      tree := treeOK_congr h.tree }
  · rwa [record_of_fault e info hquiet]

theorem inv_setEncLen {e : Nat} (he : e ≤ s.cfg.encCapacity) : Inv (s.setEncLen e) :=
  { h with
    encLen := (BitVec.toNat_ofNat e 32 ▸ Nat.mod_le e _ : _ ≤ e).trans he
    tree := treeOK_congr h.tree }

theorem inv_putEnc {p : Nat} {bits : List Bool} (hp : p + bits.length ≤ s.cfg.encCapacity) : Inv (s.putEnc p bits) :=
  { h with enc := wf_putList hp h.enc, tree := treeOK_congr h.tree }

theorem inv_setDecLen {d : Nat} (hd : d ≤ s.cfg.decCapacity) : Inv (s.setDecLen d) :=
  { h with
    decLen := (BitVec.toNat_ofNat d 32 ▸ Nat.mod_le d _ : _ ≤ d).trans hd
    tree := treeOK_congr h.tree }

theorem inv_putDec {d : Nat} (x : Byte) (hd : d < s.cfg.decCapacity) : Inv (s.putDec d x) :=
  { h with dec := wf_put x hd h.dec, tree := treeOK_congr h.tree }

theorem inv_answer (v : Word) : Inv (s.answer v) :=
  { h with tree := treeOK_congr h.tree }

theorem inv_hostIn (rest : List HostEvent) : Inv { s with hostIn := rest } :=
  { h with tree := treeOK_congr h.tree }

end

/-! ### The invariant after each stage -/

theorem inv_raise {e : ErrorCode} (he : e ≠ .invalidPadding) (info : Nat) : Keeps Inv (raise e info) := by
  intro s u h hend
  rw [ends_raise] at hend
  exact hend ▸ inv_record h he _

theorem inv_analyzeStage : Keeps Inv analyzeStage := by
  intro s u h hend
  rw [analyzeStage, ends_done] at hend
  subst hend
  exact { h with tree := treeOK_congr h.tree }

theorem inv_buildStage : Keeps Inv buildStage := by
  intro s u h hend
  have htree := treeOK_buildStage hend
  have hnode := buildStage_node_wf h.node hend
  rw [buildStage_writes hend] at htree ⊢
  exact { h with tree := htree, node := hnode }

/-- `ASSIGN` empties the code table and writes codes to it, or gets stuck. -/
theorem assignStage_codeBits_wf {s u : State} (htree : TreeOK s) (hend : (assignStage s).Ends u) :
    u.codeBits.wf 2048 = true := by
  rcases root_of_treeOK htree with hroot | ⟨t, ht, hheight⟩
  · rw [assignStage_of_no_root hroot, ends_done] at hend
    subst hend
    exact zeroCodeWords_wf
  · rw [assignStage_of_holdsTree ht hheight, ends_done] at hend
    subst hend
    exact setCodes_codeBits_wf zeroCodeWords_wf

theorem inv_assignStage : Keeps Inv assignStage := by
  intro s u h hend
  have hbits := assignStage_codeBits_wf h.tree hend
  rw [(assignStage_frame hend).2]
  exact { h with codeBits := hbits, tree := treeOK_congr h.tree }

theorem inv_encodeStage : Keeps Inv encodeStage := by
  intro s u h hend
  obtain ⟨e, v, ⟨hv, he⟩, hu⟩ := encodeLoop_induction (P := fun e s => Inv s ∧ e ≤ s.cfg.encCapacity)
    (fun hP hfits => ⟨inv_putEnc hP.1 (by rwa [code_length]), hfits⟩) ⟨h, Nat.zero_le _⟩ hend
  have hlen := inv_setEncLen hv he
  rcases hu with rfl | ⟨err, info, herr, rfl⟩
  · exact hlen
  · exact inv_record hlen herr info

/-- The artifact of at most `ENC_CAP` bits fits `PK`: 43_bit_packer.md R120. -/
theorem inv_packStage : Keeps Inv packStage := by
  intro s u h hend
  rw [packStage_eq, ends_done] at hend
  subst hend
  have hfits : s.encLen.toNat / 8 + 2 ≤ s.cfg.pkCapacity := by
    have henc := h.encLen
    unfold Config.encCapacity at henc
    unfold Config.pkCapacity
    omega
  exact { h with
    pkLen := (BitVec.toNat_ofNat (s.encLen.toNat / 8 + 2) 32 ▸ Nat.mod_le _ _ : _ ≤ s.encLen.toNat / 8 + 2).trans hfits
    pk := wf_putList (by
      rw [Nat.zero_add, List.length_cons, List.length_map, List.length_range]
      exact hfits) h.pk
    tree := treeOK_congr h.tree }

theorem inv_unpackStage : Keeps Inv unpackStage := by
  intro s u h hend
  rcases unpackStage_cases s with ⟨-, hstage⟩ | ⟨-, -, hstage⟩ | ⟨-, -, -, -, ⟨-, hstage⟩ | ⟨hfits, hstage⟩⟩ <;>
    rw [hstage] at hend
  · exact (ends_done _ _).mp hend ▸ inv_setEncLen h (Nat.zero_le _)
  · exact inv_raise (by decide) _ s u h hend
  · exact inv_raise (by decide) _ s u h hend
  · refine (ends_done _ _).mp hend ▸ inv_setEncLen (inv_putEnc h (p := 0) ?_) hfits
    rw [List.length_map, List.length_range]
    omega

theorem inv_decodeStage : Keeps Inv decodeStage := by
  intro s u h hend
  obtain ⟨d, v, ⟨hv, hd⟩, hu⟩ := decodeLoop_induction (P := fun d s => Inv s ∧ d ≤ s.cfg.decCapacity)
    (fun hP hroom => ⟨inv_putDec hP.1 _ (Nat.lt_of_le_of_ne hP.2 hroom), Nat.lt_of_le_of_ne hP.2 hroom⟩)
    ⟨h, Nat.zero_le _⟩ hend
  have hlen := inv_setDecLen hv hd
  rcases hu with rfl | ⟨err, info, herr, rfl⟩
  · exact hlen
  · exact inv_record hlen herr info

theorem inv_stageOf (i : Instr) : Keeps Inv (stageOf i) := by
  cases i with
  | nop => exact fun s u h hend => (ends_done _ _).mp hend ▸ h
  | analyze => exact inv_analyzeStage
  | build => exact inv_buildStage
  | assign => exact inv_assignStage
  | encode => exact inv_encodeStage
  | pack => exact inv_packStage
  | unpack => exact inv_unpackStage
  | decode => exact inv_decodeStage
  | compress =>
    exact keeps_compressStage (fun _ h => inv_shortCircuit h) (fun _ h => inv_setEmpty h false)
      (keeps_encoderStages inv_analyzeStage inv_buildStage inv_assignStage inv_encodeStage inv_packStage)
  | expand => exact keeps_andThen inv_unpackStage inv_decodeStage
  | clrerr => exact fun s u h hend => (ends_done _ _).mp hend ▸ inv_clearError h
  | reset => exact fun s u h hend => (ends_done _ _).mp hend ▸ inv_softReset h

/-! ### The invariant after a host action -/

theorem inv_resetOf {c : Config} (h : c.wf = true) : Inv (State.resetOf c) where
  cfg := h
  inLen := Nat.zero_le _
  encLen := Nat.zero_le _
  pkLen := Nat.zero_le _
  decLen := Nat.zero_le _
  errInfo _ := rfl
  padding := nofun
  tree := .inl ⟨rfl, rfl⟩
  inMem := rfl
  node := rfl
  codeBits := rfl
  enc := rfl
  pk := rfl
  dec := rfl

/-- Settles O54: every register is 0, `NIL` or clear, and no memory lists an element. -/
theorem resetMeetsInvariant : Obligations.ResetMeetsInvariant :=
  ⟨fun _ h => inv_resetOf h, inv_resetOf (by decide), by decide⟩

theorem inv_hardReset {s : State} (h : Inv s) : Inv s.hardReset :=
  { inv_resetOf h.cfg with tree := .inl ⟨rfl, rfl⟩ }

theorem inv_writeCsr {s t : State} {i : Nat} {v : Word} (h : Inv s) (hw : writeCsr s i v = some t) : Inv t := by
  unfold writeCsr at hw
  split at hw
  case h_1 =>
    cases hw
    exact { h with tree := treeOK_congr h.tree }
  case h_5 => cases hw
  all_goals
    obtain ⟨hv, hw⟩ := Option.ite_none_right_eq_some.mp hw
    cases hw
  · exact { h with inLen := hv, tree := treeOK_congr h.tree }
  · exact { h with encLen := hv, tree := treeOK_congr h.tree }
  · exact { h with pkLen := hv, tree := treeOK_congr h.tree }

/-- A legal access stays within its memory: 20_memory.md R50. -/
theorem inv_writeElement {s t : State} {space : Space} {i : Nat} {v : Word} (h : Inv s)
    (hi : i < indexCount s.cfg space) (hw : writeElement s space i v = some t) : Inv t := by
  cases space
  case csr => exact inv_writeCsr h hw
  case nodeFreq | nodeLink | nodeSym | dec => cases hw
  case codeBits =>
    cases hw
    exact { h with codeBits := wf_put v hi h.codeBits, tree := treeOK_congr h.tree }
  all_goals
    obtain ⟨-, hw⟩ := Option.ite_none_right_eq_some.mp hw
    cases hw
  case inp => exact { h with inMem := wf_put _ hi h.inMem, tree := treeOK_congr h.tree }
  case freq | codeLen => exact { h with tree := treeOK_congr h.tree }
  case enc =>
    refine inv_putEnc h ?_
    have hlt : i < s.cfg.inCap.toNat := hi
    rw [bits8_length, Config.encCapacity]
    omega
  case pk => exact { h with pk := wf_put _ hi h.pk, tree := treeOK_congr h.tree }

theorem inv_act {s : State} (a : HostAction) (h : Inv s) : Inv (act a s) := by
  rcases act_cases a s with ⟨-, hact⟩ | ⟨space, i, v, hwrite, hi⟩ | ⟨u, hu, hact⟩
  · rw [hact]
    exact inv_hardReset h
  · exact inv_writeElement h hi hwrite
  · have hrecord : Inv u := by
      rcases hu with rfl | ⟨info, rfl⟩
      · exact h
      · exact inv_record h (by decide) info
    rcases hact with hact | ⟨v, hact⟩ <;> rw [hact]
    · exact hrecord
    · exact inv_answer hrecord v

/-- Settles O53: every update a stage or a host action makes stays within the capacity that was checked for it, and only
`BUILD` writes records. -/
theorem everyStepKeepsInvariant : Obligations.EveryStepKeepsInvariant :=
  fun _ _ => step_keeps (P := Inv) (fun _ h => inv_complete h) inv_stageOf
    (fun info => inv_raise (by decide) info) (fun a _ h => inv_act a h) fun _ rest h => inv_hostIn h rest

/-! ### A pending command ends: 70_reset_and_hazards.md R199 -/

theorem exec_unpack_total {s : State} (h : s.errCode = none) : ∃ t, exec .unpack s = .next t := by
  rcases exec_unpack_cases h with ⟨-, hexec⟩ | ⟨-, -, hexec⟩ | ⟨-, -, -, hexec⟩ <;> exact ⟨_, hexec⟩

theorem exec_decode_total (s : State) : ∃ t, exec .decode s = .next t := by
  by_cases h : s.errCode = none
  · obtain ⟨u, hend⟩ := decodeLoop_ends (List.range s.encLen.toNat) 0 [] s
    exact ⟨u.complete, (runCommand_of_quiet decodeStage h).trans (finish_of_ends hend)⟩
  · exact ⟨_, runCommand_of_fault decodeStage h⟩

/-- With the tree invariant no command gets stuck. -/
theorem exec_total {s : State} (h : TreeOK s) (i : Instr) : ∃ t, exec i s = .next t := by
  by_cases hquiet : s.errCode = none
  swap
  · cases i
    case clrerr | reset => exact ⟨_, rfl⟩
    all_goals exact ⟨_, runCommand_of_fault _ hquiet⟩
  cases i with
  | nop => exact ⟨_, nopChangesNothing s⟩
  | analyze => exact ⟨_, exec_analyze_of_quiet hquiet⟩
  | build =>
    obtain ⟨t, hstage, -⟩ := buildStage_frame s
    exact ⟨_, runCommand_of_done hquiet hstage⟩
  | assign =>
    obtain ⟨t, hexec, -⟩ := exec_assign_prefixFree hquiet (root_of_treeOK h)
    exact ⟨t, hexec⟩
  | encode =>
    obtain ⟨t, hexec, -⟩ := exec_encode_keeps_code s
    exact ⟨t, hexec⟩
  | pack => exact ⟨_, exec_pack_of_quiet hquiet⟩
  | unpack => exact exec_unpack_total hquiet
  | decode => exact exec_decode_total s
  | compress =>
    obtain ⟨t, hexec, -⟩ := exec_compress_prefixFree hquiet
    exact ⟨t, hexec⟩
  | expand =>
    obtain ⟨t, hunpack⟩ := exec_unpack_total hquiet
    obtain ⟨u, hdecode⟩ := exec_decode_total t
    exact ⟨u, by rw [(expandFollowsStages s hquiet).1, execAll_cons_of_next hunpack, execAll_cons_of_next hdecode,
      execAll]⟩
  | clrerr | reset => exact ⟨_, rfl⟩

theorem coreStep_total {s : State} (h : TreeOK s) : ∃ t, coreStep s = .next t := by
  cases hdecode : decode s.pending with
  | ok i =>
    obtain ⟨t, hexec⟩ := exec_total h i
    exact ⟨t, (coreStep_of_legal hdecode).trans hexec⟩
  | error r =>
    rw [coreStep_of_illegal hdecode, execIllegal, runCommand]
    split <;> exact ⟨_, rfl⟩

theorem busy_of_coreStep {s t : State} (h : coreStep s = .next t) : t.busy = false := by
  cases hdecode : decode s.pending with
  | ok i => exact busy_of_exec ((coreStep_of_legal hdecode).symm.trans h)
  | error r =>
    rcases runCommand_eq_next ((coreStep_of_illegal hdecode).symm.trans h) with ⟨-, rfl⟩ | ⟨-, u, -, rfl⟩ <;> rfl

/-- The state after the host has read `STATUS`: 20_memory.md R53. -/
def State.statusRead (s : State) (rest : List HostEvent) : State :=
  { s with hostIn := rest, hostOut := s.statusWord :: s.hostOut }

theorem step_of_early_status_read {s : State} {rest : List HostEvent} (hbusy : s.busy = true)
    (hin : s.hostIn = ⟨true, .read 0#4 1#28⟩ :: rest) : step s = .next (s.statusRead rest) := by
  have hfirst : s.hostGoesFirst = true := by rw [State.hostGoesFirst, hin]; rfl
  rw [step, hbusy, hfirst, if_neg (by decide), hostStep_of_cons hin]
  rfl

theorem hostGoesFirst_of_other {s : State} {early : Bool} {a : HostAction} {rest : List HostEvent}
    (hin : s.hostIn = ⟨early, a⟩ :: rest) (hread : a ≠ .read 0#4 1#28) (hreset : a ≠ .hardReset) :
    s.hostGoesFirst = false := by
  have ha : completesWhileBusy a = false := by
    cases a with
    | read n i =>
      rw [completesWhileBusy, Bool.and_eq_false_iff, beq_eq_false_iff_ne, beq_eq_false_iff_ne]
      by_contra hboth
      rw [not_or, not_not, not_not] at hboth
      exact hread (by rw [hboth.1, hboth.2])
    | write n i v => rfl
    | hardReset => exact absurd rfl hreset
  rw [State.hostGoesFirst, hin]
  exact Bool.and_eq_false_imp.mpr fun _ => ha

/-- The host goes first with a `STATUS` read or a hardware reset marked early, and with nothing else. -/
theorem hostGoesFirst_cases (s : State) :
    s.hostGoesFirst = false ∨
    ∃ rest, s.hostIn = ⟨true, .read 0#4 1#28⟩ :: rest ∨ s.hostIn = ⟨true, .hardReset⟩ :: rest := by
  cases hin : s.hostIn with
  | nil => exact .inl (by rw [State.hostGoesFirst, hin])
  | cons ev rest =>
    obtain ⟨early, a⟩ := ev
    by_cases hread : a = .read 0#4 1#28
    · cases early with
      | false => exact .inl (by rw [State.hostGoesFirst, hin]; rfl)
      | true => exact .inr ⟨rest, .inl (by rw [hread])⟩
    by_cases hreset : a = .hardReset
    · cases early with
      | false => exact .inl (by rw [State.hostGoesFirst, hin]; rfl)
      | true => exact .inr ⟨rest, .inr (by rw [hreset])⟩
    · exact .inl (hostGoesFirst_of_other hin hread hreset)

/-- Settles O6: only a `STATUS` read and a hardware reset go before the core's step, and no command touches the
stream. -/
theorem pendingCommandHoldsAccesses : Obligations.PendingCommandHoldsAccesses := by
  intro s early a rest hbusy hin
  refine ⟨?_, fun hread hreset => ?_⟩
  · rintro rfl rfl
    exact ⟨step_of_early_status_read hbusy hin, (getLsbD_statusWord s 0).trans hbusy⟩
  · have hcore := step_of_busy hbusy (hostGoesFirst_of_other hin hread hreset)
    refine ⟨hcore, fun t hstep => ?_⟩
    rw [hcore] at hstep
    have hsame := sameOutside_coreStep hstep
    exact ⟨busy_of_coreStep hstep, hsame.hostIn, hsame.hostOut⟩

theorem run_succ_of_step {s t : State} (h : step s = .next t) (n : Nat) :
    Host.Core.run core (n + 1) s = Host.Core.run core n t := by
  have hstep : core.step s = .next t := h
  simp only [Host.Core.run, hstep]

/-- The claim of R199 about the state `s`, named for the induction over the stream. -/
def PendingEnds (s : State) : Prop :=
  ∃ (n : Nat) (u t : State), n ≤ s.hostIn.length ∧ Host.Core.run core n s = .next u ∧
    u = { s with hostIn := u.hostIn, hostOut := u.hostOut } ∧ step u = .next t ∧ t.busy = false ∧
    ((u.hostGoesFirst = false ∧ coreStep u = .next t) ∨ ∃ rest, u.hostIn = ⟨true, .hardReset⟩ :: rest)

theorem pendingEnds_of_status_read {s : State} {rest : List HostEvent} (hbusy : s.busy = true)
    (hin : s.hostIn = ⟨true, .read 0#4 1#28⟩ :: rest) (h : PendingEnds (s.statusRead rest)) : PendingEnds s := by
  obtain ⟨n, u, t, hn, hrun, hu, hend⟩ := h
  refine ⟨n + 1, u, t, ?_, ?_, ?_, hend⟩
  · rw [hin, List.length_cons]
    exact Nat.succ_le_succ hn
  · rw [run_succ_of_step (step_of_early_status_read hbusy hin), hrun]
  · rw [hu]
    rfl

theorem pendingEnds_of_treeOK {s : State} (htree : TreeOK s) (hbusy : s.busy = true) : PendingEnds s := by
  induction hlen : s.hostIn.length generalizing s with
  | zero =>
    obtain ⟨t, hcore⟩ := coreStep_total htree
    have hfirst : s.hostGoesFirst = false := by rw [State.hostGoesFirst, List.eq_nil_of_length_eq_zero hlen]
    exact ⟨0, s, t, Nat.zero_le _, rfl, rfl, (step_of_busy hbusy hfirst).trans hcore, busy_of_coreStep hcore,
      .inl ⟨hfirst, hcore⟩⟩
  | succ len ih =>
    rcases hostGoesFirst_cases s with hfirst | ⟨rest, hin | hin⟩
    · obtain ⟨t, hcore⟩ := coreStep_total htree
      exact ⟨0, s, t, Nat.zero_le _, rfl, rfl, (step_of_busy hbusy hfirst).trans hcore, busy_of_coreStep hcore,
        .inl ⟨hfirst, hcore⟩⟩
    · refine pendingEnds_of_status_read hbusy hin (ih (treeOK_congr htree) hbusy ?_)
      rw [hin, List.length_cons] at hlen
      exact Nat.succ.inj hlen
    · have hfirst : s.hostGoesFirst = true := by rw [State.hostGoesFirst, hin]; rfl
      have hstep : step s = .next (hostStep s) := by rw [step, hbusy, hfirst, if_neg (by decide)]
      refine ⟨0, s, _, Nat.zero_le _, rfl, rfl, hstep, ?_, .inr ⟨rest, hin⟩⟩
      rw [hostStep_of_cons hin]
      rfl

/-- Settles O7: early `STATUS` reads pass one by one, and then the core's step or a hardware reset comes, neither of
which can get stuck. -/
theorem pendingCommandEndsInBoundedSteps : Obligations.PendingCommandEndsInBoundedSteps :=
  fun _ h hbusy => pendingEnds_of_treeOK h.tree hbusy

end Sys2Proof.Machine
end

section
/-! Proofs about `COMPRESS` and its stages on any input: what they make of it, that no fault is raised, and that
`EXPAND` gives the input back. -/

namespace Sys2Proof.Machine

/-! ### Commands one after the other, however each is accepted -/

/-- The commands of a list in order, each from what `accept` makes of the state the one before left; `execAll` and
`issueAll` are instances. -/
def runAll (accept : Instr → State → State) : List Instr → State → Host.Outcome State Fault Refusal
  | [], s => .next s
  | i :: rest, s =>
    match exec i (accept i s) with
    | .next t => runAll accept rest t
    | .fault r => .fault r
    | .refused r => .refused r

/-- `PENDING` and `BUSY` written, which no stage reads. -/
def State.accepted (s : State) (w : Word) (b : Bool) : State := { s with pending := w, busy := b }

/-- An acceptance writes `PENDING` and `BUSY` at most. -/
def Accepts (accept : Instr → State → State) : Prop := ∀ i s, ∃ w b, accept i s = s.accepted w b

theorem accepts_none : Accepts fun _ s => s := fun _ s => ⟨s.pending, s.busy, rfl⟩

theorem accepts_issue : Accepts fun i s => acceptCommand s (encode i) := fun i _ => ⟨encode i, true, rfl⟩

theorem execAll_eq_runAll (cmds : List Instr) (s : State) : execAll cmds s = runAll (fun _ s => s) cmds s := by
  induction cmds generalizing s with
  | nil => rfl
  | cons i cmds ih =>
    rw [execAll, runAll]
    cases exec i s with
    | next t => exact ih t
    | fault r => rfl
    | refused r => rfl

theorem issueAll_eq_runAll (cmds : List Instr) (s : State) :
    issueAll cmds s = runAll (fun i s => acceptCommand s (encode i)) cmds s := by
  induction cmds generalizing s with
  | nil => rfl
  | cons i cmds ih =>
    rw [issueAll, runAll, issue_eq_exec]
    cases exec i (acceptCommand s (encode i)) with
    | next t => exact ih t
    | fault r => rfl
    | refused r => rfl

theorem runAll_cons_of_next {accept : Instr → State → State} {i : Instr} {s u t : State} (hu : accept i s = u)
    (h : exec i u = .next t) (cmds : List Instr) : runAll accept (i :: cmds) s = runAll accept cmds t := by
  rw [runAll, hu, h]

/-! ### The length of the encoded input: 46_laws.md R159 -/

/-- Each symbol of the list once for every time it occurs. -/
theorem sum_map_eq_sum_symbols (l : List Byte) (f : Byte → Nat) :
    (l.map f).sum = (symbols.map fun x => l.count x * f x).sum := by
  rw [Finset.sum_list_map_count, ← List.sum_toFinset _ symbols_nodup]
  exact Finset.sum_subset (fun x _ => List.mem_toFinset.mpr (mem_symbols x)) fun x _ hx => by
    rw [List.count_eq_zero.mpr fun hmem => hx (List.mem_toFinset.mpr hmem), zero_smul]

/-- Where the table counts the input, its encoded length is the weighted length of the codes. -/
theorem flatMap_code_length {s t : State} {l : List Byte} (hcount : ∀ x, (s.freqAt x).toNat = l.count x) :
    (l.flatMap t.code).length = s.weightedLength fun x => (t.codeLenAt x).toNat := by
  simp only [List.length_flatMap, code_length, State.weightedLength, hcount]
  exact sum_map_eq_sum_symbols l _

/-- There are no more than 256 symbols, so eight bits for each meet Kraft's inequality. -/
theorem kraft_eight (s : State) : Kraft s.present fun _ => 8 := by
  have hle := present_length_le s
  rw [kraft_iff_scaled (L := 8) fun _ _ => Nat.le_refl 8]
  simpa using hle

/-! ### `BUILD` and `ASSIGN` on a table -/

/-- `t` holds the tree and the codes that `BUILD` and `ASSIGN` make of the table of `s`. -/
structure Coded (s t : State) : Prop where
  frame : t = { s with
    node := t.node, nNodes := t.nNodes, root := t.root, codeLen := t.codeLen, codeBits := t.codeBits
    pending := t.pending, busy := t.busy }
  shape : s.present ≠ [] → TreeShape t s.present.length
  old : ∀ k, t.nNodes.toNat ≤ k → t.nodeAt k = s.nodeAt k
  free : PrefixFree t
  hasCode : ∀ x, t.hasCode x ↔ x ∈ s.present
  cost : s.weightedLength (fun x => (t.codeLenAt x).toNat) ≤ s.weightedLength fun _ => 8

section
variable {accept : Instr → State → State} (haccept : Accepts accept) {s : State} (h : s.errCode = none)
include haccept h

/-- R99, R108: no tree and no codes. -/
theorem runAll_build_assign_of_absent (hpresent : s.present = []) :
    ∃ t, (∀ cmds, runAll accept (.build :: .assign :: cmds) s = runAll accept cmds t) ∧ Coded s t := by
  obtain ⟨w1, b1, h1⟩ := haccept .build s
  have hbuild := buildOfEmptyTable (s.accepted w1 b1) h (freqAt_of_present_eq_nil hpresent)
  obtain ⟨w2, b2, h2⟩ := haccept .assign { s.accepted w1 b1 with nNodes := 0#32, root := 511#9, busy := false }
  have hassign := exec_assign_of_done
    (s := State.accepted { s.accepted w1 b1 with nNodes := 0#32, root := 511#9, busy := false } w2 b2) h
    (assignStage_of_no_root rfl)
  refine ⟨_, fun cmds => (runAll_cons_of_next h1 hbuild _).trans (runAll_cons_of_next h2 hassign cmds), rfl,
    fun hne => absurd hpresent hne, fun _ _ => rfl,
    prefixFree_of_code_eq (s := s.clearCodes) (fun _ => rfl) (prefixFree_clearCodes s), fun x => ?_, ?_⟩
  · rw [hpresent]
    exact iff_of_false (fun hx => hx (codeLenAt_clearCodes s x)) List.not_mem_nil
  · rw [weightedLength_eq, hpresent]
    exact Nat.zero_le _

/-- The tree of `BUILD` is the least costly there is, so its codes cost no more than eight bits for each symbol. -/
theorem runAll_build_assign_of_present (hpresent : s.present ≠ []) :
    ∃ t, (∀ cmds, runAll accept (.build :: .assign :: cmds) s = runAll accept cmds t) ∧ Coded s t := by
  obtain ⟨w1, b1, h1⟩ := haccept .build s
  obtain ⟨u, hbuild, hframe, hshape, -, -, hold⟩ := buildMakesTree (s.accepted w1 b1) h hpresent
  obtain ⟨u', tree, hbuild', htree⟩ := exec_build_of_present (s := s.accepted w1 b1) h hpresent
  obtain rfl := Host.Outcome.next.inj (hbuild'.symm.trans hbuild)
  have hquiet : u'.errCode = none := by rw [hframe]; exact h
  obtain ⟨w2, b2, h2⟩ := haccept .assign u'
  have hheight := height_le_of_builtTree htree
  have hnodup : tree.leaves.Nodup := htree.leaves.nodup_iff.mpr (present_nodup s)
  have hassignable : Assignable tree := ⟨hheight, hnodup⟩
  have hassign := exec_assign_of_done (s := u'.accepted w2 b2) hquiet
    (assignStage_of_holdsTree (holdsTree_congr htree.holds fun _ _ => rfl) hheight)
  have hframe' := afterAssign_frame (u'.accepted w2 b2) tree
  rw [← State.afterAssign] at hassign
  have hcode := fun e he => afterAssign_code hassignable (u'.accepted w2 b2) (e := e) he
  refine ⟨_, fun cmds => (runAll_cons_of_next h1 hbuild _).trans (runAll_cons_of_next h2 hassign cmds), ?_,
    fun _ => treeShape_congr (s := u') (afterAssign_nNodes ..) (afterAssign_root ..)
      (fun k => afterAssign_nodeAt _ _ k) hshape,
    fun k hk => ?_, afterAssign_prefixFree hassignable _,
    fun x => (afterAssign_hasCode_iff hassignable _ x).trans htree.leaves.mem_iff, ?_⟩
  · rw [hframe', hframe]
    rfl
  · rw [afterAssign_nNodes] at hk
    rw [afterAssign_nodeAt]
    exact hold k (hshape.nNodes ▸ hk)
  · rw [weightedLength_eq (len := fun _ => 8)]
    refine (weightedLength_eq_sum_codes htree hcode).trans_le (sum_codes_le htree (fun _ _ => by decide) ?_)
    exact kraft_eight s

theorem runAll_build_assign :
    ∃ t, (∀ cmds, runAll accept (.build :: .assign :: cmds) s = runAll accept cmds t) ∧ Coded s t := by
  by_cases hpresent : s.present = []
  · exact runAll_build_assign_of_absent haccept h hpresent
  · exact runAll_build_assign_of_present haccept h hpresent

end

/-! ### The five stages: 45_control.md R140, R147 -/

/-- `t` holds what the five stages of the encoder make of the input of `s`. -/
structure Compressed (s t : State) : Prop where
  errCode : t.errCode = none
  cfg : t.cfg = s.cfg
  counts : ∀ x, (t.freqAt x).toNat = s.input.count x
  shape : s.input ≠ [] → TreeShape t t.present.length
  old : ∀ k, t.nNodes.toNat ≤ k → t.nodeAt k = s.nodeAt k
  free : PrefixFree t
  hasCode : ∀ x, t.hasCode x ↔ x ∈ s.input
  encoded : t.encoded = s.input.flatMap t.code
  packed : t.packedBytes = packed t.encoded
  bits : t.encLen.toNat ≤ 8 * s.inLen.toNat

/-- The counts of `s` sum to the length of the input they count. -/
theorem weightedLength_eight {s : State} {l : List Byte} (hcount : ∀ x, (s.freqAt x).toNat = l.count x) :
    (s.weightedLength fun _ => 8) = 8 * l.length := by
  rw [State.weightedLength, List.sum_map_mul_right, Nat.mul_comm]
  simp only [hcount, sum_symbols_count]

theorem present_iff_of_counts {s : State} {l : List Byte} (hcount : ∀ x, (s.freqAt x).toNat = l.count x) (x : Byte) :
    x ∈ s.present ↔ x ∈ l := by
  rw [← List.count_pos_iff (l := l), ← hcount x, State.present, List.mem_filter, bne_iff_ne, ne_eq,
    ← BitVec.toNat_inj, Nat.pos_iff_ne_zero]
  exact and_iff_right (mem_symbols x)

section
variable {accept : Instr → State → State} (haccept : Accepts accept) {s : State} (h : s.errCode = none)
include haccept h

theorem runAll_encode_pack (hcode : ∀ x ∈ s.input, s.hasCode x)
    (hfits : (s.input.flatMap s.code).length ≤ s.cfg.encCapacity) :
    ∃ t, (∀ cmds, runAll accept (.encode :: .pack :: cmds) s = runAll accept cmds t) ∧
      t = { s with
        enc := t.enc, encLen := t.encLen, pk := t.pk, pkLen := t.pkLen, pending := t.pending, busy := t.busy } ∧
      t.encoded = s.input.flatMap s.code ∧ t.packedBytes = packed t.encoded ∧
      t.encLen.toNat = (s.input.flatMap s.code).length := by
  obtain ⟨w1, b1, h1⟩ := haccept .encode s
  have hencode := exec_encode_of_codes (s := s.accepted w1 b1) h hcode hfits
  obtain ⟨w2, b2, h2⟩ := haccept .pack ((s.accepted w1 b1).afterEncode)
  have hpack := exec_pack_of_quiet
    (s := (s.accepted w1 b1).afterEncode.accepted w2 b2) h
  refine ⟨_, fun cmds => (runAll_cons_of_next h1 hencode _).trans (runAll_cons_of_next h2 hpack cmds), rfl,
    afterEncode_encoded hfits, ?_, afterEncode_encLen hfits⟩
  rw [afterPack_packedBytes, packImage_eq_packed]
  rfl

/-- From any input the stages reach the end of `PACK` without a fault. -/
theorem runAll_encoder (hcap : s.inLen.toNat ≤ s.cfg.inCapacity) :
    ∃ t, (∀ cmds, runAll accept (.analyze :: .build :: .assign :: .encode :: .pack :: cmds) s = runAll accept cmds t) ∧
      Compressed s t := by
  obtain ⟨w1, b1, h1⟩ := haccept .analyze s
  obtain ⟨t1, hanalyze, hframe1, hcount, -, -⟩ := analyzeCountsInput (s.accepted w1 b1) h hcap
  have hquiet1 : t1.errCode = none := by rw [hframe1]; exact h
  obtain ⟨t2, hrun2, hframe2, hshape, hold, hfree, hhas, hcost⟩ := runAll_build_assign haccept hquiet1
  have hquiet2 : t2.errCode = none := by rw [hframe2]; exact hquiet1
  have hinput : t2.input = s.input := by rw [hframe2, hframe1]; rfl
  have hcfg : t2.cfg = s.cfg := by rw [hframe2, hframe1]; rfl
  replace hcount : ∀ x, (t1.freqAt x).toNat = s.input.count x := hcount
  replace hhas : ∀ x, t2.hasCode x ↔ x ∈ s.input := fun x => (hhas x).trans (present_iff_of_counts hcount x)
  have hbits : (s.input.flatMap t2.code).length ≤ 8 * s.inLen.toNat := by
    rw [flatMap_code_length hcount, ← input_length, ← weightedLength_eight hcount]
    exact hcost
  have hfits : (s.input.flatMap t2.code).length ≤ s.cfg.encCapacity :=
    hbits.trans (Nat.mul_le_mul_left 8 hcap)
  rw [← hinput] at hfits
  obtain ⟨t3, hrun3, hframe3, hencoded, hpacked, hlen⟩ := runAll_encode_pack haccept hquiet2
    (fun x hx => (hhas x).mpr (hinput ▸ hx)) (hcfg ▸ hfits)
  have hfreq : ∀ x, t3.freqAt x = t1.freqAt x := fun x => by rw [hframe3, hframe2]; rfl
  have hcode : ∀ x, t3.code x = t2.code x := fun x => by rw [hframe3]; rfl
  have hnode : ∀ k, t3.nodeAt k = t2.nodeAt k := fun k => by rw [hframe3]; rfl
  have hpresent : t3.present = t1.present := by simp only [State.present, hfreq]
  refine ⟨t3, fun cmds => by rw [runAll_cons_of_next h1 hanalyze, hrun2, hrun3], ?_, ?_, fun x => ?_, fun hne => ?_,
    fun k hk => ?_, prefixFree_of_code_eq hcode hfree, fun x => ?_, ?_, hpacked, ?_⟩
  · rw [hframe3]
    exact hquiet2
  · rw [hframe3]
    exact hcfg
  · rw [hfreq, hcount]
  · obtain ⟨x, hx⟩ := List.exists_mem_of_ne_nil _ hne
    have hx1 := (present_iff_of_counts hcount x).mpr hx
    rw [hpresent]
    exact treeShape_congr (by rw [hframe3]) (by rw [hframe3]) hnode (hshape (List.ne_nil_of_mem hx1))
  · have hlen : t3.nNodes = t2.nNodes := by rw [hframe3]
    rw [hnode, hold k (hlen ▸ hk), hframe1]
    rfl
  · rw [hasCode_iff, hcode, ← hasCode_iff, hhas]
  · rw [hencoded, hinput, funext hcode]
  · rw [hlen, hinput]
    exact hbits

end

/-! ### `COMPRESS`: 45_control.md R140, R147 -/

theorem exec_compress_compressed {s : State} (h : s.errCode = none) (hlen : s.inLen ≠ 0#32)
    (hcap : s.inLen.toNat ≤ s.cfg.inCapacity) : ∃ t, exec .compress s = .next t ∧ Compressed s t := by
  obtain ⟨t, hrun, ht⟩ := runAll_encoder accepts_none (s := s.setEmpty false) h hcap
  refine ⟨t, ?_, ht.errCode, ht.cfg, ht.counts, ht.shape, ht.old, ht.free, ht.hasCode, ht.encoded, ht.packed, ht.bits⟩
  rw [exec_compress_eq_execAll h hlen, execAll_eq_runAll, hrun, runAll]

theorem complete_of_idle {s : State} (h : s.busy = false) : s.complete = s := by
  rw [State.complete, ← h]

theorem exec_compress_frame {s t : State} (h : s.errCode = none) (hlen : s.inLen ≠ 0#32)
    (hexec : exec .compress s = .next t) : EncoderWrites (s.setEmpty false).complete t := by
  rcases exec_ends hexec with ⟨hfault, -⟩ | ⟨u, hend, rfl⟩
  · exact absurd h hfault
  · rcases compressStage_cases hend with ⟨hzero, -⟩ | ⟨-, hframe⟩
    · exact absurd hzero hlen
    · unfold EncoderWrites at *
      rw [hframe]
      rfl

theorem inLen_ne_zero {s : State} (h : 1 ≤ s.inLen.toNat) : s.inLen ≠ 0#32 := by
  rintro hzero
  rw [hzero] at h
  exact absurd h (by decide)

/-- Settles O45: the five stages describe the input, and `COMPRESS` is these stages, with their writes as its frame. -/
theorem compressDescribesInput : Obligations.CompressDescribesInput := by
  rintro s ⟨hbusy, hquiet⟩ hpos hcap
  have hlen := inLen_ne_zero hpos
  obtain ⟨t, hexec, ht⟩ := exec_compress_compressed hquiet hlen hcap
  refine ⟨t, hexec, ?_, ht.counts, ht.shape ?_, ht.hasCode, ht.old, fun _ => ⟨ht.encoded, ht.packed⟩⟩
  · have hframe := exec_compress_frame hquiet hlen hexec
    rw [complete_of_idle (s := s.setEmpty false) hbusy] at hframe
    exact hframe
  · rw [← List.length_pos_iff, input_length]
    exact hpos

/-- Settles O46: no code assignment is shorter than that of `BUILD` and `ASSIGN`, eight bits for each symbol included,
so `ENCODE` has room. -/
theorem compressNeverFaults : Obligations.CompressNeverFaults := by
  rintro s ⟨-, hquiet⟩ hcap
  by_cases hlen : s.inLen = 0#32
  · exact ⟨_, exec_compress_of_no_input hquiet hlen, hquiet, Nat.zero_le _⟩
  · obtain ⟨t, hexec, ht⟩ := exec_compress_compressed hquiet hlen hcap
    exact ⟨t, hexec, ht.errCode, ht.bits⟩

/-! ### The round trip: 46_laws.md R150 -/

/-- `DEC` holds the input of `s`. -/
structure Restored (s t : State) : Prop where
  errCode : t.errCode = none
  decLen : t.decLen = s.inLen
  decAt : ∀ i, i < s.inLen.toNat → t.decAt i = s.inAt i

theorem restored_afterDecode {s u : State} (h : u.errCode = none) (hfits : s.input.length ≤ u.cfg.decCapacity) :
    Restored s (u.afterDecode s.input) := by
  have hlen : (u.afterDecode s.input).decLen = s.inLen :=
    BitVec.eq_of_toNat_eq ((afterDecode_decLen hfits).trans (input_length s))
  have hdecoded := afterDecode_decoded hfits
  rw [State.decoded, hlen, State.input, List.map_inj_left] at hdecoded
  exact ⟨h, hlen, fun i hi => hdecoded i (List.mem_range.mpr hi)⟩

section
variable {s t : State} (h : Compressed s t) (hcap : s.inLen.toNat ≤ s.cfg.inCapacity)
include h hcap

theorem bits_fit_of_compressed : (s.input.flatMap t.code).length ≤ t.cfg.encCapacity := by
  rw [← h.encoded, encoded_length, h.cfg]
  exact h.bits.trans (Nat.mul_le_mul_left 8 hcap)

theorem symbols_fit_of_compressed : s.input.length ≤ t.cfg.decCapacity := by
  rw [input_length, h.cfg]
  exact hcap

theorem exec_expand_of_compressed (w : Word) (b : Bool) :
    ∃ u, exec .expand (t.accepted w b) = .next u ∧ Restored s u := by
  have hfits := symbols_fit_of_compressed h hcap
  have hbits := bits_fit_of_compressed h hcap
  exact ⟨_, exec_expand_of_artifact (s := t.accepted w b) h.errCode (prefixFree_of_code_eq (fun _ => rfl) h.free)
    (fun x hx => (h.hasCode x).mpr hx) hfits (h.packed.trans (congrArg packed h.encoded))
    hbits, restored_afterDecode h.errCode hfits⟩

theorem runAll_unpack_decode {accept : Instr → State → State} (haccept : Accepts accept) :
    ∃ u, runAll accept [.unpack, .decode] t = .next u ∧ Restored s u := by
  have hfits := symbols_fit_of_compressed h hcap
  obtain ⟨w1, b1, h1⟩ := haccept .unpack t
  obtain ⟨hpk, -, hbits⟩ := afterUnpack_of_artifact (s := t.accepted w1 b1)
    (h.packed.trans (congrArg packed h.encoded)) (bits_fit_of_compressed h hcap)
  have hunpack := exec_unpack_of_unpackable (s := t.accepted w1 b1) h.errCode hpk
  obtain ⟨w2, b2, h2⟩ := haccept .decode ((t.accepted w1 b1).afterUnpack)
  have hdecode := exec_decode_of_codes
    (s := (t.accepted w1 b1).afterUnpack.accepted w2 b2) h.errCode
    (prefixFree_of_code_eq (fun _ => rfl) h.free) (fun x hx => (h.hasCode x).mpr hx) hfits hbits
  exact ⟨_, (runAll_cons_of_next h1 hunpack _).trans (runAll_cons_of_next h2 hdecode []),
    restored_afterDecode h.errCode hfits⟩

end

/-- R141, R142: an empty input leaves an empty artifact, and that no symbols. -/
theorem issueAll_compress_expand_of_no_input {s : State} (h : s.errCode = none) (hlen : s.inLen = 0#32) :
    ∃ t, issueAll [.compress, .expand] s = .next t ∧ Restored s t := by
  have hcompress := exec_compress_of_no_input (s := acceptCommand s (encode .compress)) h hlen
  have hexpand := (expandFollowsStages (acceptCommand (shortCircuit (acceptCommand s (encode .compress))).complete
    (encode .expand)) h).2 rfl
  refine ⟨_, (issueAll_cons_of_next hcompress _).trans (issueAll_cons_of_next hexpand []), h, hlen.symm,
    fun i hi => ?_⟩
  rw [hlen] at hi
  exact absurd hi (Nat.not_lt_zero i)

/-- Settles O47: the stages leave the artifact of the input's codes, which are `PrefixFree`, so what decodes it gives the
input back; an empty input takes the short circuit. -/
theorem compressExpandRoundTrip : Obligations.CompressExpandRoundTrip := by
  rintro s ⟨-, hquiet⟩ hcap cmds hcmds
  suffices hrestored : ∃ t, issueAll cmds s = .next t ∧ Restored s t by
    obtain ⟨t, hissue, ht⟩ := hrestored
    exact ⟨t, hissue, ht.errCode, ht.decLen, ht.decAt⟩
  rcases hcmds with rfl | rfl
  · by_cases hlen : s.inLen = 0#32
    · exact issueAll_compress_expand_of_no_input hquiet hlen
    · obtain ⟨t, hcompress, ht⟩ :=
        exec_compress_compressed (s := acceptCommand s (encode .compress)) hquiet hlen hcap
      obtain ⟨u, hexpand, hu⟩ := exec_expand_of_compressed ht hcap (encode .expand) true
      exact ⟨u, (issueAll_cons_of_next hcompress _).trans (issueAll_cons_of_next hexpand []), hu.errCode, hu.decLen,
        hu.decAt⟩
  · obtain ⟨t, hrun, ht⟩ := runAll_encoder accepts_issue hquiet hcap
    obtain ⟨u, hrun', hu⟩ := runAll_unpack_decode ht hcap accepts_issue
    exact ⟨u, by rw [issueAll_eq_runAll, hrun, hrun'], hu⟩

end Sys2Proof.Machine
end

section
/-! Proofs about legal host accesses and hardware reset: what a read returns, where a write is stored, what a reset
leaves. -/

namespace Sys2Proof.Machine

/-! ### Legal reads: 20_memory.md R51 -/

theorem spaceNumber_injective : Function.Injective spaceNumber := by
  intro a b
  cases a <;> cases b <;> decide

theorem elementAt_hostIn (s : State) (rest : List HostEvent) (space : Space) (i : Nat) :
    State.elementAt { s with hostIn := rest } space i = s.elementAt space i := by
  cases space <;> rfl

theorem step_of_legal_read {s : State} {early : Bool} {n : BitVec 4} {i : BitVec 28} {rest : List HostEvent}
    (hbusy : s.busy = false) (hin : s.hostIn = ⟨early, .read n i⟩ :: rest)
    (hlegal : ¬ illegalTarget s.cfg n.toNat i.toNat) :
    ∃ space, n.toNat = spaceNumber space ∧ i.toNat < indexCount s.cfg space ∧
      step s = .next { s with hostIn := rest, hostOut := s.elementAt space i.toNat :: s.hostOut } := by
  obtain ⟨space, hspace⟩ := Option.ne_none_iff_exists'.mp (mt (readTarget_eq_none_iff s.cfg n i).mp hlegal)
  obtain ⟨hn, hi⟩ := (readTarget_eq_some_iff s.cfg n i space).mp hspace
  have hread : hostRead { s with hostIn := rest } n i = some (s.elementAt space i.toNat) := by
    rw [hostRead, hspace, Option.map_some, elementAt_hostIn]
  refine ⟨space, hn, hi, ?_⟩
  rw [step_of_idle hbusy hin]
  simp only [act, hread]
  rfl

/-- The control registers in the order of their numbers: the table of 10_state.md R23. -/
theorem csrAt_eq (s : State) {i : Nat} (h : i < 11) :
    [0#32, s.statusWord, s.errCodeWord, s.errInfo, s.inLen, s.nNodes, s.root.setWidth 32, s.encLen, s.pkLen, s.decLen,
      BitVec.ofNat 32 s.cfg.inCapacity][i]? = some (s.csrAt i) := by
  have hcap : BitVec.ofNat 32 s.cfg.inCapacity = s.cfg.inCap.setWidth 32 := BitVec.ofNat_toNat ..
  rw [hcap]
  interval_cases i <;> rfl

/-- Settles O56: the space's number picks the element that the read returns. -/
theorem legalReadReturnsValue : Obligations.LegalReadReturnsValue := by
  intro s early rest n i hbusy hin hlegal
  obtain ⟨space, hn, hi, hstep⟩ := step_of_legal_read hbusy hin hlegal
  have hspace : ∀ target, n.toNat = spaceNumber target → space = target :=
    fun target h => spaceNumber_injective (hn.symm.trans h)
  have hvalue : ∀ target, n.toNat = spaceNumber target → s.elementAt space i.toNat = s.elementAt target i.toNat :=
    fun target h => by rw [hspace target h]
  refine ⟨_, hstep, fun h => ?_, fun h => hvalue .inp (congrArg BitVec.toNat h),
    fun h => hvalue .freq (congrArg BitVec.toNat h), fun h => hvalue .nodeFreq (congrArg BitVec.toNat h),
    fun h => hvalue .nodeLink (congrArg BitVec.toNat h), fun h => hvalue .nodeSym (congrArg BitVec.toNat h),
    fun h => hvalue .codeLen (congrArg BitVec.toNat h), fun h => hvalue .codeBits (congrArg BitVec.toNat h),
    fun h => hvalue .enc (congrArg BitVec.toNat h), fun h => hvalue .pk (congrArg BitVec.toNat h),
    fun h => hvalue .dec (congrArg BitVec.toNat h)⟩
  obtain rfl := hspace .csr (congrArg BitVec.toNat h)
  exact csrAt_eq s hi

/-! ### Legal writes: 20_memory.md R51 -/

section
variable {s t : State} {early : Bool} {n : BitVec 4} {i : BitVec 28} {v : Word} {rest : List HostEvent} {space : Space}

/-- What the access stores in the element is all that the step does. -/
theorem step_of_legal_write (hbusy : s.busy = false) (hin : s.hostIn = ⟨early, .write n i v⟩ :: rest)
    (hn : n.toNat = spaceNumber space) (hi : i.toNat < indexCount s.cfg space)
    (hw : writeElement { s with hostIn := rest } space i.toNat v = some t) : step s = .next t := by
  rw [step_of_idle hbusy hin, act_write_of_writeElement (s := { s with hostIn := rest }) hn hi hw]

end

theorem toNat_setWidth_byte (v : Byte) : (v.setWidth 32).toNat = v.toNat :=
  (BitVec.toNat_setWidth ..).trans (Nat.mod_eq_of_lt (by omega))

/-- Bit `31-k` of word `w` of a symbol is position `32w+k`: 30_encoding.md R78. -/
theorem getLsbD_codeWordAt (s : State) (x : Byte) {w k : Nat} (hk : k < 32) :
    (s.codeWordAt (8 * x.toNat + w)).getLsbD (31 - k) = s.codeBitAt x (32 * w + k) := by
  rw [State.codeBitAt, show (32 * w + k) / 32 = w by omega, show (32 * w + k) % 32 = k by omega]

/-- The element of `CODE_LEN` that index `x` names, a symbol: 10_state.md R37. -/
theorem writeElement_codeLen_byte (s : State) (x v : Byte) :
    writeElement s .codeLen (x.setWidth 28).toNat (v.setWidth 32) =
      some { s with codeLen := s.codeLen.set x.toNat v x.isLt } := by
  have hfits : (v.setWidth 32).toNat < 256 := toNat_setWidth_byte v ▸ v.isLt
  have hback : (v.setWidth 32).setWidth 8 = v := by simp
  have hx : BitVec.ofNat 8 (x.setWidth 28).toNat = x := by
    rw [BitVec.toNat_setWidth, Nat.mod_eq_of_lt (by omega), BitVec.ofNat_toNat, BitVec.setWidth_eq]
  rw [writeElement, if_pos hfits]
  simp only [hback, hx]

/-- Settles O59: a word is read and written whole, so its bit order is that of `codeBitAt`. -/
theorem codeWordsAreMsbFirst : Obligations.CodeWordsAreMsbFirst := by
  refine ⟨fun s x w k _ hk => getLsbD_codeWordAt s x hk, fun s early rest i v hbusy hin hi => ?_,
    fun s early rest x v hbusy hin => ?_⟩
  · refine ⟨_, step_of_legal_write (space := .codeBits) hbusy hin rfl hi rfl, rfl, ?_, fun j hj => ?_⟩
    · simp only [State.codeWordAt, get_put_same, Option.getD_some]
    · simp only [State.codeWordAt, get_put_other _ v hj.symm]
  · have hx : (x.setWidth 28).toNat < 256 := by
      rw [BitVec.toNat_setWidth]
      omega
    refine ⟨_, step_of_legal_write (space := .codeLen) hbusy hin rfl hx (writeElement_codeLen_byte _ x v), rfl, ?_,
      fun y hy => ?_⟩
    · rw [State.codeLenAt, Vector.getElem_set, if_pos rfl]
    · rw [State.codeLenAt, Vector.getElem_set, if_neg fun heq => hy (BitVec.eq_of_toNat_eq heq.symm)]
      rfl

section
variable {v : Word}

theorem toNat_setWidth_of_lt {w : Nat} (h : v.toNat < 2 ^ w) : (v.setWidth w).toNat = v.toNat :=
  (BitVec.toNat_setWidth ..).trans (Nat.mod_eq_of_lt h)

/-- A byte memory read after a write, in numbers. -/
theorem toNat_get_put (m : Memory Byte) (free : Nat → Byte) (i j : Nat) (h : v.toNat < 256) :
    (((m.put i (v.setWidth 8)).get j).getD (free j)).toNat =
      if j = i then v.toNat else ((m.get j).getD (free j)).toNat := by
  rw [get_put]
  by_cases hij : i = j
  · rw [if_pos hij, if_pos hij.symm, Option.getD_some, toNat_setWidth_of_lt h]
  · rw [if_neg hij, if_neg fun hji => hij hji.symm]

theorem toNat_freq_set (freq : Vector Count 256) {i : Nat} (hi : i < 256) (h : v.toNat ≤ 2 ^ 24 - 1) (x : Byte) :
    ((freq.set (BitVec.ofNat 8 i).toNat (v.setWidth 24) (BitVec.ofNat 8 i).isLt)[x.toNat]'x.isLt).toNat =
      if x.toNat = i then v.toNat else (freq[x.toNat]'x.isLt).toNat := by
  have hindex : (BitVec.ofNat 8 i).toNat = i := (BitVec.toNat_ofNat i 8).trans (Nat.mod_eq_of_lt hi)
  rw [Vector.getElem_set]
  by_cases hx : i = x.toNat
  · rw [if_pos (hindex.trans hx), if_pos hx.symm, toNat_setWidth_of_lt (by omega)]
  · rw [if_neg fun h => hx (hindex.symm.trans h), if_neg fun h => hx h.symm]

end

/-- Settles O60: each write passes the check of its own location and stores the value. -/
theorem legalWriteStoresValue : Obligations.LegalWriteStoresValue := by
  intro s early rest n i v hbusy hin
  refine ⟨?_, ?_, ?_, fun hn hi hv => ?_, fun hn hi hv => ?_, fun hn hi hv => ?_⟩
  · rintro rfl rfl hv
    exact step_of_legal_write (space := .csr) hbusy hin rfl (by decide : 4 < 11) (if_pos hv)
  · rintro rfl rfl hv
    exact step_of_legal_write (space := .csr) hbusy hin rfl (by decide : 7 < 11) (if_pos hv)
  · rintro rfl rfl hv
    exact step_of_legal_write (space := .csr) hbusy hin rfl (by decide : 8 < 11) (if_pos hv)
  · exact ⟨_, step_of_legal_write (space := .freq) hbusy hin (congrArg BitVec.toNat hn) hi (if_pos hv), rfl,
      toNat_freq_set s.freq hi hv⟩
  · exact ⟨_, step_of_legal_write (space := .inp) hbusy hin (congrArg BitVec.toNat hn) hi (if_pos hv), rfl,
      fun j => toNat_get_put s.inMem (Config.freeByte s.epoch .inp) _ j hv⟩
  · exact ⟨_, step_of_legal_write (space := .pk) hbusy hin (congrArg BitVec.toNat hn) hi (if_pos hv), rfl,
      fun j => toNat_get_put s.pk (Config.freeByte s.epoch .pk) _ j hv⟩

/-! ### Hardware reset: 70_reset_and_hazards.md R190 -/

theorem step_of_hardReset {s : State} {early : Bool} {rest : List HostEvent}
    (hin : s.hostIn = ⟨early, .hardReset⟩ :: rest) (hfirst : s.busy = true → early = true) :
    step s = .next (State.hardReset { s with hostIn := rest }) := by
  rcases step_cases s with ⟨hbusy, hwait, -⟩ | ⟨-, hstep⟩
  · rw [State.hostGoesFirst, hin, hfirst hbusy] at hwait
    cases hwait
  · rw [hstep, hostStep_of_cons hin]
    rfl

/-- Settles O16: the reset state lists no memory element, so every read gives the free value of the new epoch. -/
theorem hardwareResetState : Obligations.HardwareResetState := by
  intro s early rest hin hfirst
  refine ⟨_, step_of_hardReset hin hfirst, rfl, rfl, rfl, rfl, rfl, rfl, rfl, rfl, rfl, rfl, rfl, rfl, rfl,
    fun x => ⟨?_, ?_⟩, fun _ => rfl, fun _ => rfl, fun _ => rfl, fun _ => rfl, fun _ => rfl, fun _ => rfl⟩
  · rw [State.freqAt, hardReset_freq, Vector.getElem_replicate]
  · rw [State.codeLenAt, hardReset_codeLen, Vector.getElem_replicate]

end Sys2Proof.Machine
end

section
/-! Proofs about command words, about the step that runs one, and about the refusal and the raise of faults. -/

namespace Sys2Proof

/-! ### Command words: 30_encoding.md R72, R73 -/

/-- Settles O1: each word is the encoding of its command. -/
theorem commandWordsDecode : Obligations.CommandWordsDecode :=
  ⟨decode_encode .nop, decode_encode .analyze, decode_encode .build, decode_encode .assign, decode_encode .encode,
    decode_encode .pack, decode_encode .unpack, decode_encode .decode, decode_encode .compress, decode_encode .expand,
    decode_encode .clrerr, decode_encode .reset⟩

theorem decode_eq_ok_iff (w : Word) (i : Instr) : decode w = .ok i ↔ w = encode i :=
  ⟨fun h => (encode_of_decode h).symm, fun h => h ▸ decode_encode i⟩

/-- The numbers of the twelve words: up to 9, and 14 and 15. -/
theorem exists_encode_iff (w : Word) : (∃ i, w = encode i) ↔ w.toNat ≤ 9 ∨ w.toNat = 14 ∨ w.toNat = 15 := by
  constructor
  · rintro ⟨i, rfl⟩
    cases i <;> decide
  · intro h
    have hlt : w.toNat < 16 := by omega
    have hword : ∀ n : Fin 16, n.val ≤ 9 ∨ n.val = 14 ∨ n.val = 15 →
        ∃ row ∈ opcodeMap, BitVec.ofNat 32 n.val = encode row.instr := by decide
    obtain ⟨row, -, hrow⟩ := hword ⟨w.toNat, hlt⟩ h
    rw [BitVec.ofNat_toNat, BitVec.setWidth_eq] at hrow
    exact ⟨row.instr, hrow⟩

/-- Only the twelve words are accepted: R73. -/
theorem decode_rejects_iff (w : Word) : (∃ r, decode w = .error r) ↔ ¬ ∃ i, w = encode i := by
  constructor
  · rintro ⟨r, hr⟩ ⟨i, rfl⟩
    rw [decode_encode] at hr
    cases hr
  · intro h
    cases hd : decode w with
    | ok i => exact absurd ⟨i, (decode_eq_ok_iff w i).mp hd⟩ h
    | error r => exact ⟨r, rfl⟩

/-- Settles O2: decoding inverts encoding, and the words left over are those of R73. -/
theorem decodeAcceptsExactlyTheEncodings : Obligations.DecodeAcceptsExactlyTheEncodings := by
  refine ⟨decode_eq_ok_iff, fun w => ?_⟩
  rw [decode_rejects_iff, exists_encode_iff]
  omega

namespace Machine

/-! ### The step that runs a command, refusal and raise: 45_control.md R138, 60_exceptions.md R171, R173 -/

/-- Settles O3: with no host action first the step is the core's, and without one at all an idle block has no step. -/
theorem stepRunsPendingCommand : Obligations.StepRunsPendingCommand := by
  refine ⟨fun s i hbusy hfirst hd => (step_of_busy hbusy hfirst).trans (coreStep_of_legal hd),
    fun s hbusy hin => ?_⟩
  simp [step, hbusy, hostStep, hin]

/-- Settles O9: the refusal stands before every command but the two that clear faults. -/
theorem recordedFaultRefusesCommands : Obligations.RecordedFaultRefusesCommands :=
  fun _ _ h hclrerr hreset => exec_of_fault h hclrerr hreset

/-- Settles O10: the record is the only write of a raise, and a composite command ends with it. -/
theorem raiseRecordsAndEnds : Obligations.RaiseRecordsAndEnds := by
  refine fun e info s => ⟨fun h => ?_, fun h => ?_, fun next => rfl⟩
  · rw [raise, finish_raised, record_of_quiet e _ h]
    rfl
  · rw [raise, finish_raised, record_of_fault e _ h]
    rfl

end Machine
end Sys2Proof
end

section
/-! Proofs about two runs of `COMPRESS` on the same input: 46_laws.md R156. -/

namespace Sys2Proof.Machine

/-! ### The same input gives the same table -/

/-- The parameter and the input are the same, and no fault is recorded. -/
structure SameInput (s1 s2 : State) : Prop where
  cfg : s1.cfg = s2.cfg
  inLen : s1.inLen = s2.inLen
  input : s1.input = s2.input
  quiet1 : s1.errCode = none
  quiet2 : s2.errCode = none

theorem inAt_congr {s1 s2 : State} (h : SameInput s1 s2) {i : Nat} (hi : i < s1.inLen.toNat) :
    s1.inAt i = s2.inAt i := by
  have hinput := h.input
  rw [State.input, State.input, ← h.inLen, List.map_inj_left] at hinput
  exact hinput i (List.mem_range.mpr hi)

theorem exec_analyze_agree {s1 s2 : State} (h : SameInput s1 s2) :
    ∃ t1 t2, exec .analyze s1 = .next t1 ∧ exec .analyze s2 = .next t2 ∧ SameInput t1 t2 ∧ t1.freq = t2.freq :=
  ⟨_, _, exec_analyze_of_quiet h.quiet1, exec_analyze_of_quiet h.quiet2,
    ⟨h.cfg, h.inLen, h.input, h.quiet1, h.quiet2⟩, congrArg (countSymbols · _) h.input⟩

/-! ### The same table gives the same tree -/

/-- The records at the handles below `m` are the same. -/
def AgreeBelow (m : Nat) (s1 s2 : State) : Prop := ∀ k, k < m → s1.nodeAt k = s2.nodeAt k

theorem agreeBelow_putNode {m : Nat} {s1 s2 : State} (h : AgreeBelow m s1 s2) (n : Node) :
    AgreeBelow (m + 1) (s1.putNode m n) (s2.putNode m n) := by
  intro k hk
  rw [nodeAt_putNode, nodeAt_putNode]
  by_cases hkm : m = k
  · rw [if_pos hkm, if_pos hkm]
  · rw [if_neg hkm, if_neg hkm, h k (by omega)]

theorem smallest_congr {s1 s2 : State} {best : Nat} {l : List Nat}
    (h : ∀ k ∈ best :: l, s1.nodeAt k = s2.nodeAt k) : smallest s1 best l = smallest s2 best l := by
  induction l generalizing best with
  | nil => rfl
  | cons k l ih =>
    obtain ⟨hbest, hk, hl⟩ : s1.nodeAt best = s2.nodeAt best ∧ s1.nodeAt k = s2.nodeAt k ∧
        ∀ j ∈ l, s1.nodeAt j = s2.nodeAt j := by simpa using h
    have hpops : popsBefore s1 k best = popsBefore s2 k best := by simp only [popsBefore, hbest, hk]
    rw [smallest, smallest, hpops]
    refine ih (List.forall_mem_cons.mpr ⟨?_, hl⟩)
    split
    · exact hk
    · exact hbest

theorem popMin_congr {s1 s2 : State} {q : List Nat} (h : ∀ k ∈ q, s1.nodeAt k = s2.nodeAt k) :
    popMin s1 q = popMin s2 q := by
  cases q with
  | nil => rfl
  | cons k q => simp only [popMin, smallest_congr h]

/-- The merge loop reads only the records of its queue, so two loops make the same choices. -/
theorem mergeLoop_agree {fuel m : Nat} {q : List Nat} {s1 s2 : State} (h : AgreeBelow m s1 s2) (hq : ∀ k ∈ q, k < m) :
    ∃ q' m' t1 t2, mergeLoop fuel q m s1 = (q', m', t1) ∧ mergeLoop fuel q m s2 = (q', m', t2) ∧
      AgreeBelow m' t1 t2 := by
  induction fuel generalizing m q s1 s2 with
  | zero => exact ⟨q, m, s1, s2, rfl, rfl, h⟩
  | succ fuel ih =>
    rcases Nat.lt_or_ge 1 q.length with hlen | hlen
    · obtain ⟨a, b, q1, q2, ha, hb⟩ := two_pops s1 hlen
      obtain ⟨hmema, rfl, -⟩ := popMin_eq_some ha
      obtain ⟨hmemb, rfl, -⟩ := popMin_eq_some hb
      have hq1 : ∀ k ∈ q.erase a, k < m := fun k hk => hq k (List.mem_of_mem_erase hk)
      have ha2 := (popMin_congr fun k hk => h k (hq k hk)).symm.trans ha
      have hb2 := (popMin_congr fun k hk => h k (hq1 k hk)).symm.trans hb
      have hinner : innerNode s1 a b = innerNode s2 a b := by
        rw [innerNode, innerNode, h a (hq a hmema), h b (hq1 b hmemb)]
      rw [mergeLoop_succ fuel m hlen ha hb, mergeLoop_succ fuel m hlen ha2 hb2, hinner]
      refine ih (agreeBelow_putNode h _) fun k hk => ?_
      rcases List.mem_append.mp hk with hk | hk
      · exact Nat.lt_succ_of_lt (hq1 k (List.mem_of_mem_erase hk))
      · exact Nat.lt_succ_of_le (List.mem_singleton.mp hk).le
    · exact ⟨q, m, s1, s2, mergeLoop_of_length_le_one _ m s1 hlen, mergeLoop_of_length_le_one _ m s2 hlen, h⟩

/-- The leaves hold the symbols present and their counts, so they are the same. -/
theorem buildLeaves_agree {s1 s2 : State} (h : s1.freq = s2.freq) :
    AgreeBelow s1.present.length (buildLeaves symbols 0 s1).2 (buildLeaves symbols 0 s2).2 := by
  have hfreq : s1.freqAt = s2.freqAt := by
    funext x
    rw [State.freqAt, State.freqAt, h]
  have hpresent : s1.present = s2.present := by rw [State.present, State.present, hfreq]
  intro k hk
  rw [buildLeaves_symbols_nodeAt hk, buildLeaves_symbols_nodeAt (hpresent ▸ hk)]
  simp only [hpresent, hfreq]

/-- The table and the tree are the same. -/
structure SameTree (s1 s2 : State) : Prop where
  freq : s1.freq = s2.freq
  nNodes : s1.nNodes = s2.nNodes
  root : s1.root = s2.root
  nodes : AgreeBelow s1.nNodes.toNat s1 s2

/-- What `BUILD` leaves at the root: no handle, or one of the tree's own that has a tree below it. -/
def RootBelow (s : State) : Prop :=
  s.root = nilHandle ∨ ∃ tree, HoldsTree s s.root.toNat tree ∧ tree.height ≤ 255 ∧ s.root.toNat < s.nNodes.toNat

theorem exec_build_rootBelow {s t : State} (h : s.errCode = none) (hexec : exec .build s = .next t) : RootBelow t := by
  by_cases hpresent : s.present = []
  · obtain rfl := Host.Outcome.next.inj
      (hexec.symm.trans (buildOfEmptyTable s h (freqAt_of_present_eq_nil hpresent)))
    exact .inl rfl
  · obtain ⟨t', tree, hexec', htree⟩ := exec_build_of_present h hpresent
    obtain rfl := Host.Outcome.next.inj (hexec.symm.trans hexec')
    exact .inr ⟨tree, htree.holds, height_le_of_builtTree htree, htree.nNodes ▸ htree.root_lt⟩

theorem exec_build_agree {s1 s2 : State} (h : SameInput s1 s2) (hfreq : s1.freq = s2.freq) :
    ∃ t1 t2, exec .build s1 = .next t1 ∧ exec .build s2 = .next t2 ∧ SameInput t1 t2 ∧ SameTree t1 t2 ∧
      RootBelow t1 := by
  have hcount : s2.present.length = s1.present.length := by simp only [State.present, State.freqAt, hfreq]
  have hleaves1 : buildLeaves symbols 0 s1 = (s1.present.length, _) :=
    Prod.ext (buildLeaves_symbols_count s1) rfl
  have hleaves2 : buildLeaves symbols 0 s2 = (s1.present.length, _) :=
    Prod.ext ((buildLeaves_symbols_count s2).trans hcount) rfl
  obtain ⟨q, m, u1, u2, hm1, hm2, hagree⟩ := mergeLoop_agree (fuel := s1.present.length)
    (q := List.range s1.present.length) (buildLeaves_agree hfreq) fun k hk => List.mem_range.mp hk
  have hexec1 := exec_build_of_quiet h.quiet1 hleaves1 hm1
  have hexec2 := exec_build_of_quiet h.quiet2 hleaves2 hm2
  refine ⟨_, _, hexec1, hexec2, ?_, ⟨?_, rfl, rfl, fun k hk => hagree k (hk.trans_le ?_)⟩,
    exec_build_rootBelow h.quiet1 hexec1⟩
  · rw [exec_build_frame h.quiet1 hexec1, exec_build_frame h.quiet2 hexec2]
    exact ⟨h.cfg, h.inLen, h.input, h.quiet1, h.quiet2⟩
  · rw [exec_build_frame h.quiet1 hexec1, exec_build_frame h.quiet2 hexec2]
    exact hfreq
  · exact (BitVec.toNat_ofNat m 32).trans_le (Nat.mod_le _ _)

/-! ### The same tree gives the same codes -/

theorem code_setCodes_congr {l : List (Byte × List Bool)} (hlen : ∀ e ∈ l, e.2.length ≤ 255) {s1 s2 : State}
    (h : ∀ x, s1.code x = s2.code x) (x : Byte) : (s1.setCodes l).code x = (s2.setCodes l).code x := by
  induction l generalizing s1 s2 with
  | nil => exact h x
  | cons e l ih =>
    rw [setCodes_cons, setCodes_cons]
    refine ih (fun d hd => hlen d (List.mem_cons_of_mem e hd)) fun y => ?_
    by_cases he : e.1 = y
    · subst he
      rw [code_setCode_same s1 e.1 (hlen e List.mem_cons_self), code_setCode_same s2 e.1 (hlen e List.mem_cons_self)]
    · rw [code_setCode_other s1 e.2 he, code_setCode_other s2 e.2 he, h y]

theorem codeLenAt_congr {s1 s2 : State} {x : Byte} (h : s1.code x = s2.code x) : s1.codeLenAt x = s2.codeLenAt x :=
  BitVec.eq_of_toNat_eq (by rw [← code_length, ← code_length, h])

theorem codeLen_congr {s1 s2 : State} (h : ∀ x, s1.code x = s2.code x) : s1.codeLen = s2.codeLen := by
  refine Vector.ext fun i hi => ?_
  have hx := codeLenAt_congr (h (BitVec.ofNatLT i hi))
  simpa only [State.codeLenAt, BitVec.toNat_ofNatLT] using hx

theorem exec_assign_frame {s t : State} (h : s.errCode = none) (hexec : exec .assign s = .next t) :
    t = { s with codeLen := t.codeLen, codeBits := t.codeBits, busy := false } := by
  rcases runCommand_eq_next (body := assignStage) hexec with ⟨hfault, -⟩ | ⟨-, u, hend, rfl⟩
  · exact absurd h hfault
  · rw [(assignStage_frame hend).2]
    rfl

theorem exec_assign_code_agree {s1 s2 : State} (h : SameInput s1 s2) (htree : SameTree s1 s2) (hroot : RootBelow s1) :
    ∃ t1 t2, exec .assign s1 = .next t1 ∧ exec .assign s2 = .next t2 ∧ ∀ x, t1.code x = t2.code x := by
  have hclear : ∀ x, s1.clearCodes.code x = s2.clearCodes.code x :=
    fun x => (code_clearCodes s1 x).trans (code_clearCodes s2 x).symm
  rcases hroot with hnil | ⟨tree, hholds, hheight, hlt⟩
  · exact ⟨_, _, exec_assign_of_done h.quiet1 (assignStage_of_no_root hnil),
      exec_assign_of_done h.quiet2 (assignStage_of_no_root (htree.root ▸ hnil)), hclear⟩
  · have hholds2 : HoldsTree s2 s2.root.toNat tree :=
      htree.root ▸ holdsTree_congr hholds fun j hj => (htree.nodes j (hj.trans_lt hlt)).symm
    exact ⟨_, _, exec_assign_of_done h.quiet1 (assignStage_of_holdsTree hholds hheight),
      exec_assign_of_done h.quiet2 (assignStage_of_holdsTree hholds2 hheight),
      code_setCodes_congr (fun _ he => CodeTree.length_le_of_mem_codes hheight he) hclear⟩

/-- The table, the tree and the codes are the same. -/
structure SameCodes (s1 s2 : State) : Prop extends SameTree s1 s2 where
  code : ∀ x, s1.code x = s2.code x

/-- `ASSIGN` reads the records of the tree only. -/
theorem exec_assign_agree {s1 s2 : State} (h : SameInput s1 s2) (htree : SameTree s1 s2) (hroot : RootBelow s1) :
    ∃ t1 t2, exec .assign s1 = .next t1 ∧ exec .assign s2 = .next t2 ∧ SameInput t1 t2 ∧ SameCodes t1 t2 := by
  obtain ⟨t1, t2, hexec1, hexec2, hcode⟩ := exec_assign_code_agree h htree hroot
  have hframe1 := exec_assign_frame h.quiet1 hexec1
  have hframe2 := exec_assign_frame h.quiet2 hexec2
  refine ⟨t1, t2, hexec1, hexec2, ?_, ?_, hcode⟩
  · rw [hframe1, hframe2]
    exact ⟨h.cfg, h.inLen, h.input, h.quiet1, h.quiet2⟩
  · rw [hframe1, hframe2]
    exact ⟨htree.freq, htree.nNodes, htree.root, htree.nodes⟩

/-! ### The same codes give the same bits -/

/-- `ENC_LEN`, the bits and the fault are the same. -/
structure SameEncoded (s1 s2 : State) : Prop where
  encLen : s1.encLen = s2.encLen
  encoded : s1.encoded = s2.encoded
  errCode : s1.errCode = s2.errCode

theorem agree_putEnc {e : Nat} {s1 s2 : State} (h : ∀ p, p < e → s1.encAt p = s2.encAt p) (bits : List Bool) :
    ∀ p, p < e + bits.length → (s1.putEnc e bits).encAt p = (s2.putEnc e bits).encAt p := by
  intro p hp
  rcases Nat.lt_or_ge p e with hpe | hpe
  · rw [encAt_putEnc_outside s1 (.inl hpe), encAt_putEnc_outside s2 (.inl hpe), h p hpe]
  · obtain ⟨j, rfl⟩ := Nat.exists_eq_add_of_le hpe
    have hj : j < bits.length := by omega
    rw [encAt_putEnc_inside s1 hj, encAt_putEnc_inside s2 hj]

theorem sameEncoded_setEncLen {e : Nat} {s1 s2 : State} (h : ∀ p, p < e → s1.encAt p = s2.encAt p)
    (herr : s1.errCode = s2.errCode) : SameEncoded (s1.setEncLen e) (s2.setEncLen e) := by
  refine ⟨rfl, List.map_congr_left fun p hp => h p ((List.mem_range.mp hp).trans_le ?_), herr⟩
  exact (BitVec.toNat_ofNat e 32).trans_le (Nat.mod_le _ _)

theorem sameEncoded_record {s1 s2 : State} (h : SameEncoded s1 s2) (e : ErrorCode) (info : Word) :
    SameEncoded (s1.record e info) (s2.record e info) := by
  by_cases h1 : s1.errCode = none
  · rw [record_of_quiet e info h1, record_of_quiet e info (h.errCode ▸ h1)]
    exact ⟨h.encLen, h.encoded, rfl⟩
  · rw [record_of_fault e info h1, record_of_fault e info (h.errCode ▸ h1)]
    exact h

/-- What the loop of `ENCODE` reads is the same: the bound, the codes, the symbols at the indices left, and the bits
written so far. -/
structure SameInside (l : List Nat) (e : Nat) (s1 s2 : State) : Prop where
  cfg : s1.cfg = s2.cfg
  code : ∀ x, s1.code x = s2.code x
  inAt : ∀ i ∈ l, s1.inAt i = s2.inAt i
  bits : ∀ p, p < e → s1.encAt p = s2.encAt p
  errCode : s1.errCode = s2.errCode

theorem sameEncoded_raise {l : List Nat} {e : Nat} {s1 s2 : State} (h : SameInside l e s1 s2) (c : ErrorCode)
    (i : Nat) :
    ∃ t1 t2, (raise c i (s1.setEncLen e)).Ends t1 ∧ (raise c i (s2.setEncLen e)).Ends t2 ∧ SameEncoded t1 t2 :=
  ⟨_, _, .inr rfl, .inr rfl, sameEncoded_record (sameEncoded_setEncLen h.bits h.errCode) c _⟩

theorem encodeLoop_agree {l : List Nat} {e : Nat} {s1 s2 : State} (h : SameInside l e s1 s2) :
    ∃ t1 t2, (encodeLoop l e s1).Ends t1 ∧ (encodeLoop l e s2).Ends t2 ∧ SameEncoded t1 t2 := by
  induction l generalizing e s1 s2 with
  | nil => exact ⟨_, _, .inl rfl, .inl rfl, sameEncoded_setEncLen h.bits h.errCode⟩
  | cons i l ih =>
    obtain ⟨x, hx⟩ : ∃ x, s1.inAt i = x := ⟨_, rfl⟩
    have hx2 : s2.inAt i = x := (h.inAt i List.mem_cons_self).symm.trans hx
    have hlen2 := (codeLenAt_congr (h.code x)).symm
    by_cases hcode : (s1.codeLenAt x).toNat = 0
    · rw [encodeLoop_cons_of_no_code _ _ (by rwa [hx]), encodeLoop_cons_of_no_code _ _ (by rwa [hx2, hlen2])]
      exact sameEncoded_raise h .noCode i
    · have hcode1 : (s1.codeLenAt (s1.inAt i)).toNat ≠ 0 := by rwa [hx]
      have hcode2 : (s2.codeLenAt (s2.inAt i)).toNat ≠ 0 := by rwa [hx2, hlen2]
      by_cases hfull : e + (s1.codeLenAt x).toNat > s1.cfg.encCapacity
      · rw [encodeLoop_cons_of_overfull _ hcode1 (by rwa [hx]),
          encodeLoop_cons_of_overfull _ hcode2 (by rwa [hx2, hlen2, ← h.cfg])]
        exact sameEncoded_raise h .capacity i
      · rw [encodeLoop_cons_of_fits _ hcode1 (by rwa [hx]),
          encodeLoop_cons_of_fits _ hcode2 (by rwa [hx2, hlen2, ← h.cfg]), hx, hx2, hlen2, ← h.code x]
        refine ih ⟨h.cfg, h.code, fun j hj => h.inAt j (List.mem_cons_of_mem i hj), ?_, h.errCode⟩
        rw [← code_length]
        exact agree_putEnc h.bits _

/-- The codes, the bits and the fault are the same. -/
structure SameBits (s1 s2 : State) : Prop extends SameCodes s1 s2, SameEncoded s1 s2

/-- `ENCODE` reads the input and the codes only, and stops at the same index if it stops early. -/
theorem exec_encode_agree {s1 s2 : State} (h : SameInput s1 s2) (hcodes : SameCodes s1 s2) :
    ∃ t1 t2, exec .encode s1 = .next t1 ∧ exec .encode s2 = .next t2 ∧ SameBits t1 t2 := by
  have hinside : SameInside (List.range s1.inLen.toNat) 0 s1 s2 :=
    ⟨h.cfg, hcodes.code, fun i hi => inAt_congr h (List.mem_range.mp hi), fun p hp => absurd hp (Nat.not_lt_zero p),
      h.quiet1.trans h.quiet2.symm⟩
  obtain ⟨u1, u2, hend1, hend2, hsame⟩ := encodeLoop_agree hinside
  rw [h.inLen] at hend2
  have hexec1 : exec .encode s1 = _ := (runCommand_of_quiet encodeStage h.quiet1).trans (finish_of_ends hend1)
  have hexec2 : exec .encode s2 = _ := (runCommand_of_quiet encodeStage h.quiet2).trans (finish_of_ends hend2)
  refine ⟨_, _, hexec1, hexec2, ?_, hsame.encLen, hsame.encoded, hsame.errCode⟩
  rw [encodeLoop_frame hend1, encodeLoop_frame hend2]
  exact ⟨⟨hcodes.freq, hcodes.nNodes, hcodes.root, hcodes.nodes⟩, hcodes.code⟩

/-! ### The same bits give the same artifact -/

/-- What `COMPRESS` makes is the same; the artifact counts with no fault recorded only. -/
structure SameArtifact (s1 s2 : State) : Prop extends SameBits s1 s2 where
  artifact : s1.errCode = none → s1.pkLen = s2.pkLen ∧ s1.packedBytes = s2.packedBytes

/-- `PACK` is refused in both states or writes `Packed(e)` of the same bits. -/
theorem exec_pack_agree {s1 s2 : State} (h : SameBits s1 s2) :
    ∃ t1 t2, exec .pack s1 = .next t1 ∧ exec .pack s2 = .next t2 ∧ SameArtifact t1 t2 := by
  by_cases h1 : s1.errCode = none
  · have h2 : s2.errCode = none := h.errCode ▸ h1
    have himage : s1.packImage = s2.packImage := by rw [packImage_eq_packed, packImage_eq_packed, h.encoded]
    refine ⟨_, _, exec_pack_of_quiet h1, exec_pack_of_quiet h2, ⟨⟨⟨h.freq, h.nNodes, h.root, h.nodes⟩, h.code⟩,
      h.encLen, h.encoded, h.errCode⟩, fun _ => ⟨BitVec.eq_of_toNat_eq ?_, ?_⟩⟩
    · rw [afterPack_pkLen, afterPack_pkLen, himage]
    · rw [afterPack_packedBytes, afterPack_packedBytes, himage]
  · have h2 : s2.errCode ≠ none := h.errCode ▸ h1
    exact ⟨_, _, runCommand_of_fault packStage h1, runCommand_of_fault packStage h2,
      ⟨⟨⟨h.freq, h.nNodes, h.root, h.nodes⟩, h.code⟩, h.encLen, h.encoded, h.errCode⟩, fun hnone => absurd hnone h1⟩

/-! ### The two runs -/

/-- R141: the short circuit writes constants. -/
theorem exec_compress_agree_of_no_input {s1 s2 : State} (h : SameInput s1 s2) (hlen : s1.inLen = 0#32) :
    ∃ t1 t2, exec .compress s1 = .next t1 ∧ exec .compress s2 = .next t2 ∧ SameArtifact t1 t2 :=
  ⟨_, _, exec_compress_of_no_input h.quiet1 hlen, exec_compress_of_no_input h.quiet2 (h.inLen ▸ hlen),
    ⟨⟨⟨rfl, rfl, rfl, fun k hk => absurd hk (Nat.not_lt_zero k)⟩,
      fun x => (code_clearCodes s1 x).trans (code_clearCodes s2 x).symm⟩, rfl, rfl, h.quiet1.trans h.quiet2.symm⟩,
    fun _ => ⟨rfl, rfl⟩⟩

theorem exec_compress_agree_of_input {s1 s2 : State} (h : SameInput s1 s2) (hlen : s1.inLen ≠ 0#32) :
    ∃ t1 t2, exec .compress s1 = .next t1 ∧ exec .compress s2 = .next t2 ∧ SameArtifact t1 t2 := by
  have hset : SameInput (s1.setEmpty false) (s2.setEmpty false) := ⟨h.cfg, h.inLen, h.input, h.quiet1, h.quiet2⟩
  obtain ⟨a1, a2, hanalyze1, hanalyze2, hinput, hfreq⟩ := exec_analyze_agree hset
  obtain ⟨b1, b2, hbuild1, hbuild2, hinput, htree, hroot⟩ := exec_build_agree hinput hfreq
  obtain ⟨c1, c2, hassign1, hassign2, hinput, hcodes⟩ := exec_assign_agree hinput htree hroot
  obtain ⟨d1, d2, hencode1, hencode2, hbits⟩ := exec_encode_agree hinput hcodes
  obtain ⟨t1, t2, hpack1, hpack2, hartifact⟩ := exec_pack_agree hbits
  refine ⟨t1, t2, ?_, ?_, hartifact⟩
  · rw [exec_compress_eq_execAll h.quiet1 hlen, execAll_cons_of_next hanalyze1, execAll_cons_of_next hbuild1,
      execAll_cons_of_next hassign1, execAll_cons_of_next hencode1, execAll_cons_of_next hpack1, execAll]
  · rw [exec_compress_eq_execAll h.quiet2 (h.inLen ▸ hlen), execAll_cons_of_next hanalyze2,
      execAll_cons_of_next hbuild2, execAll_cons_of_next hassign2, execAll_cons_of_next hencode2,
      execAll_cons_of_next hpack2, execAll]

/-- Settles O49: each stage makes the same of what it reads, whatever else the states hold. -/
theorem compressIsDeterministic : Obligations.CompressIsDeterministic := by
  rintro s1 s2 t1 t2 ⟨-, hquiet1⟩ ⟨-, hquiet2⟩ hcfg hlen hinput hexec1 hexec2
  have hsame : SameInput s1 s2 := ⟨hcfg, hlen, hinput, hquiet1, hquiet2⟩
  obtain ⟨u1, u2, hu1, hu2, h⟩ : ∃ u1 u2, exec .compress s1 = .next u1 ∧ exec .compress s2 = .next u2 ∧
      SameArtifact u1 u2 := by
    by_cases hzero : s1.inLen = 0#32
    · exact exec_compress_agree_of_no_input hsame hzero
    · exact exec_compress_agree_of_input hsame hzero
  obtain rfl := Host.Outcome.next.inj (hexec1.symm.trans hu1)
  obtain rfl := Host.Outcome.next.inj (hexec2.symm.trans hu2)
  exact ⟨h.freq, h.nNodes, h.root, h.nodes, codeLen_congr h.code, h.code, h.encLen, h.encoded, h.errCode, h.artifact⟩

end Sys2Proof.Machine
end
